-- ==== Sys2Proof/Word.lean ====
section
/-! DEFINITION. The word types of the block: storage cells and wire bytes are 8 bits
(00_scope.md R8), command, extension and result words are 32 bits (30_encoding.md R70, R80). -/

namespace Sys2Proof

/-- One storage cell or wire byte (00_scope.md R8). -/
abbrev Byte := BitVec 8

/-- One 16-bit immediate, offset or magic header (30_encoding.md R70, 00_scope.md R7). -/
abbrev Half := BitVec 16

/-- One command word, extension word or result word (30_encoding.md R70, R80). -/
abbrev Word := BitVec 32

end Sys2Proof
end

