-- ==== Sys2Proof/Syntax.lean ====
section
/-! DEFINITION. The commands of the block: one constructor for each row of spec/opcode_table.json
(30_encoding.md R77), with the operands R72 to R75 give it. -/

namespace Sys2Proof

/-- The buffer instance a buffer command acts on, the `B` field (30_encoding.md R71). -/
inductive BufSel where
  /-- The inbound accumulation buffer RXB, B = 0. -/
  | rxb
  /-- The outbound staging buffer TXB, B = 1. -/
  | txb
  deriving DecidableEq, Repr

/-- A command of the CMD port (00_scope.md R2, 30_encoding.md R77). -/
inductive Instr where
  /-- BUF_INIT b (40_buffer.md R101). -/
  | bufInit (b : BufSel)
  /-- BUF_CLEAR b (40_buffer.md R102). -/
  | bufClear (b : BufSel)
  /-- BUF_WRITE b, V8 (40_buffer.md R103). -/
  | bufWrite (b : BufSel) (v8 : Byte)
  /-- BUF_WRITE_N b, d; the count N16 is the list's length (40_buffer.md R104). -/
  | bufWriteN (b : BufSel) (d : List Byte)
  /-- BUF_READ b (40_buffer.md R105). -/
  | bufRead (b : BufSel)
  /-- BUF_READ_N b, N16 (40_buffer.md R106). -/
  | bufReadN (b : BufSel) (n16 : Half)
  /-- BUF_FORWARD b, S16 (40_buffer.md R107). -/
  | bufForward (b : BufSel) (s16 : Half)
  /-- BUF_BACK b, S16 (40_buffer.md R108). -/
  | bufBack (b : BufSel) (s16 : Half)
  /-- BUF_CHECKSUM b (40_buffer.md R110). -/
  | bufChecksum (b : BufSel)
  /-- BUF_WRCSUM b (40_buffer.md R111). -/
  | bufWrcsum (b : BufSel)
  /-- BUF_WRCSUM_R b, START, END (40_buffer.md R112). -/
  | bufWrcsumR (b : BufSel) (start stop : Half)
  /-- BUF_STAT b (40_buffer.md R113). -/
  | bufStat (b : BufSel)
  /-- BUF_WRITE_U16 b, V16 (41_buffer_typed.md R130). -/
  | bufWriteU16 (b : BufSel) (v16 : Half)
  /-- BUF_WRITE_I16 b, V16 (41_buffer_typed.md R131). -/
  | bufWriteI16 (b : BufSel) (v16 : Half)
  /-- BUF_WRITE_U32 b, V32 (41_buffer_typed.md R132). -/
  | bufWriteU32 (b : BufSel) (v32 : Word)
  /-- BUF_WRITE_I32 b, V32 (41_buffer_typed.md R133). -/
  | bufWriteI32 (b : BufSel) (v32 : Word)
  /-- BUF_WRITE_F32 b, V32 (41_buffer_typed.md R134). -/
  | bufWriteF32 (b : BufSel) (v32 : Word)
  /-- BUF_READ_U16 b (41_buffer_typed.md R135). -/
  | bufReadU16 (b : BufSel)
  /-- BUF_READ_I16 b (41_buffer_typed.md R136). -/
  | bufReadI16 (b : BufSel)
  /-- BUF_READ_U32 b (41_buffer_typed.md R137). -/
  | bufReadU32 (b : BufSel)
  /-- BUF_READ_I32 b (41_buffer_typed.md R138). -/
  | bufReadI32 (b : BufSel)
  /-- BUF_READ_F32 b (41_buffer_typed.md R139). -/
  | bufReadF32 (b : BufSel)
  /-- PARSE (42_parser.md R161). -/
  | parse
  /-- INGEST (42_parser.md R165). -/
  | ingest
  /-- BUILD_REQUEST OP8, d; the payload length N8 is the list's length (43_codec.md R180). -/
  | buildRequest (op8 : Byte) (d : List Byte)
  /-- DRAIN (43_codec.md R182). -/
  | drain
  /-- ISSUE OP8, d; the payload length N8 is the list's length (43_codec.md R183). -/
  | issue (op8 : Byte) (d : List Byte)
  deriving DecidableEq, Repr

end Sys2Proof
end

