-- ==== Sys2Proof/WellFormed.lean ====
section
/-! DEFINITION. Which commands have an encoding: a data sequence's length must fit the count field that
carries it (30_encoding.md R72, R73). Every other operand has exactly the width of its field. -/

namespace Sys2Proof

/-- The longest data sequence of BUF_WRITE_N: N16 is 16 bits (30_encoding.md R72). -/
def maxDataN16 : Nat := 65535

/-- The longest payload of BUILD_REQUEST and ISSUE: N8 is 8 bits (30_encoding.md R72). -/
def maxDataN8 : Nat := 255

/-- The command can be encoded: its data sequence fits its count field. -/
def Instr.wf : Instr → Bool
  | .bufWriteN _ d => decide (d.length ≤ maxDataN16)
  | .buildRequest _ d => decide (d.length ≤ maxDataN8)
  | .issue _ d => decide (d.length ≤ maxDataN8)
  | .bufInit _ | .bufClear _ | .bufWrite _ _ | .bufRead _ | .bufReadN _ _ | .bufForward _ _ | .bufBack _ _
  | .bufChecksum _ | .bufWrcsum _ | .bufWrcsumR _ _ _ | .bufStat _
  | .bufWriteU16 _ _ | .bufWriteI16 _ _ | .bufWriteU32 _ _ | .bufWriteI32 _ _ | .bufWriteF32 _ _
  | .bufReadU16 _ | .bufReadI16 _ | .bufReadU32 _ | .bufReadI32 _ | .bufReadF32 _
  | .parse | .ingest | .drain => true

end Sys2Proof
end

