-- ==== Sys2Proof/Decode.lean ====
section
/-! DEFINITION. The decoder of the CMD port's words, total and rejecting by name, and the encoder
(30_encoding.md Part B and Part D). -/

namespace Sys2Proof

/-! ## Bytes in words (30_encoding.md R73; 20_memory.md R43) -/

/-- The four bytes of a word, bits [7:0] first (30_encoding.md R73). -/
def wordBytes (w : Word) : List Byte :=
  [w.extractLsb' 0 8, w.extractLsb' 8 8, w.extractLsb' 16 8, w.extractLsb' 24 8]

/-- The word whose bits [7:0] are `a`, [15:8] `b`, [23:16] `c` and [31:24] `d` (30_encoding.md R73). -/
def wordOfBytes (a b c d : Byte) : Word := d ++ c ++ b ++ a

/-- The data words that carry a data sequence, the last one padded with 0 (30_encoding.md R73). -/
def packWords : List Byte → List Word
  | [] => []
  | [a] => [wordOfBytes a 0 0 0]
  | [a, b] => [wordOfBytes a b 0 0]
  | [a, b, c] => [wordOfBytes a b c 0]
  | a :: b :: c :: d :: rest => wordOfBytes a b c d :: packWords rest

/-- All bytes the data words carry, padding included, in order. -/
def unpackWords : List Word → List Byte
  | [] => []
  | w :: ws => wordBytes w ++ unpackWords ws

/-- ceil(n / 4), the number of data words of `n` bytes (30_encoding.md R73). -/
def dataWords (n : Nat) : Nat := (n + 3) / 4

/-! ## Fields of the command word (30_encoding.md R70) -/

/-- OPC, bits [31:24]. -/
def opcField (w : Word) : Byte := w.extractLsb' 24 8

/-- B, bit [23]. -/
def bField (w : Word) : Bool := w.getLsbD 23

/-- RSV, bits [22:16]. -/
def rsvField (w : Word) : BitVec 7 := w.extractLsb' 16 7

/-- IMM16, bits [15:0]. -/
def immField (w : Word) : Half := w.extractLsb' 0 16

/-- IMM16[7:0]: V8 or OP8 (30_encoding.md R72). -/
def immLow (w : Word) : Byte := w.extractLsb' 0 8

/-- IMM16[15:8]: must be 0 in BUF_WRITE, N8 in BUILD_REQUEST and ISSUE (30_encoding.md R72). -/
def immHigh (w : Word) : Byte := w.extractLsb' 8 8

/-- The instance a `B` bit selects (30_encoding.md R71). -/
def selOf (b : Bool) : BufSel := if b then .txb else .rxb

/-- The `B` bit of an instance (30_encoding.md R71). -/
def BufSel.bit : BufSel → Bool
  | .rxb => false
  | .txb => true

/-! ## The extension count (30_encoding.md R76) -/

/-- E, found from OPC and IMM16 alone, even for a command that is then refused (30_encoding.md R76). -/
def extCount (w : Word) : Nat :=
  match (opcField w).toNat with
  | 0x04 => dataWords (immField w).toNat
  | 0x42 => dataWords (immHigh w).toNat
  | 0x44 => dataWords (immHigh w).toNat
  | 0x0B => 1
  | 0x12 => 1
  | 0x13 => 1
  | 0x14 => 1
  | _ => 0

/-! ## Decoding -/

/-- Why an encoding is refused (30_encoding.md R84, R85). The response does not tell the reasons apart. -/
inductive DecodeError where
  /-- OPC is unassigned (R84). -/
  | unassignedOpcode
  /-- RSV is nonzero (R85). -/
  | reservedNonzero
  /-- B = 1 on an engine command (R85). -/
  | bufferBitOnEngine
  /-- An IMM16 bit that must be 0 is nonzero (R72, R85). -/
  | immediateNonzero
  /-- A padding byte of the last data word is nonzero (R73, R85). -/
  | paddingNonzero
  deriving DecidableEq, Repr

/-- Buffer command, IMM16 must be 0 (30_encoding.md R72). -/
def decodeBuf (w : Word) (mk : BufSel → Instr) : Except DecodeError Instr :=
  if rsvField w ≠ 0 then .error .reservedNonzero
  else if immField w ≠ 0 then .error .immediateNonzero
  else .ok (mk (selOf (bField w)))

/-- Buffer command with a byte immediate, IMM16[15:8] must be 0 (30_encoding.md R72). -/
def decodeBufV8 (w : Word) (mk : BufSel → Byte → Instr) : Except DecodeError Instr :=
  if rsvField w ≠ 0 then .error .reservedNonzero
  else if immHigh w ≠ 0 then .error .immediateNonzero
  else .ok (mk (selOf (bField w)) (immLow w))

/-- Buffer command with a 16-bit immediate (30_encoding.md R72). -/
def decodeBufImm (w : Word) (mk : BufSel → Half → Instr) : Except DecodeError Instr :=
  if rsvField w ≠ 0 then .error .reservedNonzero
  else .ok (mk (selOf (bField w)) (immField w))

/-- Buffer command with one value or range word, IMM16 must be 0 (30_encoding.md R72, R74, R75). -/
def decodeBufWord (w : Word) (ext : List Word) (mk : BufSel → Word → Instr) : Except DecodeError Instr :=
  if rsvField w ≠ 0 then .error .reservedNonzero
  else if immField w ≠ 0 then .error .immediateNonzero
  else .ok (mk (selOf (bField w)) (ext.headD 0))

/-- The data sequence of `n` bytes that the data words carry, refused where a padding byte is nonzero
(30_encoding.md R73, R85). -/
def decodeData (n : Nat) (ext : List Word) : Except DecodeError (List Byte) :=
  if ((unpackWords ext).drop n).any (· ≠ 0) then .error .paddingNonzero
  else .ok ((unpackWords ext).take n)

/-- Buffer command with a data sequence of IMM16 = N16 bytes (30_encoding.md R72, R73). -/
def decodeBufData (w : Word) (ext : List Word) (mk : BufSel → List Byte → Instr) :
    Except DecodeError Instr :=
  if rsvField w ≠ 0 then .error .reservedNonzero
  else match decodeData (immField w).toNat ext with
    | .error e => .error e
    | .ok d => .ok (mk (selOf (bField w)) d)

/-- Engine command, B and IMM16 must be 0 (30_encoding.md R71, R72). -/
def decodeEng (w : Word) (i : Instr) : Except DecodeError Instr :=
  if rsvField w ≠ 0 then .error .reservedNonzero
  else if bField w then .error .bufferBitOnEngine
  else if immField w ≠ 0 then .error .immediateNonzero
  else .ok i

/-- Engine command with a frame opcode and a payload of N8 bytes (30_encoding.md R71, R72, R73). -/
def decodeEngFrame (w : Word) (ext : List Word) (mk : Byte → List Byte → Instr) :
    Except DecodeError Instr :=
  if rsvField w ≠ 0 then .error .reservedNonzero
  else if bField w then .error .bufferBitOnEngine
  else match decodeData (immHigh w).toNat ext with
    | .error e => .error e
    | .ok d => .ok (mk (immLow w) d)

/-- START, the low half of the range word (30_encoding.md R75). -/
def rangeStart (r : Word) : Half := r.extractLsb' 0 16

/-- END, the high half of the range word (30_encoding.md R75). -/
def rangeEnd (r : Word) : Half := r.extractLsb' 16 16

/-- The command that a command word and its `extCount` extension words spell, or why they are refused: the
opcode map of 30_encoding.md R77 with the field rules of R71 to R75 and the refusals of R84 and R85. -/
def decodeCommand (w : Word) (ext : List Word) : Except DecodeError Instr :=
  match (opcField w).toNat with
  | 0x01 => decodeBuf w .bufInit
  | 0x02 => decodeBuf w .bufClear
  | 0x03 => decodeBufV8 w .bufWrite
  | 0x04 => decodeBufData w ext .bufWriteN
  | 0x05 => decodeBuf w .bufRead
  | 0x06 => decodeBufImm w .bufReadN
  | 0x07 => decodeBufImm w .bufForward
  | 0x08 => decodeBufImm w .bufBack
  | 0x09 => decodeBuf w .bufChecksum
  | 0x0A => decodeBuf w .bufWrcsum
  | 0x0B => decodeBufWord w ext (fun b r => .bufWrcsumR b (rangeStart r) (rangeEnd r))
  | 0x0C => decodeBuf w .bufStat
  | 0x10 => decodeBufImm w .bufWriteU16
  | 0x11 => decodeBufImm w .bufWriteI16
  | 0x12 => decodeBufWord w ext .bufWriteU32
  | 0x13 => decodeBufWord w ext .bufWriteI32
  | 0x14 => decodeBufWord w ext .bufWriteF32
  | 0x18 => decodeBuf w .bufReadU16
  | 0x19 => decodeBuf w .bufReadI16
  | 0x1A => decodeBuf w .bufReadU32
  | 0x1B => decodeBuf w .bufReadI32
  | 0x1C => decodeBuf w .bufReadF32
  | 0x40 => decodeEng w .parse
  | 0x41 => decodeEng w .ingest
  | 0x42 => decodeEngFrame w ext .buildRequest
  | 0x43 => decodeEng w .drain
  | 0x44 => decodeEngFrame w ext .issue
  | _ => .error .unassignedOpcode

/-- What stands at the front of the words waiting on CMD. -/
inductive Fetched where
  /-- No command word, or a command word whose extension words have not all been issued yet (log entry 5). -/
  | idle
  /-- A command of `n` words. -/
  | command (i : Instr) (n : Nat)
  /-- A refused encoding of `n` words: its extension words are still taken (30_encoding.md R76, R84, R85). -/
  | rejected (why : DecodeError) (n : Nat)
  deriving DecidableEq, Repr

/-- The next command of the words waiting on CMD: 1 + E words (30_encoding.md R76). -/
def fetchCommand : List Word → Fetched
  | [] => .idle
  | w :: rest =>
    if rest.length < extCount w then .idle
    else match decodeCommand w (rest.take (extCount w)) with
      | .ok i => .command i (1 + extCount w)
      | .error e => .rejected e (1 + extCount w)

/-- The whole commands, of 1 + E words each, among the words waiting on CMD; `fuel` bounds their number. -/
def wholeCommandsIn : Nat → List Word → List Word
  | 0, _ => []
  | _ + 1, [] => []
  | fuel + 1, w :: rest =>
    if rest.length < extCount w then []
    else w :: (rest.take (extCount w) ++ wholeCommandsIn fuel (rest.drop (extCount w)))

/-- The words waiting on CMD without those of a last command that is not all there (30_encoding.md R76). -/
def wholeCommands (ws : List Word) : List Word := wholeCommandsIn ws.length ws

/-! ## Encoding (30_encoding.md R70 to R78) -/

/-- A command word from its fields, RSV = 0 (30_encoding.md R70). -/
def cmdWord (opc : Byte) (b : Bool) (imm : Half) : Word := opc ++ BitVec.ofBool b ++ 0#7 ++ imm

/-- The words of a command; for a well-formed command, the ones the decoder reads it from. -/
def encode : Instr → List Word
  | .bufInit b => [cmdWord 0x01 b.bit 0]
  | .bufClear b => [cmdWord 0x02 b.bit 0]
  | .bufWrite b v8 => [cmdWord 0x03 b.bit (0#8 ++ v8)]
  | .bufWriteN b d => cmdWord 0x04 b.bit (BitVec.ofNat 16 d.length) :: packWords d
  | .bufRead b => [cmdWord 0x05 b.bit 0]
  | .bufReadN b n16 => [cmdWord 0x06 b.bit n16]
  | .bufForward b s16 => [cmdWord 0x07 b.bit s16]
  | .bufBack b s16 => [cmdWord 0x08 b.bit s16]
  | .bufChecksum b => [cmdWord 0x09 b.bit 0]
  | .bufWrcsum b => [cmdWord 0x0A b.bit 0]
  | .bufWrcsumR b start stop => [cmdWord 0x0B b.bit 0, stop ++ start]
  | .bufStat b => [cmdWord 0x0C b.bit 0]
  | .bufWriteU16 b v16 => [cmdWord 0x10 b.bit v16]
  | .bufWriteI16 b v16 => [cmdWord 0x11 b.bit v16]
  | .bufWriteU32 b v32 => [cmdWord 0x12 b.bit 0, v32]
  | .bufWriteI32 b v32 => [cmdWord 0x13 b.bit 0, v32]
  | .bufWriteF32 b v32 => [cmdWord 0x14 b.bit 0, v32]
  | .bufReadU16 b => [cmdWord 0x18 b.bit 0]
  | .bufReadI16 b => [cmdWord 0x19 b.bit 0]
  | .bufReadU32 b => [cmdWord 0x1A b.bit 0]
  | .bufReadI32 b => [cmdWord 0x1B b.bit 0]
  | .bufReadF32 b => [cmdWord 0x1C b.bit 0]
  | .parse => [cmdWord 0x40 false 0]
  | .ingest => [cmdWord 0x41 false 0]
  | .buildRequest op8 d => cmdWord 0x42 false (BitVec.ofNat 8 d.length ++ op8) :: packWords d
  | .drain => [cmdWord 0x43 false 0]
  | .issue op8 d => cmdWord 0x44 false (BitVec.ofNat 8 d.length ++ op8) :: packWords d

/-! ## Words numbered as spec/opcode_table.json numbers them -/

/-- `n` words of the number `v`, bits [31:0] first. -/
def wordsOfNat : Nat → Nat → List Word
  | 0, _ => []
  | n + 1, v => BitVec.ofNat 32 v :: wordsOfNat n (v / 2 ^ 32)

/-- The words of an instruction whose low `nbits` bits are those of `w` and whose further bits are 0: the
command word in bits [31:0], extension words from bit 32 on. -/
def tableWords (nbits w : Nat) : List Word :=
  let v := w % 2 ^ nbits
  wordsOfNat (1 + extCount (BitVec.ofNat 32 v)) v

/-- The instruction the decoder reads from an instruction whose bits are `w`; `none` where it refuses. -/
def decodeTableWord (nbits w : Nat) : Option Instr :=
  match fetchCommand (tableWords nbits w) with
  | .command i _ => some i
  | .idle => none
  | .rejected _ _ => none

end Sys2Proof
end

