-- ==== Sys2Proof/Config.lean ====
section
/-! DEFINITION. What an implementation fixes when it is built (00_scope.md R7, 10_state.md R26), and the
free values: the open parameter RESP_MAGIC and the byte an unwritten cell holds. -/

namespace Sys2Proof.Config

/-- HDR_W: the magic header is 2 bytes (00_scope.md R7). -/
def hdrW : Nat := 2

/-- MIN_FRAME: the smallest frame, with an empty payload, is 5 bytes (00_scope.md R7, 30_encoding.md R61). -/
def minFrame : Nat := 5

/-- The largest capacity a buffer may be built with (00_scope.md R7). -/
def maxCap : Nat := 65535

/-- CAP_RX's default (00_scope.md R7). -/
def capRxDefault : Nat := 256

/-- CAP_TX's default (00_scope.md R7). -/
def capTxDefault : Nat := 256

/-- REQ_MAGIC, the value the source gives (00_scope.md R7, 90_conflicts.md C4). -/
def reqMagic : Half := 0x4C12#16

/-- The build's choice of response magic. OPEN in the spec (00_scope.md R7, 91_not_in_source.md N1), so it is
a free value: no body, nothing can evaluate it (log entry 3). -/
opaque respMagicChoice : Half

/-- RESP_MAGIC of the block as built: any value that differs from REQ_MAGIC (00_scope.md R7). A choice equal to
REQ_MAGIC is no admissible build; it is mapped to another value, so that every admissible value and no
other is reached (log entry 3). -/
def respMagicAtBuild : Half :=
  if respMagicChoice = reqMagic then ~~~ reqMagic else respMagicChoice

/-- The byte a command finds in a cell that holds `⊥` (10_state.md R22): "some byte this spec does not know"
(60_exceptions.md R203). Free: a function with no body of the draw and of the physical cell
(log entries 1 and 2). -/
opaque unwrittenByte : (draw : Nat) → (cell : Nat) → Byte

/-- The build-time parameters that belong to no single buffer instance (10_state.md R26). The capacities stand
in the buffer instances. Held in State, read-only: no command writes them. -/
structure Params where
  /-- RESP_MAGIC, the header PARSE accepts (42_parser.md R153): a value the build fixes, or `none` where it is
  left OPEN as the spec leaves it. -/
  respMagic : Option Half
  /-- GUARD_INCLUSIVE, the literal guards of BUF_FORWARD and BUF_BACK (40_buffer.md R115). -/
  guardInclusive : Bool
  deriving DecidableEq, Repr

/-- The parameters of the block as built by default: RESP_MAGIC open, GUARD_INCLUSIVE false (00_scope.md R7). -/
def defaultParams : Params := { respMagic := none, guardInclusive := false }

end Sys2Proof.Config
end

