-- ==== Sys2Proof/Machine/State.lean ====
section
/-! DEFINITION. The state of the block as plain data (10_state.md), its responses and dispatch records
(30_encoding.md R80, 42_parser.md R160), the reasons a step can stop, and the state after reset. -/

namespace Sys2Proof.Machine

/-- The written storage cells of a buffer: physical index and byte. A cell that is not listed holds the mark
`⊥` (10_state.md R22). Canonical form: indices strictly rising (`Memory.wf`). -/
abbrev Memory := List Host.Cell

/-- The canonical form of a memory: indices strictly rising. An unlisted cell reads as no byte at all, so no entry
can equal what an unlisted one reads as. -/
abbrev Memory.wf (m : Memory) : Prop := m.Pairwise (fun x y => x.1 < y.1)

/-- One circular_byte_buffer instance (10_state.md R20, 00_scope.md R11). -/
structure Buffer where
  /-- `b.CAP`: the capacity, fixed when the block is built (00_scope.md R7, 10_state.md R26). -/
  cap : Nat
  /-- `b.MEM`: the storage cells. -/
  mem : Memory
  /-- `b.POS`: the head position. -/
  pos : Nat
  /-- `b.LEN`: the number of buffered bytes. -/
  len : Nat
  deriving DecidableEq, Repr

/-- A dispatch record of the DSP port: the opcode, the declared length and the payload of one validated
frame (42_parser.md R160). -/
structure DispatchRecord where
  opcode : Byte
  n : Byte
  payload : List Byte
  deriving DecidableEq, Repr

/-- The STATUS of a response (30_encoding.md R80, R81). -/
inductive Status where
  | ok
  | dropped
  | empty
  | noop
  | badRange
  | refused
  deriving DecidableEq, Repr

/-- The stop reason of PARSE and INGEST (30_encoding.md R80, 42_parser.md R151). -/
inductive Stop where
  /-- Fewer than 5 bytes are buffered. -/
  | short
  /-- A header stands at the head and its frame is incomplete. -/
  | wait
  deriving DecidableEq, Repr

/-- The response of one command (30_encoding.md R80). The default of each field is the value it has for a
command that does not define it. -/
structure Response where
  status : Status := .ok
  csumOk : Bool := false
  stop : Stop := .short
  data : Word := 0
  data2 : Word := 0
  bytes : List Byte := []
  dsp : List DispatchRecord := []
  snk : List Byte := []
  deriving DecidableEq, Repr

/-- What the byte source yields during one INGEST (42_parser.md R165). -/
inductive Burst where
  /-- A finite count of bytes, in source order; then the source reports 0 available. -/
  | bytes (s : List Byte)
  /-- The source never reports an available count of 0 (70_reset_and_hazards.md R237). -/
  | endless
  deriving DecidableEq, Repr

/-- The state of the block between commands, with what stands at its ports. -/
structure State where
  /-- RESP_MAGIC and GUARD_INCLUSIVE (10_state.md R26). -/
  params : Config.Params
  /-- The inbound accumulation buffer (10_state.md R20). -/
  rxb : Buffer
  /-- The outbound staging buffer (10_state.md R20). -/
  txb : Buffer
  /-- The words the host has issued on CMD and the block has not taken yet (10_state.md R24). -/
  cmd : List Word
  /-- The program index: how many commands have completed (10_state.md R24). -/
  index : Nat
  /-- What the byte source yields at each coming INGEST; after the last entry it yields nothing
  (10_state.md R30, 42_parser.md R165). -/
  src : List Burst
  /-- The log of bytes written to the byte sink (10_state.md R30). -/
  snk : List Byte
  /-- The log of dispatch records (10_state.md R30). -/
  dsp : List DispatchRecord
  /-- The responses delivered on CMD, oldest first (30_encoding.md R80). -/
  responses : List Response
  /-- UNWRITTEN_READ has been recorded; never cleared (60_exceptions.md R203). -/
  unwrittenRead : Bool
  /-- The model's own counter of draws of unknown bytes (log entry 2): no rule of the spec names it. -/
  freeCount : Nat
  deriving DecidableEq, Repr

/-- The reasons a step stops. The block itself raises no exception, trap or fault (60_exceptions.md R200). -/
inductive Fault where
  /-- Raised by INGEST when the byte source never reports an available count of 0: the command never completes,
  "in a model that is a hang" (70_reset_and_hazards.md R237). Safe: nothing is claimed of what follows. -/
  | ingestHang
  deriving DecidableEq, Repr

/-- The reasons for which a command has no meaning in the model. -/
inductive Refusal where
  /-- Raised by `exec`'s arm of a command that has no meaning yet; no arm does. Safe: the model stops. -/
  | notModelled (mnemonic : String)
  deriving DecidableEq, Repr

/-- A buffer instance right after reset: every cell `⊥`, POS and LEN 0 (10_state.md R31). -/
def Buffer.fresh (cap : Nat) : Buffer := { cap := cap, mem := [], pos := 0, len := 0 }

/-- The machine right after reset (10_state.md R31, 70_reset_and_hazards.md R220): both buffers fresh, the
configuration at its default build values, nothing waiting and nothing logged at the ports. -/
def State.reset : State where
  params := Config.defaultParams
  rxb := Buffer.fresh Config.capRxDefault
  txb := Buffer.fresh Config.capTxDefault
  cmd := []
  index := 0
  src := []
  snk := []
  dsp := []
  responses := []
  unwrittenRead := false
  freeCount := 0

end Sys2Proof.Machine
end

