-- ==== Sys2Proof/Machine/Ops.lean ====
section
/-! DEFINITION. The named operations over storage, buffers and the ports: the pseudocode primitives of
00_scope.md R11, the delivery of a response (30_encoding.md R80), the recording of UNWRITTEN_READ
(60_exceptions.md R203), the refusal of an encoding (30_encoding.md R84) and reset (70_reset_and_hazards.md
R220). The block has no exception to take and none to return from (60_exceptions.md R206, R207). -/

namespace Sys2Proof.Machine

/-! ## Storage cells (10_state.md R22) -/

/-- The byte in cell `a`, or `none` where the cell holds `⊥`. -/
def Memory.read : Memory → Nat → Option Byte
  | [], _ => none
  | (x, v) :: m, a => if a = x then some v else Memory.read m a

/-- `MEM[a] <- v`, keeping the canonical form. -/
def Memory.write : Memory → Nat → Byte → Memory
  | [], a, v => [(a, v)]
  | (x, w) :: m, a, v =>
    if a < x then (a, v) :: (x, w) :: m
    else if a = x then (a, v) :: m
    else (x, w) :: Memory.write m a v

/-! ## Buffer primitives (00_scope.md R11) -/

/-- The physical index of offset `k` from the head, `(POS + k) mod CAP` (20_memory.md R40, R42). -/
def Buffer.index (b : Buffer) (k : Nat) : Nat := (b.pos + k) % b.cap

/-- The cell at offset `k` from the head: a byte, or `none` for `⊥`. -/
def Buffer.cellAt (b : Buffer) (k : Nat) : Option Byte := b.mem.read (b.index k)

/-- `Peek(b, k)`. `u` gives the byte of a physical cell that holds `⊥` (log entry 1). -/
def Buffer.peek (u : Nat → Byte) (b : Buffer) (k : Nat) : Byte := (b.cellAt k).getD (u (b.index k))

/-- `[Peek(b, i) for i in start .. start + n - 1]`. -/
def Buffer.peekRange (u : Nat → Byte) (b : Buffer) (start : Nat) : Nat → List Byte
  | 0 => []
  | n + 1 => b.peek u start :: Buffer.peekRange u b (start + 1) n

/-- Whether a `⊥` cell stands among the `n` cells from offset `start` on: a command that returns, compares or sums
them records UNWRITTEN_READ (00_scope.md R12). -/
def Buffer.unwrittenIn (b : Buffer) (start : Nat) : Nat → Bool
  | 0 => false
  | n + 1 => (b.cellAt start).isNone || Buffer.unwrittenIn b (start + 1) n

/-- The store of `Append` into a buffer that is not full: the tail cell is written and becomes live. -/
def Buffer.push (b : Buffer) (v : Byte) : Buffer :=
  { b with mem := b.mem.write (b.index b.len) v, len := b.len + 1 }

/-- What a sequence of `Append`s did. -/
structure AppendResult where
  buf : Buffer
  /-- How many bytes were stored. -/
  stored : Nat
  /-- How many bytes were dropped because the buffer was full. -/
  dropped : Nat
  deriving DecidableEq, Repr

/-- A sequence of `Append`s in buffer order, each byte dropped on its own (20_memory.md R46, 40_buffer.md R103,
R104). -/
def Buffer.appendList : List Byte → Buffer → AppendResult
  | [], b => { buf := b, stored := 0, dropped := 0 }
  | v :: vs, b =>
    if b.len = b.cap then
      let r := Buffer.appendList vs b
      { r with dropped := r.dropped + 1 }
    else
      let r := Buffer.appendList vs (b.push v)
      { r with stored := r.stored + 1 }

/-- `Skip(b, k)`, with `k ≤ LEN`. -/
def Buffer.skip (b : Buffer) (k : Nat) : Buffer := { b with pos := (b.pos + k) % b.cap, len := b.len - k }

/-- BUF_BACK's move, `POS <- (POS - k) mod CAP; LEN <- LEN + k`, with `k ≤ CAP` (40_buffer.md R108). -/
def Buffer.rewind (b : Buffer) (k : Nat) : Buffer :=
  { b with pos := (b.pos + (b.cap - k)) % b.cap, len := b.len + k }

/-- What a sequence of `Pop`s did. -/
structure PopResult where
  buf : Buffer
  /-- The bytes in order, 0x00 for each `Pop` of an empty buffer. -/
  bytes : List Byte
  /-- How many bytes came from the buffer. -/
  popped : Nat
  /-- Whether a `⊥` cell was returned. -/
  unwritten : Bool
  deriving DecidableEq, Repr

/-- `n` `Pop`s in buffer order, each zero-filled on its own (20_memory.md R46, 40_buffer.md R105, R106). -/
def Buffer.popN (u : Nat → Byte) : Nat → Buffer → PopResult
  | 0, b => { buf := b, bytes := [], popped := 0, unwritten := false }
  | n + 1, b =>
    if b.len = 0 then
      let r := Buffer.popN u n b
      { r with bytes := 0x00 :: r.bytes }
    else
      let r := Buffer.popN u n (b.skip 1)
      { buf := r.buf, bytes := b.peek u 0 :: r.bytes, popped := r.popped + 1,
        unwritten := (b.cellAt 0).isNone || r.unwritten }

/-- Every cell `⊥`, POS and LEN 0 (40_buffer.md R101); the capacity is the build's. -/
def Buffer.init (b : Buffer) : Buffer := { b with mem := [], pos := 0, len := 0 }

/-- POS and LEN 0, the cells unchanged (40_buffer.md R102). -/
def Buffer.clear (b : Buffer) : Buffer := { b with pos := 0, len := 0 }

/-! ## The instances -/

/-- The instance the `B` field selects (30_encoding.md R71). -/
def State.buf (s : State) : BufSel → Buffer
  | .rxb => s.rxb
  | .txb => s.txb

/-- Replace one instance. -/
def State.setBuf (s : State) (sel : BufSel) (b : Buffer) : State :=
  match sel with
  | .rxb => { s with rxb := b }
  | .txb => { s with txb := b }

/-! ## Configuration (10_state.md R26) -/

/-- RESP_MAGIC of this block: the value its build fixes, or the free value where it is left open
(00_scope.md R7, log entry 3). -/
def State.respMagic (s : State) : Half := s.params.respMagic.getD Config.respMagicAtBuild

/-! ## Recording UNWRITTEN_READ and delivering a response -/

/-- The bytes the current command finds in `⊥` cells: a free value for each physical cell, fresh for each command
that records UNWRITTEN_READ (log entries 1 and 2). -/
def State.unknown (s : State) : Nat → Byte := Config.unwrittenByte s.freeCount

/-- Record UNWRITTEN_READ where the command touched a `⊥` cell, never clear it (60_exceptions.md R203), and make
the draw of unknown bytes used up. -/
def State.record (s : State) (touched : Bool) : State :=
  { s with
    unwrittenRead := s.unwrittenRead || touched
    freeCount := if touched then s.freeCount + 1 else s.freeCount }

/-- Deliver a response on CMD, its SNK bytes on SNK and its records on DSP (30_encoding.md R80). -/
def State.deliver (s : State) (r : Response) : State :=
  { s with responses := s.responses ++ [r], snk := s.snk ++ r.snk, dsp := s.dsp ++ r.dsp }

/-- The end of a command on one instance: its new contents, whether a `⊥` cell was returned, compared or summed, and
the response. -/
def State.finish (s : State) (sel : BufSel) (b : Buffer) (touched : Bool) (r : Response) : State :=
  ((s.setBuf sel b).record touched).deliver r

/-! ## The CMD port -/

/-- Take a command of `n` words from CMD and advance the program index by 1 (10_state.md R24). -/
def State.accept (s : State) (n : Nat) : State := { s with cmd := s.cmd.drop n, index := s.index + 1 }

/-- A refused encoding: STATUS = REFUSED, every other field 0, no state change and no port event (30_encoding.md
R84, R85). -/
def State.refuse (s : State) : State := s.deliver { status := .refused }

/-- No whole command waits on CMD: the block is idle and keeps all state (60_exceptions.md R214, log entry 5). -/
def State.idle (s : State) : State := s

/-- The host issues words on CMD, after those it issued before (20_memory.md R50). -/
def State.issueWords (s : State) (ws : List Word) : State := { s with cmd := s.cmd ++ ws }

/-! ## The byte source (42_parser.md R165) -/

/-- What the source yields during the next INGEST; nothing where the environment lists no more (log entry 6). -/
def State.nextBurst (s : State) : Burst :=
  match s.src with
  | [] => .bytes []
  | x :: _ => x

/-- The source after the next INGEST. -/
def State.dropBurst (s : State) : State := { s with src := s.src.tail }

/-! ## Reset (70_reset_and_hazards.md R220) -/

/-- The block's reset: the effect of BUF_INIT on both instances, no command in progress, and no other effect
(70_reset_and_hazards.md R220). The words of a command that is not all there are dropped, so the next word issued on
CMD is a command word; whole commands still wait (log entry 9). -/
def State.blockReset (s : State) : State :=
  { s with rxb := s.rxb.init, txb := s.txb.init, cmd := wholeCommands s.cmd }

end Sys2Proof.Machine
end

