-- ==== Sys2Proof/Machine/Flags.lean ====
section
/-! DEFINITION. The outcomes a response reports: the checksum sum and comparison (00_scope.md R10,
30_encoding.md R62), the status and its priority (30_encoding.md R81, R82), and the packing of the response
words (30_encoding.md R80). The block has no persistent flags (10_state.md R25). -/

namespace Sys2Proof.Machine

/-- `sum8`: the sum of the bytes modulo 256, `sum8([]) = 0` (00_scope.md R10). -/
def sum8 : List Byte → Byte
  | [] => 0
  | v :: vs => v + sum8 vs

/-- The frame_checksum_validator: the sum of the first `n - 1` bytes at the head equals the byte after them
(42_parser.md R155). -/
def Buffer.checksumHolds (u : Nat → Byte) (b : Buffer) (n : Nat) : Bool :=
  sum8 (b.peekRange u 0 (n - 1)) == b.peek u (n - 1)

/-- BUF_CHECKSUM's result over the whole buffered region; 0 where it is empty (40_buffer.md R110). -/
def Buffer.wholeChecksum (u : Nat → Byte) (b : Buffer) : Bool :=
  if b.len = 0 then false else b.checksumHolds u b.len

/-- The conditions of 30_encoding.md R81 a command met. -/
structure Conditions where
  refused : Bool := false
  badRange : Bool := false
  dropped : Bool := false
  empty : Bool := false
  noop : Bool := false
  deriving DecidableEq, Repr

/-- The first condition that applies, in the order of 30_encoding.md R82. -/
def Conditions.status (c : Conditions) : Status :=
  if c.refused then .refused
  else if c.badRange then .badRange
  else if c.dropped then .dropped
  else if c.empty then .empty
  else if c.noop then .noop
  else .ok

/-- The STATUS code (30_encoding.md R80). -/
def Status.code : Status → BitVec 3
  | .ok => 0
  | .dropped => 1
  | .empty => 2
  | .noop => 3
  | .badRange => 4
  | .refused => 7

/-- The STOP bit: 0 SHORT, 1 WAIT (30_encoding.md R80). -/
def Stop.bit : Stop → Bool
  | .short => false
  | .wait => true

/-- The first response word: STATUS in [2:0], CSUM_OK in [3], STOP in [4], bits [31:5] 0 (30_encoding.md R80). -/
def Response.firstWord (r : Response) : Word :=
  0#27 ++ BitVec.ofBool r.stop.bit ++ BitVec.ofBool r.csumOk ++ r.status.code

/-- The three response words in order (30_encoding.md R80). -/
def Response.words (r : Response) : List Word := [r.firstWord, r.data, r.data2]

/-- What the block delivers on CMD, one transfer at a time: a response word, or a byte of BYTES (log entry 17). -/
inductive CmdTransfer where
  | word (w : Word)
  | byte (v : Byte)
  deriving DecidableEq, Repr

/-- A response on CMD: the three words, and BYTES after them (30_encoding.md R80). Its DSP and SNK lists go to their
own ports (`State.deliver`). -/
def Response.onCmd (r : Response) : List CmdTransfer := r.words.map .word ++ r.bytes.map .byte

/-- Everything the block has delivered on CMD, oldest first: its responses in order (20_memory.md R50). -/
def State.cmdOut (s : State) : List CmdTransfer := s.responses.flatMap Response.onCmd

end Sys2Proof.Machine
end

