-- ==== Sys2Proof/Machine/Operands.lean ====
section
/-! DEFINITION. Operand forms: typed values as bytes and bytes as values, little-endian (20_memory.md R43,
41_buffer_typed.md R129), the fields of result words, and the repositioning guards (40_buffer.md R115). -/

namespace Sys2Proof.Machine

/-- The bytes of a 16-bit value, bits [7:0] first (41_buffer_typed.md R130, R131). -/
def halfBytes (v : Half) : List Byte := [v.extractLsb' 0 8, v.extractLsb' 8 8]

/-- The little-endian value of at most four bytes, zero-extended to 32 bits: `{.., b1, b0}` (41_buffer_typed.md R135,
R137). -/
def leWord : List Byte → Word
  | [] => 0
  | v :: vs => v.setWidth 32 ||| (leWord vs <<< 8)

/-- `sext_32` of the low 16 bits (41_buffer_typed.md R136). -/
def sextHalf (w : Word) : Word := (w.extractLsb' 0 16).signExtend 32

/-- `zext_32` of a byte. -/
def zextByte (v : Byte) : Word := v.setWidth 32

/-- A count in bits [15:0] of a result word, bits [31:16] 0 (40_buffer.md R104, R106). -/
def lowHalf (n : Nat) : Word := 0#16 ++ BitVec.ofNat 16 n

/-- `{hi[15:0], lo[15:0]}` (40_buffer.md R113, 42_parser.md R161). -/
def twoHalves (hi lo : Nat) : Word := BitVec.ofNat 16 hi ++ BitVec.ofNat 16 lo

/-- `zext_32` of a count (43_codec.md R180, R182). -/
def zextCount (n : Nat) : Word := BitVec.ofNat 32 n

/-- BUF_FORWARD's guard (40_buffer.md R107, R115). -/
def forwardNoop (inclusive : Bool) (step len : Nat) : Bool :=
  if inclusive then decide (step ≥ len) else decide (step > len)

/-- BUF_BACK's guard (40_buffer.md R108, R115). -/
def backNoop (inclusive : Bool) (step len cap : Nat) : Bool :=
  if inclusive then decide (len + step ≥ cap) else decide (len + step > cap)

end Sys2Proof.Machine
end

