-- ==== Sys2Proof/Machine/Checksum.lean ====
section
/-! DEFINITION. Meanings of the circular_byte_buffer commands of 40_buffer.md section 4: checksums. -/

namespace Sys2Proof.Machine

/-- BUF_CHECKSUM (40_buffer.md R110). -/
def execBufChecksum (b : BufSel) (s : State) : Host.Outcome State Fault Refusal :=
  let buf := s.buf b
  .next (s.finish b buf (buf.unwrittenIn 0 buf.len)
    { status := .ok, csumOk := buf.wholeChecksum s.unknown })

/-- BUF_WRCSUM (40_buffer.md R111). -/
def execBufWrcsum (b : BufSel) (s : State) : Host.Outcome State Fault Refusal :=
  let buf := s.buf b
  let c := sum8 (buf.peekRange s.unknown 0 buf.len)
  let r := Buffer.appendList [c] buf
  .next (s.finish b r.buf (buf.unwrittenIn 0 buf.len)
    { status := Conditions.status { dropped := decide (0 < r.dropped) }, data := zextByte c })

/-- BUF_WRCSUM_R (40_buffer.md R112). -/
def execBufWrcsumR (b : BufSel) (start stop : Half) (s : State) : Host.Outcome State Fault Refusal :=
  let buf := s.buf b
  if start.toNat ≤ stop.toNat ∧ stop.toNat ≤ buf.len then
    let n := stop.toNat - start.toNat
    let c := sum8 (buf.peekRange s.unknown start.toNat n)
    let r := Buffer.appendList [c] buf
    .next (s.finish b r.buf (buf.unwrittenIn start.toNat n)
      { status := Conditions.status { dropped := decide (0 < r.dropped) }, data := zextByte c })
  else
    .next (s.finish b buf false { status := Conditions.status { badRange := true } })

end Sys2Proof.Machine
end

