-- ==== Sys2Proof/Machine/Frame.lean ====
section
/-! DEFINITION. The wire frame format (30_encoding.md Part A): what BUILD_REQUEST writes and PARSE recognises,
as byte lists. -/

namespace Sys2Proof.Machine

/-- A frame: magic header, opcode and payload; the length and checksum bytes follow from them (30_encoding.md R60). -/
structure Frame where
  magic : Half
  opcode : Byte
  payload : List Byte
  deriving DecidableEq, Repr

/-- The bytes before the checksum: MAGIC_LO, MAGIC_HI, OPCODE, LEN, PAYLOAD (30_encoding.md R60). -/
def Frame.body (f : Frame) : List Byte :=
  halfBytes f.magic ++ [f.opcode, BitVec.ofNat 8 f.payload.length] ++ f.payload

/-- The frame on the wire, first byte first (30_encoding.md R60). -/
def Frame.bytes (f : Frame) : List Byte := f.body ++ [sum8 f.body]

/-- The frame's size, `5 + n` bytes (30_encoding.md R61). -/
def Frame.size (f : Frame) : Nat := Config.minFrame + f.payload.length

/-- A payload a frame can carry: LEN is one byte (30_encoding.md R60). -/
def Frame.fits (f : Frame) : Bool := decide (f.payload.length ≤ 255)

/-- The dispatch record of the frame (42_parser.md R160). -/
def Frame.record (f : Frame) : DispatchRecord :=
  { opcode := f.opcode, n := BitVec.ofNat 8 f.payload.length, payload := f.payload }

/-- The validity of a byte sequence as a frame: its size is that its LEN byte declares, and its checksum byte equals
the sum of all bytes before it (30_encoding.md R61, R62). -/
def frameValid (bs : List Byte) : Bool :=
  decide (Config.minFrame ≤ bs.length) && decide (bs.length = Config.minFrame + (bs.getD 3 0).toNat) &&
    (bs.getLastD 0 == sum8 bs.dropLast)

end Sys2Proof.Machine
end

