-- ==== Sys2Proof/Machine/Codec.lean ====
section
/-! DEFINITION. The request builder and drain over TXB and the meanings of BUILD_REQUEST, DRAIN and ISSUE
(43_codec.md). -/

namespace Sys2Proof.Machine

/-- What building a request did to TXB. -/
structure BuildResult where
  buf : Buffer
  /-- The checksum that was computed, stored or not. -/
  csum : Byte
  /-- Some append was dropped. -/
  dropped : Bool
  /-- A `⊥` cell was summed; it never is, in a buffer that has a cell. -/
  unwritten : Bool
  deriving DecidableEq, Repr

/-- The request frame of an opcode and a payload: it carries REQ_MAGIC (30_encoding.md R63). -/
def requestFrame (op8 : Byte) (d : List Byte) : Frame := { magic := Config.reqMagic, opcode := op8, payload := d }

/-- The sequence of 43_codec.md R180 on a buffer: clear, append header, opcode, length and payload, then append the
checksum of what is buffered. -/
def Buffer.buildRequest (u : Nat → Byte) (op8 : Byte) (d : List Byte) (b : Buffer) : BuildResult :=
  let r := Buffer.appendList (requestFrame op8 d).body b.clear
  let c := sum8 (r.buf.peekRange u 0 r.buf.len)
  let r2 := Buffer.appendList [c] r.buf
  { buf := r2.buf, csum := c, dropped := decide (0 < r.dropped + r2.dropped),
    unwritten := r.buf.unwrittenIn 0 r.buf.len }

/-- The response of building a request (43_codec.md R180), with the bytes ISSUE then sends (R183). -/
def BuildResult.response (r : BuildResult) (snk : List Byte) : Response :=
  { status := Conditions.status { dropped := r.dropped }, data := zextByte r.csum, data2 := zextCount r.buf.len,
    snk := snk }

/-- BUILD_REQUEST (43_codec.md R180). -/
def execBuildRequest (op8 : Byte) (d : List Byte) (s : State) : Host.Outcome State Fault Refusal :=
  let r := s.txb.buildRequest s.unknown op8 d
  .next (s.finish .txb r.buf r.unwritten (r.response []))

/-- DRAIN (43_codec.md R182). -/
def execDrain (s : State) : Host.Outcome State Fault Refusal :=
  let r := Buffer.popN s.unknown s.txb.len s.txb
  .next (s.finish .txb r.buf r.unwritten { status := .ok, data := zextCount r.popped, snk := r.bytes })

/-- ISSUE: BUILD_REQUEST, then DRAIN, in one command (43_codec.md R183). -/
def execIssue (op8 : Byte) (d : List Byte) (s : State) : Host.Outcome State Fault Refusal :=
  let r := s.txb.buildRequest s.unknown op8 d
  let q := Buffer.popN s.unknown r.buf.len r.buf
  .next (s.finish .txb q.buf (r.unwritten || q.unwritten) (r.response q.bytes))

end Sys2Proof.Machine
end

