-- ==== Sys2Proof/Machine/Lifecycle.lean ====
section
/-! DEFINITION. Meanings of the circular_byte_buffer commands of 40_buffer.md sections 1, 3 and 5: lifecycle,
repositioning and the status view. -/

namespace Sys2Proof.Machine

/-- BUF_INIT (40_buffer.md R101). -/
def execBufInit (b : BufSel) (s : State) : Host.Outcome State Fault Refusal :=
  .next (s.finish b (s.buf b).init false { status := .ok })

/-- BUF_CLEAR (40_buffer.md R102). -/
def execBufClear (b : BufSel) (s : State) : Host.Outcome State Fault Refusal :=
  .next (s.finish b (s.buf b).clear false { status := .ok })

/-- BUF_FORWARD (40_buffer.md R107). -/
def execBufForward (b : BufSel) (s16 : Half) (s : State) : Host.Outcome State Fault Refusal :=
  let buf := s.buf b
  let noop := forwardNoop s.params.guardInclusive s16.toNat buf.len
  .next (s.finish b (if noop then buf else buf.skip s16.toNat) false
    { status := Conditions.status { noop := noop } })

/-- BUF_BACK (40_buffer.md R108). -/
def execBufBack (b : BufSel) (s16 : Half) (s : State) : Host.Outcome State Fault Refusal :=
  let buf := s.buf b
  let noop := backNoop s.params.guardInclusive s16.toNat buf.len buf.cap
  .next (s.finish b (if noop then buf else buf.rewind s16.toNat) false
    { status := Conditions.status { noop := noop } })

/-- BUF_STAT (40_buffer.md R113, 10_state.md R27). -/
def execBufStat (b : BufSel) (s : State) : Host.Outcome State Fault Refusal :=
  let buf := s.buf b
  .next (s.finish b buf false
    { status := .ok, data := twoHalves buf.len buf.pos, data2 := lowHalf buf.cap })

end Sys2Proof.Machine
end

