-- ==== Sys2Proof/Machine/Parser.lean ====
section
/-! DEFINITION. The PARSE loop of the byte_framing_state_machine (42_parser.md R152 to R160) and the meanings of
PARSE (R161) and INGEST (R165). -/

namespace Sys2Proof.Machine

/-- The header at the head, `{Peek(RXB,1), Peek(RXB,0)}` (42_parser.md R153). -/
def Buffer.header (u : Nat → Byte) (b : Buffer) : Half := b.peek u 1 ++ b.peek u 0

/-- The size of the candidate frame at the head, `5 + Peek(RXB,3)` (30_encoding.md R61, 42_parser.md R151). -/
def Buffer.frameSize (u : Nat → Byte) (b : Buffer) : Nat := Config.minFrame + (b.peek u 3).toNat

/-- The dispatch record of the candidate frame at the head (42_parser.md R159). -/
def Buffer.frameRecord (u : Nat → Byte) (b : Buffer) : DispatchRecord :=
  { opcode := b.peek u 2, n := b.peek u 3, payload := b.peekRange u 4 (b.peek u 3).toNat }

/-- What one pass of the PARSE loop finds at the head of RXB (42_parser.md R158). -/
inductive Pass where
  /-- The loop exits. -/
  | exit (why : Stop)
  /-- The header does not match: one byte is discarded (R154). -/
  | resync
  /-- The candidate frame fails its checksum: all of it is discarded (R157). -/
  | bad
  /-- The candidate frame is valid: a record is emitted and the frame consumed (R159). -/
  | good
  deriving DecidableEq, Repr

/-- The checks of one pass, in their fixed order: length, header, frame size, checksum (42_parser.md R158,
60_exceptions.md R205). -/
def Buffer.pass (u : Nat → Byte) (magic : Half) (b : Buffer) : Pass :=
  if b.len < Config.minFrame then .exit .short
  else if b.header u ≠ magic then .resync
  else if b.len < b.frameSize u then .exit .wait
  else if b.checksumHolds u (b.frameSize u) then .good
  else .bad

/-- Whether that pass peeks a `⊥` cell (42_parser.md R161, log entry 10): the header cells, on a match the
opcode and length cells, and on a complete candidate every cell of it. -/
def Buffer.passUnwritten (u : Nat → Byte) (magic : Half) (b : Buffer) : Bool :=
  match b.pass u magic with
  | .exit .short => false
  | .resync => b.unwrittenIn 0 2
  | .exit .wait => b.unwrittenIn 0 4
  | .bad => b.unwrittenIn 0 (b.frameSize u)
  | .good => b.unwrittenIn 0 (b.frameSize u)

/-- The buffer, counts and records local to one PARSE (42_parser.md R158). -/
structure ParseState where
  buf : Buffer
  ndisp : Nat
  nresync : Nat
  nbad : Nat
  records : List DispatchRecord
  unwritten : Bool
  stop : Stop
  deriving DecidableEq, Repr

/-- The start of a PARSE: the counts are 0 and nothing has been emitted. -/
def ParseState.start (b : Buffer) : ParseState :=
  { buf := b, ndisp := 0, nresync := 0, nbad := 0, records := [], unwritten := false, stop := .short }

/-- The effect of one pass (42_parser.md R154, R156, R157, R159). -/
def ParseState.apply (u : Nat → Byte) (magic : Half) (p : ParseState) : ParseState :=
  let q := { p with unwritten := p.unwritten || p.buf.passUnwritten u magic }
  match p.buf.pass u magic with
  | .exit why => { q with stop := why }
  | .resync => { q with buf := p.buf.skip 1, nresync := p.nresync + 1 }
  | .bad => { q with buf := p.buf.skip (p.buf.frameSize u), nbad := p.nbad + 1 }
  | .good =>
    { q with
      buf := p.buf.skip (p.buf.frameSize u)
      ndisp := p.ndisp + 1
      records := p.records ++ [p.buf.frameRecord u] }

/-- The PARSE loop with a bound on its passes. Every pass that does not exit removes at least one byte, so
`LEN + 1` passes always suffice (42_parser.md R158). -/
def parseLoop (u : Nat → Byte) (magic : Half) : Nat → ParseState → ParseState
  | 0, p => p
  | fuel + 1, p =>
    match p.buf.pass u magic with
    | .exit _ => p.apply u magic
    | .resync => parseLoop u magic fuel (p.apply u magic)
    | .bad => parseLoop u magic fuel (p.apply u magic)
    | .good => parseLoop u magic fuel (p.apply u magic)

/-- One whole PARSE of a buffer (42_parser.md R158). -/
def runParse (u : Nat → Byte) (magic : Half) (b : Buffer) : ParseState :=
  parseLoop u magic (b.len + 1) (ParseState.start b)

/-- The response of a PARSE or INGEST: `hi` is DATA2[31:16] (42_parser.md R161, R165). -/
def ParseState.response (p : ParseState) (status : Status) (hi : Nat) : Response :=
  { status := status, stop := p.stop, data := twoHalves p.nresync p.ndisp, data2 := twoHalves hi p.nbad,
    dsp := p.records }

/-- PARSE (42_parser.md R161). -/
def execParse (s : State) : Host.Outcome State Fault Refusal :=
  let p := runParse s.unknown s.respMagic s.rxb
  .next (s.finish .rxb p.buf p.unwritten (p.response .ok 0))

/-- INGEST (42_parser.md R165): the source's bytes are appended, then one PARSE runs. A source that never
reports 0 available keeps it from completing (70_reset_and_hazards.md R237). -/
def execIngest (s : State) : Host.Outcome State Fault Refusal :=
  match s.nextBurst with
  | .endless => .fault .ingestHang
  | .bytes d =>
    let r := Buffer.appendList d s.rxb
    let p := runParse s.unknown s.respMagic r.buf
    .next (s.dropBurst.finish .rxb p.buf p.unwritten
      (p.response (Conditions.status { dropped := decide (0 < r.dropped) }) (min r.dropped 65535)))

end Sys2Proof.Machine
end

