-- ==== Sys2Proof/Machine/ReadWrite.lean ====
section
/-! DEFINITION. Meanings of the circular_byte_buffer commands of 40_buffer.md section 2: write and read. -/

namespace Sys2Proof.Machine

/-- BUF_WRITE (40_buffer.md R103). -/
def execBufWrite (b : BufSel) (v8 : Byte) (s : State) : Host.Outcome State Fault Refusal :=
  let r := Buffer.appendList [v8] (s.buf b)
  .next (s.finish b r.buf false { status := Conditions.status { dropped := decide (0 < r.dropped) } })

/-- BUF_WRITE_N (40_buffer.md R104). -/
def execBufWriteN (b : BufSel) (d : List Byte) (s : State) : Host.Outcome State Fault Refusal :=
  let r := Buffer.appendList d (s.buf b)
  .next (s.finish b r.buf false
    { status := Conditions.status { dropped := decide (0 < r.dropped) }, data := lowHalf r.stored })

/-- BUF_READ (40_buffer.md R105). -/
def execBufRead (b : BufSel) (s : State) : Host.Outcome State Fault Refusal :=
  let r := Buffer.popN s.unknown 1 (s.buf b)
  .next (s.finish b r.buf r.unwritten
    { status := Conditions.status { empty := decide (r.popped < 1) }, data := leWord r.bytes })

/-- BUF_READ_N (40_buffer.md R106). -/
def execBufReadN (b : BufSel) (n16 : Half) (s : State) : Host.Outcome State Fault Refusal :=
  let r := Buffer.popN s.unknown n16.toNat (s.buf b)
  .next (s.finish b r.buf r.unwritten
    { status := Conditions.status { empty := decide (r.popped < n16.toNat) },
      data := lowHalf r.popped, bytes := r.bytes })

end Sys2Proof.Machine
end

