-- ==== Sys2Proof/Machine/Typed.lean ====
section
/-! DEFINITION. Meanings of the typed helpers (41_buffer_typed.md): sequences of single-byte appends or pops,
least significant byte first, no arithmetic (R129). -/

namespace Sys2Proof.Machine

/-- A typed write of the given bytes, each dropped on its own (41_buffer_typed.md R129). -/
def typedWrite (b : BufSel) (d : List Byte) (s : State) : State :=
  let r := Buffer.appendList d (s.buf b)
  s.finish b r.buf false { status := Conditions.status { dropped := decide (0 < r.dropped) } }

/-- A typed read of `w` bytes, each zero-filled on its own; `val` makes DATA of the little-endian value
(41_buffer_typed.md R129). -/
def typedRead (b : BufSel) (w : Nat) (val : Word → Word) (s : State) : State :=
  let r := Buffer.popN s.unknown w (s.buf b)
  s.finish b r.buf r.unwritten
    { status := Conditions.status { empty := decide (r.popped < w) }, data := val (leWord r.bytes) }

/-- BUF_WRITE_U16 (41_buffer_typed.md R130). -/
def execBufWriteU16 (b : BufSel) (v16 : Half) (s : State) : Host.Outcome State Fault Refusal :=
  .next (typedWrite b (halfBytes v16) s)

/-- BUF_WRITE_I16: the 16 bits are moved unchanged (41_buffer_typed.md R131). -/
def execBufWriteI16 (b : BufSel) (v16 : Half) (s : State) : Host.Outcome State Fault Refusal :=
  .next (typedWrite b (halfBytes v16) s)

/-- BUF_WRITE_U32 (41_buffer_typed.md R132). -/
def execBufWriteU32 (b : BufSel) (v32 : Word) (s : State) : Host.Outcome State Fault Refusal :=
  .next (typedWrite b (wordBytes v32) s)

/-- BUF_WRITE_I32 (41_buffer_typed.md R133). -/
def execBufWriteI32 (b : BufSel) (v32 : Word) (s : State) : Host.Outcome State Fault Refusal :=
  .next (typedWrite b (wordBytes v32) s)

/-- BUF_WRITE_F32: the pattern is stored bit-exact (41_buffer_typed.md R134). -/
def execBufWriteF32 (b : BufSel) (v32 : Word) (s : State) : Host.Outcome State Fault Refusal :=
  .next (typedWrite b (wordBytes v32) s)

/-- BUF_READ_U16 (41_buffer_typed.md R135). -/
def execBufReadU16 (b : BufSel) (s : State) : Host.Outcome State Fault Refusal :=
  .next (typedRead b 2 id s)

/-- BUF_READ_I16 (41_buffer_typed.md R136). -/
def execBufReadI16 (b : BufSel) (s : State) : Host.Outcome State Fault Refusal :=
  .next (typedRead b 2 sextHalf s)

/-- BUF_READ_U32 (41_buffer_typed.md R137). -/
def execBufReadU32 (b : BufSel) (s : State) : Host.Outcome State Fault Refusal :=
  .next (typedRead b 4 id s)

/-- BUF_READ_I32 (41_buffer_typed.md R138). -/
def execBufReadI32 (b : BufSel) (s : State) : Host.Outcome State Fault Refusal :=
  .next (typedRead b 4 id s)

/-- BUF_READ_F32: DATA is the raw pattern (41_buffer_typed.md R139). -/
def execBufReadF32 (b : BufSel) (s : State) : Host.Outcome State Fault Refusal :=
  .next (typedRead b 4 id s)

end Sys2Proof.Machine
end

