-- ==== Sys2Proof/Machine/Dispatch.lean ====
section
/-! DEFINITION. The meaning of every command, one arm per constructor (30_encoding.md R77). -/

namespace Sys2Proof.Machine

def exec (i : Instr) (s : State) : Host.Outcome State Fault Refusal :=
  match i with
  | .bufInit b => Sys2Proof.Machine.execBufInit b s
  | .bufClear b => Sys2Proof.Machine.execBufClear b s
  | .bufWrite b v8 => Sys2Proof.Machine.execBufWrite b v8 s
  | .bufWriteN b d => Sys2Proof.Machine.execBufWriteN b d s
  | .bufRead b => Sys2Proof.Machine.execBufRead b s
  | .bufReadN b n16 => Sys2Proof.Machine.execBufReadN b n16 s
  | .bufForward b s16 => Sys2Proof.Machine.execBufForward b s16 s
  | .bufBack b s16 => Sys2Proof.Machine.execBufBack b s16 s
  | .bufChecksum b => Sys2Proof.Machine.execBufChecksum b s
  | .bufWrcsum b => Sys2Proof.Machine.execBufWrcsum b s
  | .bufWrcsumR b start stop => Sys2Proof.Machine.execBufWrcsumR b start stop s
  | .bufStat b => Sys2Proof.Machine.execBufStat b s
  | .bufWriteU16 b v16 => Sys2Proof.Machine.execBufWriteU16 b v16 s
  | .bufWriteI16 b v16 => Sys2Proof.Machine.execBufWriteI16 b v16 s
  | .bufWriteU32 b v32 => Sys2Proof.Machine.execBufWriteU32 b v32 s
  | .bufWriteI32 b v32 => Sys2Proof.Machine.execBufWriteI32 b v32 s
  | .bufWriteF32 b v32 => Sys2Proof.Machine.execBufWriteF32 b v32 s
  | .bufReadU16 b => Sys2Proof.Machine.execBufReadU16 b s
  | .bufReadI16 b => Sys2Proof.Machine.execBufReadI16 b s
  | .bufReadU32 b => Sys2Proof.Machine.execBufReadU32 b s
  | .bufReadI32 b => Sys2Proof.Machine.execBufReadI32 b s
  | .bufReadF32 b => Sys2Proof.Machine.execBufReadF32 b s
  | .parse => Sys2Proof.Machine.execParse s
  | .ingest => Sys2Proof.Machine.execIngest s
  | .buildRequest op8 d => Sys2Proof.Machine.execBuildRequest op8 d s
  | .drain => Sys2Proof.Machine.execDrain s
  | .issue op8 d => Sys2Proof.Machine.execIssue op8 d s

end Sys2Proof.Machine
end

