-- ==== Sys2Proof/Machine/Step.lean ====
section
/-! DEFINITION. One step: the block takes the next command waiting on CMD and performs it in full (00_scope.md R2,
10_state.md R24, 20_memory.md R50). -/

namespace Sys2Proof.Machine

/-- One step. A whole command is taken and run, a refused encoding is taken and answered REFUSED (30_encoding.md R84,
R85), and with no whole command waiting the block is idle (60_exceptions.md R214). -/
def step (s : State) : Host.Outcome State Fault Refusal :=
  match fetchCommand s.cmd with
  | .idle => .next s.idle
  | .command i n => exec i (s.accept n)
  | .rejected _ n => .next (s.accept n).refuse

/-- `s` with the instruction whose low `nbits` bits are those of `w` (further bits 0) standing first on CMD, ahead of
what waits there: the next step fetches exactly it. -/
def State.withFetchWord (s : State) (nbits w : Nat) : State := { s with cmd := tableWords nbits w ++ s.cmd }

end Sys2Proof.Machine
end

