-- ==== Sys2Proof/Machine/Fsm.lean ====
section
/-! DEFINITION. The byte_framing_state_machine as the state table of 42_parser.md R151, with its transient states
(10_state.md R29). PARSE's meaning is the loop of R158 (Machine/Parser.lean); this is the same machine one transition
at a time. -/

namespace Sys2Proof.Machine

/-- The FSM's states within one PARSE (42_parser.md R151). -/
inductive FsmState where
  | checkLen
  | hunt
  | size
  | validate
  | dispatch
  | stop
  deriving DecidableEq, Repr

/-- The FSM in the middle of a PARSE: its state, the buffer with the counts and records so far, and the candidate's
opcode, length and size, `op`, `n` and `fs` (42_parser.md R151). -/
structure Fsm where
  state : FsmState
  vars : ParseState
  op : Byte
  n : Byte
  fs : Nat
  deriving DecidableEq, Repr

/-- Every PARSE starts in CHECK_LEN (42_parser.md R151). -/
def Fsm.start (b : Buffer) : Fsm := { state := .checkLen, vars := ParseState.start b, op := 0, n := 0, fs := 0 }

/-- Peek the first `k` cells: UNWRITTEN_READ is noted where one holds `⊥` (42_parser.md R161). -/
def ParseState.note (p : ParseState) (k : Nat) : ParseState :=
  { p with unwritten := p.unwritten || p.buf.unwrittenIn 0 k }

/-- One row of the table of 42_parser.md R151. -/
def Fsm.step (u : Nat → Byte) (magic : Half) (m : Fsm) : Fsm :=
  match m.state with
  | .checkLen =>
    if m.vars.buf.len < Config.minFrame then { m with state := .stop, vars := { m.vars with stop := .short } }
    else { m with state := .hunt }
  | .hunt =>
    if m.vars.buf.header u ≠ magic then
      { m with
        state := .checkLen
        vars := { m.vars.note 2 with buf := m.vars.buf.skip 1, nresync := m.vars.nresync + 1 } }
    else
      { state := .size, vars := m.vars.note 4, op := m.vars.buf.peek u 2, n := m.vars.buf.peek u 3,
        fs := Config.minFrame + (m.vars.buf.peek u 3).toNat }
  | .size =>
    if m.vars.buf.len < m.fs then { m with state := .stop, vars := { m.vars with stop := .wait } }
    else { m with state := .validate }
  | .validate =>
    if m.vars.buf.checksumHolds u m.fs then { m with state := .dispatch, vars := m.vars.note m.fs }
    else
      { m with
        state := .checkLen
        vars := { m.vars.note m.fs with buf := m.vars.buf.skip m.fs, nbad := m.vars.nbad + 1 } }
  | .dispatch =>
    { m with
      state := .checkLen
      vars :=
        { m.vars with
          buf := m.vars.buf.skip m.fs
          ndisp := m.vars.ndisp + 1
          records := m.vars.records ++
            [{ opcode := m.op, n := m.n, payload := m.vars.buf.peekRange u 4 m.n.toNat }] } }
  | .stop => m

/-- `k` transitions of the FSM. -/
def Fsm.run (u : Nat → Byte) (magic : Half) : Nat → Fsm → Fsm
  | 0, m => m
  | k + 1, m => Fsm.run u magic k (m.step u magic)

end Sys2Proof.Machine
end

