-- ==== Sys2Proof/Machine/Program.lean ====
section
/-! DEFINITION. Programs: a finite list of commands with a program index that starts at 0 and advances by 1 when a
command completes (10_state.md R24). `step` runs the same commands from the words on CMD. -/

namespace Sys2Proof.Machine

/-- A command completes: the program index advances by exactly 1 (10_state.md R24). -/
def State.tick (s : State) : State := { s with index := s.index + 1 }

/-- Run the commands of a program in order, stopping at the first that does not complete. -/
def runCommands : List Instr → State → Host.Outcome State Fault Refusal
  | [], s => .next s
  | i :: rest, s =>
    match exec i s.tick with
    | .next t => runCommands rest t
    | .fault f => .fault f
    | .refused r => .refused r

/-- BUF_PEEK b: BUF_READ b, then BUF_BACK b, 1 (30_encoding.md R88). -/
def bufPeek (b : BufSel) : List Instr := [.bufRead b, .bufBack b 1]

/-- BUF_PEEK16 b: BUF_READ_U16 b, then BUF_BACK b, 2 (30_encoding.md R88). -/
def bufPeek16 (b : BufSel) : List Instr := [.bufReadU16 b, .bufBack b 2]

end Sys2Proof.Machine
end

