-- ==== Sys2Proof/Safety.lean ====
section
/-! DEFINITION. The terms in which claims speak of the machine: the bounds every run keeps, what a buffer holds,
and what a command leaves alone. -/

namespace Sys2Proof.Machine

/-! ## Bounds -/

/-- The bounds of 10_state.md R21 and 00_scope.md R7, R8 for one instance, with its storage in canonical form and
within the capacity (20_memory.md R40). -/
abbrev Buffer.wf (b : Buffer) : Prop :=
  1 ≤ b.cap ∧ b.cap ≤ Config.maxCap ∧ b.pos < b.cap ∧ b.len ≤ b.cap ∧ Memory.wf b.mem ∧ ∀ x ∈ b.mem, x.1 < b.cap

/-- The invariant of the block: both instances within their bounds (10_state.md R21), and RESP_MAGIC differs from
REQ_MAGIC (00_scope.md R7). -/
abbrev State.Inv (s : State) : Prop :=
  s.rxb.wf ∧ s.txb.wf ∧ s.params.respMagic ≠ some Config.reqMagic

/-- No live cell holds `⊥`. Only BUF_BACK can break this (60_exceptions.md R203). -/
abbrev Buffer.liveWritten (b : Buffer) : Prop := ∀ k, k < b.len → (b.cellAt k).isSome = true

/-- No live cell of either instance holds `⊥`. -/
abbrev State.LiveWritten (s : State) : Prop := s.rxb.liveWritten ∧ s.txb.liveWritten

/-- A run that can be trusted to the byte: UNWRITTEN_READ has not been recorded (60_exceptions.md R203). -/
abbrev State.Clean (s : State) : Prop := s.unwrittenRead = false

/-! ## What a buffer holds -/

/-- The live region holds exactly these bytes, head first: `POS/LEN [live bytes]` (40_buffer.md R100). No cell of
it is `⊥`. -/
abbrev Buffer.holds (b : Buffer) (bs : List Byte) : Prop :=
  b.len = bs.length ∧ ∀ k, k < bs.length → b.cellAt k = bs[k]?

/-- The live region may hold these bytes, head first: they agree with every written cell of it; for a `⊥` cell any
byte will do. -/
abbrev Buffer.mayHold (b : Buffer) (bs : List Byte) : Prop :=
  b.len = bs.length ∧ ∀ k, k < bs.length → b.cellAt k = none ∨ b.cellAt k = bs[k]?

/-- A `⊥` cell stands among the `n` cells from offset `start` on. -/
abbrev Buffer.someUnwritten (b : Buffer) (start n : Nat) : Prop :=
  ∃ k, k < n ∧ b.cellAt (start + k) = none

/-! ## What a command leaves alone -/

/-- The other instance. -/
def BufSel.other : BufSel → BufSel
  | .rxb => .txb
  | .txb => .rxb

/-- The configuration of `t` is that of `s` (10_state.md R26). -/
abbrev State.sameConfig (s t : State) : Prop :=
  t.params = s.params ∧ t.rxb.cap = s.rxb.cap ∧ t.txb.cap = s.txb.cap

/-- What a buffer command on instance `b` never touches: the configuration, the other instance, the CMD queue, the
program index, the byte source, and the SNK and DSP logs. -/
abbrev State.sameOutside (b : BufSel) (s t : State) : Prop :=
  s.sameConfig t ∧ t.buf (BufSel.other b) = s.buf (BufSel.other b) ∧ t.cmd = s.cmd ∧ t.index = s.index ∧
    t.src = s.src ∧ t.snk = s.snk ∧ t.dsp = s.dsp

/-- Nothing was recorded and no draw of unknown bytes was made. -/
abbrev State.sameRecord (s t : State) : Prop :=
  t.unwrittenRead = s.unwrittenRead ∧ t.freeCount = s.freeCount

/-- UNWRITTEN_READ is recorded exactly where `touched` holds, and is never cleared (60_exceptions.md R203). -/
abbrev State.records (touched : Prop) (s t : State) : Prop :=
  (t.unwrittenRead = true ↔ s.unwrittenRead = true ∨ touched)

/-- `t` has delivered exactly the responses of `s` and then `r`. -/
abbrev State.responded (r : Response) (s t : State) : Prop := t.responses = s.responses ++ [r]

/-- The effect of appending the bytes `d` to instance `b`: the `k` bytes that fit are stored in the `k` cells from the
tail `(POS + LEN) mod CAP` on and become live; POS and every other cell stay (40_buffer.md R103, R104). -/
abbrev State.appended (b : BufSel) (d : List Byte) (s t : State) : Prop :=
  (t.buf b).pos = (s.buf b).pos ∧
  (t.buf b).len = (s.buf b).len + min d.length ((s.buf b).cap - (s.buf b).len) ∧
  (∀ j, j < min d.length ((s.buf b).cap - (s.buf b).len) →
    (t.buf b).mem.read (((s.buf b).pos + (s.buf b).len + j) % (s.buf b).cap) = d[j]?) ∧
  ∀ a, (∀ j, j < min d.length ((s.buf b).cap - (s.buf b).len) →
      a ≠ ((s.buf b).pos + (s.buf b).len + j) % (s.buf b).cap) →
    (t.buf b).mem.read a = (s.buf b).mem.read a

/-- The status of a command that appends `n` bytes to the buffer: DROPPED where they do not all fit
(30_encoding.md R81). -/
def Buffer.appendStatus (b : Buffer) (n : Nat) : Status := if b.len + n ≤ b.cap then .ok else .dropped

/-- The effect of taking the first `k` live bytes of instance `b`: POS moves past them, LEN shrinks, every cell
stays (00_scope.md R11). -/
abbrev State.tookFirst (b : BufSel) (k : Nat) (s t : State) : Prop :=
  (t.buf b).mem = (s.buf b).mem ∧ (t.buf b).pos = ((s.buf b).pos + k) % (s.buf b).cap ∧
    (t.buf b).len = (s.buf b).len - k

/-- The status of a command that pops `n` bytes from the buffer: EMPTY where fewer are buffered (30_encoding.md
R81). -/
def Buffer.popStatus (b : Buffer) (n : Nat) : Status := if n ≤ b.len then .ok else .empty

/-- The sum of the bytes modulo 256, as a number (00_scope.md R10). -/
def sumMod256 (bs : List Byte) : Nat := (bs.map BitVec.toNat).sum % 256

/-! ## Classes of commands -/

/-- The instance a command acts on: the one a buffer command names, RXB for PARSE and INGEST, TXB for BUILD_REQUEST,
DRAIN and ISSUE (30_encoding.md R71, 20_memory.md R40). -/
def instanceOf : Instr → BufSel
  | .bufInit b | .bufClear b | .bufWrite b _ | .bufWriteN b _ | .bufRead b | .bufReadN b _ | .bufForward b _
  | .bufBack b _ | .bufChecksum b | .bufWrcsum b | .bufWrcsumR b _ _ | .bufStat b
  | .bufWriteU16 b _ | .bufWriteI16 b _ | .bufWriteU32 b _ | .bufWriteI32 b _ | .bufWriteF32 b _
  | .bufReadU16 b | .bufReadI16 b | .bufReadU32 b | .bufReadI32 b | .bufReadF32 b => b
  | .parse | .ingest => .rxb
  | .buildRequest _ _ | .drain | .issue _ _ => .txb

/-- The commands that append bytes or initialise an instance; every other command leaves every cell as it is
(10_state.md R22). -/
def writesCells : Instr → Bool
  | .bufInit _ | .bufWrite _ _ | .bufWriteN _ _ | .bufWrcsum _ | .bufWrcsumR _ _ _
  | .bufWriteU16 _ _ | .bufWriteI16 _ _ | .bufWriteU32 _ _ | .bufWriteI32 _ _ | .bufWriteF32 _ _
  | .ingest | .buildRequest _ _ | .issue _ _ => true
  | .bufClear _ | .bufRead _ | .bufReadN _ _ | .bufForward _ _ | .bufBack _ _ | .bufChecksum _ | .bufStat _
  | .bufReadU16 _ | .bufReadI16 _ | .bufReadU32 _ | .bufReadI32 _ | .bufReadF32 _
  | .parse | .drain => false

/-! ## Encodings -/

/-- The OPC of a command, as the table of 30_encoding.md R77 lists it. -/
def opcodeOf : Instr → Byte
  | .bufInit _ => 0x01
  | .bufClear _ => 0x02
  | .bufWrite _ _ => 0x03
  | .bufWriteN _ _ => 0x04
  | .bufRead _ => 0x05
  | .bufReadN _ _ => 0x06
  | .bufForward _ _ => 0x07
  | .bufBack _ _ => 0x08
  | .bufChecksum _ => 0x09
  | .bufWrcsum _ => 0x0A
  | .bufWrcsumR _ _ _ => 0x0B
  | .bufStat _ => 0x0C
  | .bufWriteU16 _ _ => 0x10
  | .bufWriteI16 _ _ => 0x11
  | .bufWriteU32 _ _ => 0x12
  | .bufWriteI32 _ _ => 0x13
  | .bufWriteF32 _ _ => 0x14
  | .bufReadU16 _ => 0x18
  | .bufReadI16 _ => 0x19
  | .bufReadU32 _ => 0x1A
  | .bufReadI32 _ => 0x1B
  | .bufReadF32 _ => 0x1C
  | .parse => 0x40
  | .ingest => 0x41
  | .buildRequest _ _ => 0x42
  | .drain => 0x43
  | .issue _ _ => 0x44

/-- The unassigned OPC values, as 30_encoding.md R77 lists them. -/
abbrev unassignedOpc (o : Nat) : Prop :=
  o = 0x00 ∨ (0x0D ≤ o ∧ o ≤ 0x0F) ∨ (0x15 ≤ o ∧ o ≤ 0x17) ∨ (0x1D ≤ o ∧ o ≤ 0x3F) ∨ 0x45 ≤ o

/-- The OPC values whose whole IMM16 must be 0 (30_encoding.md R72). -/
abbrev immMustBeZero (o : Nat) : Prop :=
  o = 0x01 ∨ o = 0x02 ∨ o = 0x05 ∨ o = 0x09 ∨ o = 0x0A ∨ o = 0x0B ∨ o = 0x0C ∨ o = 0x12 ∨ o = 0x13 ∨ o = 0x14 ∨
    (0x18 ≤ o ∧ o ≤ 0x1C) ∨ o = 0x40 ∨ o = 0x41 ∨ o = 0x43

/-- Byte `j` of the data words `ext` (30_encoding.md R73). -/
abbrev dataByte (ext : List Word) (j : Nat) : Byte := (ext.getD (j / 4) 0).extractLsb' (8 * (j % 4)) 8

/-- A field of an assigned command that 30_encoding.md R85 refuses: RSV nonzero, B = 1 on an engine command, an
IMM16 bit that must be 0 nonzero, or a padding byte nonzero. -/
abbrev refusedFields (w : Word) (ext : List Word) : Prop :=
  w.extractLsb' 16 7 ≠ 0 ∨
  (0x40 ≤ (w.extractLsb' 24 8).toNat ∧ w.getLsbD 23 = true) ∨
  (immMustBeZero (w.extractLsb' 24 8).toNat ∧ w.extractLsb' 0 16 ≠ 0) ∨
  ((w.extractLsb' 24 8).toNat = 0x03 ∧ w.extractLsb' 8 8 ≠ 0) ∨
  ((w.extractLsb' 24 8).toNat = 0x04 ∧
    ∃ j, (w.extractLsb' 0 16).toNat ≤ j ∧ j < 4 * ext.length ∧ dataByte ext j ≠ 0) ∨
  (((w.extractLsb' 24 8).toNat = 0x42 ∨ (w.extractLsb' 24 8).toNat = 0x44) ∧
    ∃ j, (w.extractLsb' 8 8).toNat ≤ j ∧ j < 4 * ext.length ∧ dataByte ext j ≠ 0)

/-! ## PARSE over a byte list -/

/-- What parsing a byte list yields. -/
structure ListParse where
  records : List DispatchRecord
  nresync : Nat
  nbad : Nat
  rest : List Byte
  stop : Stop
  deriving DecidableEq, Repr

/-- The loop of 42_parser.md R158 read over the list of buffered bytes, head first, with no ring buffer and no
positions: what PARSE is to compute. `fuel` bounds the passes. -/
def listParse (magic : Half) : Nat → List Byte → ListParse
  | 0, bs => { records := [], nresync := 0, nbad := 0, rest := bs, stop := .short }
  | fuel + 1, bs =>
    if bs.length < 5 then { records := [], nresync := 0, nbad := 0, rest := bs, stop := .short }
    else if bs.getD 1 0 ++ bs.getD 0 0 ≠ magic then
      let r := listParse magic fuel (bs.drop 1)
      { r with nresync := r.nresync + 1 }
    else
      let fs := 5 + (bs.getD 3 0).toNat
      if bs.length < fs then { records := [], nresync := 0, nbad := 0, rest := bs, stop := .wait }
      else
        let r := listParse magic fuel (bs.drop fs)
        if sumMod256 (bs.take (fs - 1)) = (bs.getD (fs - 1) 0).toNat then
          { r with
            records :=
              { opcode := bs.getD 2 0, n := bs.getD 3 0, payload := (bs.drop 4).take (bs.getD 3 0).toNat } ::
                r.records }
        else { r with nbad := r.nbad + 1 }

/-- All passes a byte list can need (42_parser.md R158). -/
def parseBytes (magic : Half) (bs : List Byte) : ListParse := listParse magic (bs.length + 1) bs

/-- The offsets from the head that the loop of 42_parser.md R158 peeks over the list of buffered bytes: at each pass the
two header bytes, on a match the opcode and length bytes too, and every byte of a complete candidate frame (R151, R153,
R155, R159). `fuel` bounds the passes. -/
def listPeeks (magic : Half) : Nat → List Byte → List Nat
  | 0, _ => []
  | fuel + 1, bs =>
    if bs.length < 5 then []
    else if bs.getD 1 0 ++ bs.getD 0 0 ≠ magic then [0, 1] ++ (listPeeks magic fuel (bs.drop 1)).map (1 + ·)
    else
      let fs := 5 + (bs.getD 3 0).toNat
      if bs.length < fs then [0, 1, 2, 3]
      else List.range fs ++ (listPeeks magic fuel (bs.drop fs)).map (fs + ·)

/-- The offsets a whole PARSE of a byte list peeks (42_parser.md R158). -/
def parsePeeks (magic : Half) (bs : List Byte) : List Nat := listPeeks magic (bs.length + 1) bs

/-- The oversize stall of 70_reset_and_hazards.md R232: RESP_MAGIC stands at the head of RXB with a declared length
whose frame exceeds the capacity, and at least 5 bytes are buffered. -/
abbrev State.Stalled (s : State) : Prop :=
  5 ≤ s.rxb.len ∧ s.rxb.cellAt 0 = some (s.respMagic.extractLsb' 0 8) ∧
    s.rxb.cellAt 1 = some (s.respMagic.extractLsb' 8 8) ∧
    ∃ op n, s.rxb.cellAt 2 = some op ∧ s.rxb.cellAt 3 = some n ∧ s.rxb.cap < 5 + n.toNat

end Sys2Proof.Machine
end

