-- ==== Sys2Proof/Certificates/Slice0/Obligations.lean ====
section
/-! DEFINITION. The statements for the provers, from the numbered rules of spec/. -/

open Sys2Proof Sys2Proof.Machine

/-! ## Encoding and the CMD port -/

/-- Decoding the words of a well-formed command, whatever follows them, gives that command and its length back, for every
command and every operand value (30_encoding.md R70 to R77). -/
def Obligations.DecodeReadsBackEveryEncoding : Prop :=
  ∀ (i : Instr) (rest : List Word), i.wf = true →
    fetchCommand (encode i ++ rest) = .command i (encode i).length

/-- Whatever words the decoder accepts are exactly the encoder's words of the command it reads: no two encodings of one
command, and no bit of an accepted word is ignored (30_encoding.md R70 to R77, R85). -/
def Obligations.AcceptedWordsAreTheEncodersOwn : Prop :=
  ∀ (w : Word) (ext : List Word) (i : Instr), ext.length = extCount w → decodeCommand w ext = .ok i →
    i.wf = true ∧ encode i = w :: ext

/-- Words written out from the encodings of 30_encoding.md R78 (with R73 to R75 for the extension words) decode to the
commands they stand for. -/
def Obligations.SampleWordsDecode : Prop :=
  fetchCommand [0x03800012] = .command (.bufWrite .txb 0x12) 1 ∧
  fetchCommand [0x04000003, 0x00050403] = .command (.bufWriteN .rxb [3, 4, 5]) 2 ∧
  fetchCommand [0x0B000000, 0x00050002] = .command (.bufWrcsumR .rxb 2 5) 2 ∧
  fetchCommand [0x1100FFF1] = .command (.bufWriteI16 .rxb 0xFFF1) 1 ∧
  fetchCommand [0x12800000, 0x11223344] = .command (.bufWriteU32 .txb 0x11223344) 2 ∧
  fetchCommand [0x19000000] = .command (.bufReadI16 .rxb) 1 ∧
  fetchCommand [0x40000000] = .command .parse 1 ∧
  fetchCommand [0x42000503, 0x04030201, 0x00000005] = .command (.buildRequest 0x03 [1, 2, 3, 4, 5]) 3 ∧
  fetchCommand [0x44000101, 0x00000005] = .command (.issue 1 [5]) 2

/-- The opcode map of 30_encoding.md R77: every command is encoded under its OPC, every command word's bits [31:24] are
read as it, and every other OPC value is unassigned. -/
def Obligations.OpcodeMap : Prop :=
  (∀ (i : Instr) (w : Word) (ext : List Word), encode i = w :: ext → w.extractLsb' 24 8 = opcodeOf i) ∧
  (∀ (w : Word) (ext : List Word) (i : Instr), decodeCommand w ext = .ok i → w.extractLsb' 24 8 = opcodeOf i) ∧
  ∀ (w : Word) (ext : List Word), decodeCommand w ext = .error .unassignedOpcode ↔
    unassignedOpc (w.extractLsb' 24 8).toNat

/-- An unassigned OPC is refused: the response is REFUSED with every other field 0, no state changes, no port event
occurs, and only the command word is taken, so the next word on CMD is decoded as a command word (30_encoding.md R84).
The program index advances by 1 (10_state.md R24). -/
def Obligations.UnassignedOpcodeIsRefused : Prop :=
  ∀ (s : State) (w : Word) (rest : List Word), s.cmd = w :: rest → unassignedOpc (w.extractLsb' 24 8).toNat →
    step s = .next { s with
      cmd := rest, index := s.index + 1, responses := s.responses ++ [{ status := .refused }] }

/-- A command with an assigned OPC whose RSV, B, IMM16 or padding is not as it must be is refused with the same outcome
as an unassigned OPC, and its extension words are still taken (30_encoding.md R85, R76); and nothing else is refused. -/
def Obligations.ReservedFieldsAreRefused : Prop :=
  ∀ (w : Word) (ext : List Word), ext.length = extCount w → ¬ unassignedOpc (w.extractLsb' 24 8).toNat →
    (refusedFields w ext → ∀ (s : State) (rest : List Word), s.cmd = w :: (ext ++ rest) →
      step s = .next { s with
        cmd := rest, index := s.index + 1, responses := s.responses ++ [{ status := .refused }] }) ∧
    (¬ refusedFields w ext → ∃ i, decodeCommand w ext = .ok i)

/-- A step at a state whose next words on CMD decode to a command runs that command, on the state with the words taken
and the program index advanced by 1 (10_state.md R24, 30_encoding.md R76; the queue of words on CMD and the index in State
are the model's, log entries 5 and 8). -/
def Obligations.StepRunsTheDecodedCommand : Prop :=
  ∀ (s : State) (i : Instr) (n : Nat), fetchCommand s.cmd = .command i n →
    step s = exec i { s with cmd := s.cmd.drop n, index := s.index + 1 }

/-- With no whole command waiting on CMD a step changes nothing (60_exceptions.md R214; that the block then waits is
the model's choice, log entry 5). -/
def Obligations.IdleWithoutAWholeCommand : Prop :=
  ∀ (s : State), (s.cmd = [] ∨ ∃ w rest, s.cmd = w :: rest ∧ rest.length < extCount w) → step s = .next s

/-- A program issued on CMD as words and stepped once per command does what running its commands in order does: program
and index of 10_state.md R24, command order of 20_memory.md R50. That words stand in a queue on CMD is the model's choice,
log entry 5. -/
def Obligations.IssuedProgramRunsInOrder : Prop :=
  ∀ (prog : List Instr) (s : State), (∀ i ∈ prog, i.wf = true) → s.cmd = [] →
    (Host.Core.run Sys2Proof.core prog.length (s.issueWords (prog.flatMap encode)) :
      Host.Outcome State Fault Refusal) = runCommands prog s

/-- Every step that takes a command advances the program index by exactly 1 and delivers exactly one response, whose SNK
and DSP lists are what is appended to the ports' logs (10_state.md R24, 30_encoding.md R80, 00_scope.md R2; the logs are the
model's, log entry 7). -/
def Obligations.OneResponsePerCommand : Prop :=
  ∀ (s t : State), step s = .next t →
    (fetchCommand s.cmd = .idle ∧ t = s) ∨
    (t.index = s.index + 1 ∧ ∃ r, t.responses = s.responses ++ [r] ∧ t.snk = s.snk ++ r.snk ∧
      t.dsp = s.dsp ++ r.dsp ∧ ∃ n, 1 ≤ n ∧ t.cmd = s.cmd.drop n)

/-- Every command completes and delivers one response (60_exceptions.md R200, 70_reset_and_hazards.md R242), but an
INGEST whose source never reports an available count of 0: that one never completes, "in a model that is a hang"
(70_reset_and_hazards.md R237). That the hang is written as a fault is the model's choice, log entry 6. -/
def Obligations.EveryCommandCompletes : Prop :=
  ∀ (i : Instr) (s : State),
    (¬ (i = .ingest ∧ s.nextBurst = .endless) →
      ∃ t r, exec i s = .next t ∧ t.responses = s.responses ++ [r]) ∧
    (i = .ingest ∧ s.nextBurst = .endless → exec i s = .fault .ingestHang)

/-! ## Reset and the invariants -/

/-- The state after reset: both heads at 0, both buffers empty, every cell `⊥`, and the configuration at the build's
default parameters (10_state.md R31). That the defaults stand in State is the model's choice, log entry 4; that RESP_MAGIC is
a free value there is log entry 3. -/
def Obligations.ResetValues : Prop :=
  State.reset.rxb.pos = 0 ∧ State.reset.txb.pos = 0 ∧ State.reset.rxb.len = 0 ∧ State.reset.txb.len = 0 ∧
  (∀ a, State.reset.rxb.mem.read a = none) ∧ (∀ a, State.reset.txb.mem.read a = none) ∧
  State.reset.rxb.cap = 256 ∧ State.reset.txb.cap = 256 ∧ State.reset.params.guardInclusive = false ∧
  State.reset.respMagic ≠ Config.reqMagic

/-- The block's reset does to each instance what BUF_INIT does; no command is in progress after it, so of the words on CMD
only whole commands still wait and the next word issued is a command word; and every other field of State stays: the
configuration, the program index, the source, the logs, the responses, the record of UNWRITTEN_READ and the draw counter
(70_reset_and_hazards.md R220). That reset is an operation and no step, that whole commands still wait, and what stays
beside the buffers, is the model's choice, log entry 9. -/
def Obligations.BlockResetIsBufInitOnBoth : Prop :=
  ∀ (s : State),
    (∀ b : BufSel, (∃ t, exec (.bufInit b) s = .next t ∧ s.blockReset.buf b = t.buf b) ∧
      (s.blockReset.buf b).pos = 0 ∧ (s.blockReset.buf b).len = 0 ∧ (s.blockReset.buf b).cap = (s.buf b).cap ∧
      ∀ a, (s.blockReset.buf b).mem.read a = none) ∧
    (fetchCommand s.cmd = .idle → s.blockReset.cmd = []) ∧
    (∀ (w : Word) (ext rest : List Word), s.cmd = w :: (ext ++ rest) → ext.length = extCount w →
      s.blockReset.cmd = w :: (ext ++ ({ s with cmd := rest } : State).blockReset.cmd)) ∧
    s.blockReset = { s with rxb := s.rxb.init, txb := s.txb.init, cmd := s.blockReset.cmd }

/-- The bounds hold at reset, and no live cell is `⊥` (10_state.md R21, R31); the canonical storage form among them is the
model's, log entry 16. -/
def Obligations.InvariantsHoldAtReset : Prop := State.reset.Inv ∧ State.reset.LiveWritten

/-- The bounds hold after every command: `0 ≤ POS < CAP` and `0 ≤ LEN ≤ CAP` for both instances, with the storage in
canonical form, the capacities legal and RESP_MAGIC different from REQ_MAGIC (10_state.md R21, 00_scope.md R7). The canonical
form is the model's own, log entry 16. -/
def Obligations.EveryStepKeepsTheBounds : Prop :=
  ∀ (s t : State), s.Inv → step s = .next t → t.Inv

/-- Only BUF_BACK brings a `⊥` cell into the buffered region: any other step keeps every live cell written, and then
records no UNWRITTEN_READ (00_scope.md R12, 60_exceptions.md R203; the record is the model's sticky bit, log entry 1). -/
def Obligations.OnlyBackExposesUnwrittenCells : Prop :=
  ∀ (s t : State), s.Inv → s.LiveWritten → (∀ n b k, fetchCommand s.cmd ≠ .command (.bufBack b k) n) →
    step s = .next t → t.LiveWritten ∧ s.sameRecord t

/-- UNWRITTEN_READ, once recorded, is never cleared (60_exceptions.md R203; log entry 1). -/
def Obligations.UnwrittenReadIsSticky : Prop :=
  ∀ (s t : State), step s = .next t → s.unwrittenRead = true → t.unwrittenRead = true

/-- No step writes the configuration (10_state.md R26). -/
def Obligations.ConfigurationIsNeverWritten : Prop :=
  ∀ (s t : State), step s = .next t → s.sameConfig t

/-- BUF_CLEAR, the reads, BUF_FORWARD, BUF_BACK, the checks, PARSE and DRAIN never change a cell; and a written cell goes
back to `⊥` only by BUF_INIT (10_state.md R22). -/
def Obligations.CellsChangeOnlyByAppendOrInit : Prop :=
  ∀ (i : Instr) (s t : State), exec i s = .next t →
    (writesCells i = false → ∀ b, (t.buf b).mem = (s.buf b).mem) ∧
    ∀ b a, (s.buf b).mem.read a ≠ none → (t.buf b).mem.read a = none → i = .bufInit b

/-- PARSE and INGEST reach RXB only, BUILD_REQUEST, DRAIN and ISSUE TXB only (20_memory.md R40, 43_codec.md R185):
what each leaves alone. That INGEST takes the first entry of State's list of bursts (42_parser.md R165) is the model's choice,
log entry 6. -/
def Obligations.EngineCommandsTouchTheirInstance : Prop :=
  (∀ (s t : State), exec .parse s = .next t →
    s.sameConfig t ∧ t.txb = s.txb ∧ t.rxb.mem = s.rxb.mem ∧ t.cmd = s.cmd ∧ t.index = s.index ∧ t.src = s.src ∧
      t.snk = s.snk) ∧
  (∀ (s t : State), exec .ingest s = .next t →
    s.sameConfig t ∧ t.txb = s.txb ∧ t.cmd = s.cmd ∧ t.index = s.index ∧ t.src = s.src.tail ∧ t.snk = s.snk) ∧
  ∀ (i : Instr) (s t : State) (op : Byte) (d : List Byte),
    i = .buildRequest op d ∨ i = .drain ∨ i = .issue op d → exec i s = .next t →
    s.sameConfig t ∧ t.rxb = s.rxb ∧ t.cmd = s.cmd ∧ t.index = s.index ∧ t.src = s.src ∧ t.dsp = s.dsp

/-- What PARSE and INGEST do to RXB and answer does not depend on TXB, on the CMD words or on any log: building and
draining requests affects no later PARSE (43_codec.md R185). The premise on the draw counter is the model's, log entry 2. -/
def Obligations.ParserIgnoresEverythingButRxb : Prop :=
  ∀ (i : Instr) (s s' t : State), i = .parse ∨ i = .ingest → s'.rxb = s.rxb → s'.params = s.params →
    s'.freeCount = s.freeCount → s'.nextBurst = s.nextBurst → exec i s = .next t →
    ∃ t' r, exec i s' = .next t' ∧ t'.rxb = t.rxb ∧ t.responses = s.responses ++ [r] ∧
      t'.responses = s'.responses ++ [r]

/-! ## circular_byte_buffer: lifecycle and status -/

/-- BUF_INIT (40_buffer.md R101): every cell `⊥`, POS and LEN 0, status OK. BUF_CLEAR (40_buffer.md R102): POS and LEN
0, every cell keeps its byte, status OK. A second one changes the instance no more. -/
def Obligations.BufInitAndClearResults : Prop :=
  ∀ (b : BufSel) (s : State),
    (∃ t, exec (.bufInit b) s = .next t ∧ s.sameOutside b t ∧ s.sameRecord t ∧
      s.responded { status := .ok } t ∧ (t.buf b).pos = 0 ∧ (t.buf b).len = 0 ∧
      (∀ a, (t.buf b).mem.read a = none) ∧ ∃ t', exec (.bufInit b) t = .next t' ∧ t'.buf b = t.buf b) ∧
    ∃ t, exec (.bufClear b) s = .next t ∧ s.sameOutside b t ∧ s.sameRecord t ∧
      s.responded { status := .ok } t ∧ (t.buf b).pos = 0 ∧ (t.buf b).len = 0 ∧
      (t.buf b).mem = (s.buf b).mem ∧ ∃ t', exec (.bufClear b) t = .next t' ∧ t'.buf b = t.buf b

/-- BUF_STAT (40_buffer.md R113, 10_state.md R27): DATA is LEN in [31:16] and POS in [15:0], DATA2 is CAP with bits
[31:16] 0, and the instance is unchanged. -/
def Obligations.BufStatResult : Prop :=
  ∀ (b : BufSel) (s : State), (s.buf b).wf → ∃ t, exec (.bufStat b) s = .next t ∧ s.sameOutside b t ∧
    s.sameRecord t ∧ t.buf b = s.buf b ∧
    s.responded
      { status := .ok, data := BitVec.ofNat 32 ((s.buf b).len * 65536 + (s.buf b).pos)
        data2 := BitVec.ofNat 32 (s.buf b).cap } t

/-! ## circular_byte_buffer: write and read -/

/-- BUF_WRITE (40_buffer.md R103): into a full buffer nothing changes and the status is DROPPED; else the byte is stored
at cell (POS + LEN) mod CAP alone and LEN grows by 1. -/
def Obligations.BufWriteResult : Prop :=
  ∀ (b : BufSel) (v : Byte) (s : State), ∃ t, exec (.bufWrite b v) s = .next t ∧ s.sameOutside b t ∧
    s.sameRecord t ∧
    if (s.buf b).len = (s.buf b).cap then t.buf b = s.buf b ∧ s.responded { status := .dropped } t
    else
      s.responded { status := .ok } t ∧ (t.buf b).pos = (s.buf b).pos ∧ (t.buf b).len = (s.buf b).len + 1 ∧
      (t.buf b).mem.read (((s.buf b).pos + (s.buf b).len) % (s.buf b).cap) = some v ∧
      ∀ a, a ≠ ((s.buf b).pos + (s.buf b).len) % (s.buf b).cap →
        (t.buf b).mem.read a = (s.buf b).mem.read a

/-- BUF_WRITE_N (40_buffer.md R104): the prefix that fits is appended, the rest dropped; DATA[15:0] is how many bytes
were appended. -/
def Obligations.BufWriteNResult : Prop :=
  ∀ (b : BufSel) (d : List Byte) (s : State), (s.buf b).wf →
    ∃ t, exec (.bufWriteN b d) s = .next t ∧ s.sameOutside b t ∧ s.sameRecord t ∧ s.appended b d t ∧
      s.responded
        { status := (s.buf b).appendStatus d.length
          data := BitVec.ofNat 32 (min d.length ((s.buf b).cap - (s.buf b).len)) } t

/-- BUF_READ (40_buffer.md R105): an empty buffer gives DATA 0 and status EMPTY and changes nothing; else DATA is the
head cell's byte, zero-extended, and the head moves on. A `⊥` head cell gives some byte, and UNWRITTEN_READ is
recorded exactly then (log entry 1). -/
def Obligations.BufReadResult : Prop :=
  ∀ (b : BufSel) (s : State), (s.buf b).wf → ∃ t, exec (.bufRead b) s = .next t ∧ s.sameOutside b t ∧
    if (s.buf b).len = 0 then t.buf b = s.buf b ∧ s.sameRecord t ∧ s.responded { status := .empty, data := 0 } t
    else
      s.tookFirst b 1 t ∧ s.records ((s.buf b).mem.read (s.buf b).pos = none) t ∧
      ∃ v : Byte, ((s.buf b).mem.read (s.buf b).pos = none ∨ (s.buf b).mem.read (s.buf b).pos = some v) ∧
        s.responded { status := .ok, data := v.setWidth 32 } t

/-- BUF_READ_N (40_buffer.md R106): the buffered bytes first, zeros for the rest, exactly N16 of them; DATA[15:0] is the
number of real bytes; `⊥` cells among them give some bytes and are recorded (log entry 1). -/
def Obligations.BufReadNResult : Prop :=
  ∀ (b : BufSel) (n : Half) (s : State), (s.buf b).wf →
    ∃ t bs, exec (.bufReadN b n) s = .next t ∧ s.sameOutside b t ∧ (s.buf b).mayHold bs ∧
      s.tookFirst b (min n.toNat (s.buf b).len) t ∧
      s.records ((s.buf b).someUnwritten 0 (min n.toNat (s.buf b).len)) t ∧
      s.responded
        { status := (s.buf b).popStatus n.toNat, data := BitVec.ofNat 32 (min n.toNat (s.buf b).len)
          bytes := bs.take n.toNat ++ List.replicate (n.toNat - (s.buf b).len) 0 } t

/-- The FIFO law (40_buffer.md R114): m single-byte writes within the remaining capacity and then LEN + m reads give
the old bytes and then the written ones, in order, all with status OK, at every starting POS. -/
def Obligations.FifoLaw : Prop :=
  ∀ (b : BufSel) (old vs : List Byte) (s : State), (s.buf b).wf → (s.buf b).holds old →
    old.length + vs.length ≤ (s.buf b).cap →
    ∃ t, runCommands (vs.map (.bufWrite b ·) ++ List.replicate (old.length + vs.length) (.bufRead b)) s = .next t ∧
      t.responses = s.responses ++ vs.map (fun _ => { status := .ok }) ++
        (old ++ vs).map (fun v => { status := .ok, data := v.setWidth 32 }) ∧
      (t.buf b).len = 0

/-! ## circular_byte_buffer: repositioning -/

/-- BUF_FORWARD (40_buffer.md R107, R115): a no-op when the step is greater than LEN, or under GUARD_INCLUSIVE when it
is at least LEN; else POS moves on and LEN shrinks by the step, and every cell stays. -/
def Obligations.BufForwardResult : Prop :=
  ∀ (b : BufSel) (k : Half) (s : State), ∃ t, exec (.bufForward b k) s = .next t ∧ s.sameOutside b t ∧
    s.sameRecord t ∧
    if (if s.params.guardInclusive then k.toNat ≥ (s.buf b).len else k.toNat > (s.buf b).len) then
      t.buf b = s.buf b ∧ s.responded { status := .noop } t
    else s.tookFirst b k.toNat t ∧ s.responded { status := .ok } t

/-- BUF_BACK (40_buffer.md R108, R115): a no-op when LEN + step exceeds CAP, or under GUARD_INCLUSIVE when it reaches
CAP; else POS goes back modulo CAP and LEN grows by the step, and every cell stays. -/
def Obligations.BufBackResult : Prop :=
  ∀ (b : BufSel) (k : Half) (s : State), ∃ t, exec (.bufBack b k) s = .next t ∧ s.sameOutside b t ∧
    s.sameRecord t ∧
    if (if s.params.guardInclusive then (s.buf b).len + k.toNat ≥ (s.buf b).cap
        else (s.buf b).len + k.toNat > (s.buf b).cap) then
      t.buf b = s.buf b ∧ s.responded { status := .noop } t
    else
      ((t.buf b).pos : Int) = ((s.buf b).pos - (k.toNat : Int)) % ((s.buf b).cap : Int) ∧
      (t.buf b).len = (s.buf b).len + k.toNat ∧ (t.buf b).mem = (s.buf b).mem ∧ s.responded { status := .ok } t

/-- What BUF_BACK exposes (40_buffer.md R109, first part): under the strict guard the exposed cells
`(POS - S16 + i) mod CAP` lie outside the old live region, they come first, and the old live bytes follow. -/
def Obligations.BackExposesConsumedCellsOnly : Prop :=
  ∀ (b : BufSel) (k : Half) (s : State), (s.buf b).wf → s.params.guardInclusive = false →
    (s.buf b).len + k.toNat ≤ (s.buf b).cap →
    ∃ t, exec (.bufBack b k) s = .next t ∧
      (∀ i, i < k.toNat → ∀ j, j < (s.buf b).len → (t.buf b).index i ≠ (s.buf b).index j) ∧
      (∀ i, i < k.toNat → (t.buf b).cellAt i =
        (s.buf b).mem.read (((s.buf b).pos + (s.buf b).cap - k.toNat + i) % (s.buf b).cap)) ∧
      ∀ j, j < (s.buf b).len → (t.buf b).cellAt (k.toNat + j) = (s.buf b).cellAt j

/-- The rollback property (40_buffer.md R109): after reading k of the buffered bytes, with writes in between that fit
without reaching the consumed region, `back(k)` restores exactly those k bytes as the next to be read; writes that
would have reached it make the guard refuse. -/
def Obligations.RollbackRestoresReadBytes : Prop :=
  ∀ (b : BufSel) (k : Half) (bs d : List Byte) (s : State), (s.buf b).wf → s.params.guardInclusive = false →
    (s.buf b).holds bs → k.toNat ≤ bs.length →
    ∃ m t, runCommands [.bufReadN b k, .bufWriteN b d] s = .next m ∧ runCommands [.bufBack b k] m = .next t ∧
      if bs.length + d.length ≤ (s.buf b).cap then
        (t.buf b).pos = (s.buf b).pos ∧ (t.buf b).holds (bs ++ d) ∧ m.responded { status := .ok } t
      else 1 ≤ k.toNat → t.buf b = m.buf b ∧ m.responded { status := .noop } t

/-- The peek idiom (30_encoding.md R88): under the strict guard BUF_PEEK and BUF_PEEK16 leave the buffer unchanged
whenever the read found enough bytes, and the value is in the first response. -/
def Obligations.PeekLeavesTheBufferUnchanged : Prop :=
  ∀ (b : BufSel) (bs : List Byte) (s : State), (s.buf b).wf → s.params.guardInclusive = false →
    (s.buf b).holds bs →
    (1 ≤ bs.length → ∃ t, runCommands (bufPeek b) s = .next t ∧ t.buf b = s.buf b ∧
      t.responses = s.responses ++
        [{ status := .ok, data := (bs.getD 0 0).setWidth 32 }, { status := .ok }]) ∧
    (2 ≤ bs.length → ∃ t, runCommands (bufPeek16 b) s = .next t ∧ t.buf b = s.buf b ∧
      t.responses = s.responses ++
        [{ status := .ok, data := (bs.getD 1 0 ++ bs.getD 0 0).setWidth 32 }, { status := .ok }])

/-! ## circular_byte_buffer: checksums -/

/-- BUF_CHECKSUM (40_buffer.md R110): CSUM_OK is 1 exactly when the buffer is not empty and the sum modulo 256 of all
buffered bytes but the last equals the last; nothing changes; a `⊥` cell counts as some byte and is recorded (log entry 1). -/
def Obligations.BufChecksumResult : Prop :=
  ∀ (b : BufSel) (s : State), ∃ t bs, exec (.bufChecksum b) s = .next t ∧ s.sameOutside b t ∧
    t.buf b = s.buf b ∧ (s.buf b).mayHold bs ∧ s.records ((s.buf b).someUnwritten 0 (s.buf b).len) t ∧
    s.responded
      { status := .ok, csumOk := decide (bs ≠ [] ∧ sumMod256 bs.dropLast = (bs.getLastD 0).toNat) } t

/-- BUF_WRCSUM (40_buffer.md R111): DATA is the sum modulo 256 of all buffered bytes, appended as the final byte, or
dropped when the buffer is full; `⊥` cells count as some bytes and are recorded (log entry 1). -/
def Obligations.BufWrcsumResult : Prop :=
  ∀ (b : BufSel) (s : State), (s.buf b).wf → ∃ t bs, exec (.bufWrcsum b) s = .next t ∧ s.sameOutside b t ∧
    (s.buf b).mayHold bs ∧ s.appended b [BitVec.ofNat 8 (sumMod256 bs)] t ∧
    s.records ((s.buf b).someUnwritten 0 (s.buf b).len) t ∧
    s.responded
      { status := (s.buf b).appendStatus 1, data := BitVec.ofNat 32 (sumMod256 bs) } t

/-- BUF_WRCSUM_R (40_buffer.md R112): a range outside the buffered bytes gives BAD_RANGE and changes nothing; else the
sum modulo 256 over the half-open range of offsets from the head is DATA and is appended; `⊥` cells of the range count as some
bytes and are recorded (log entry 1). -/
def Obligations.BufWrcsumRResult : Prop :=
  ∀ (b : BufSel) (start stop : Half) (s : State), (s.buf b).wf →
    ∃ t bs, exec (.bufWrcsumR b start stop) s = .next t ∧ s.sameOutside b t ∧ (s.buf b).mayHold bs ∧
      if start.toNat ≤ stop.toNat ∧ stop.toNat ≤ (s.buf b).len then
        s.appended b [BitVec.ofNat 8 (sumMod256 ((bs.take stop.toNat).drop start.toNat))] t ∧
        s.records ((s.buf b).someUnwritten start.toNat (stop.toNat - start.toNat)) t ∧
        s.responded
          { status := (s.buf b).appendStatus 1
            data := BitVec.ofNat 32 (sumMod256 ((bs.take stop.toNat).drop start.toNat)) } t
      else t.buf b = s.buf b ∧ s.sameRecord t ∧ s.responded { status := .badRange } t

/-- After a BUF_WRCSUM that fits, BUF_CHECKSUM returns 1 (40_buffer.md R111), and changing any one buffered byte then
makes it return 0 (40_buffer.md R110, "flipping any single payload bit makes it return false"). -/
def Obligations.ChecksumDetectsAnyOneByteChange : Prop :=
  ∀ (b : BufSel) (bs : List Byte) (s : State), (s.buf b).wf → (s.buf b).holds bs →
    bs.length < (s.buf b).cap →
    ∃ m t r, exec (.bufWrcsum b) s = .next m ∧ exec (.bufChecksum b) m = .next t ∧ m.responded r t ∧
      r.csumOk = true ∧
      ∀ (m' : State) (good : List Byte) (k : Nat) (v : Byte), (m.buf b).holds good → k < good.length →
        good[k]? ≠ some v → (m'.buf b).holds (good.set k v) →
        ∃ t' r', exec (.bufChecksum b) m' = .next t' ∧ m'.responded r' t' ∧ r'.csumOk = false

/-! ## Typed helpers -/

/-- BUF_WRITE_U16 and BUF_WRITE_I16 (41_buffer_typed.md R130, R131): the two bytes are appended, bits [7:0] first, each
dropped on its own. -/
def Obligations.TypedWrite16Result : Prop :=
  ∀ (i : Instr) (b : BufSel) (v : Half) (s : State), i = .bufWriteU16 b v ∨ i = .bufWriteI16 b v →
    (s.buf b).wf →
    ∃ t, exec i s = .next t ∧ s.sameOutside b t ∧ s.sameRecord t ∧
      s.appended b [v.extractLsb' 0 8, v.extractLsb' 8 8] t ∧
      s.responded { status := (s.buf b).appendStatus 2 } t

/-- BUF_WRITE_U32, BUF_WRITE_I32 and BUF_WRITE_F32 (41_buffer_typed.md R132 to R134): the four bytes are appended, bits
[7:0] first, each dropped on its own, the pattern bit-exact. -/
def Obligations.TypedWrite32Result : Prop :=
  ∀ (i : Instr) (b : BufSel) (v : Word) (s : State),
    i = .bufWriteU32 b v ∨ i = .bufWriteI32 b v ∨ i = .bufWriteF32 b v → (s.buf b).wf →
    ∃ t, exec i s = .next t ∧ s.sameOutside b t ∧ s.sameRecord t ∧
      s.appended b [v.extractLsb' 0 8, v.extractLsb' 8 8, v.extractLsb' 16 8, v.extractLsb' 24 8] t ∧
      s.responded { status := (s.buf b).appendStatus 4 } t

/-- BUF_READ_U16 and BUF_READ_I16 (41_buffer_typed.md R135, R136): DATA is `{b1, b0}`, zero-extended or sign-extended,
with 0x00 for a byte an empty buffer gave; a `⊥` cell gives some byte and is recorded (log entry 1). -/
def Obligations.TypedRead16Result : Prop :=
  ∀ (b : BufSel) (s : State), (s.buf b).wf →
    (∃ t bs, exec (.bufReadU16 b) s = .next t ∧ s.sameOutside b t ∧ (s.buf b).mayHold bs ∧
      s.tookFirst b (min 2 (s.buf b).len) t ∧ s.records ((s.buf b).someUnwritten 0 (min 2 (s.buf b).len)) t ∧
      s.responded
        { status := (s.buf b).popStatus 2, data := (bs.getD 1 0 ++ bs.getD 0 0).setWidth 32 } t) ∧
    ∃ t bs, exec (.bufReadI16 b) s = .next t ∧ s.sameOutside b t ∧ (s.buf b).mayHold bs ∧
      s.tookFirst b (min 2 (s.buf b).len) t ∧ s.records ((s.buf b).someUnwritten 0 (min 2 (s.buf b).len)) t ∧
      s.responded
        { status := (s.buf b).popStatus 2, data := (bs.getD 1 0 ++ bs.getD 0 0).signExtend 32 } t

/-- BUF_READ_U32, BUF_READ_I32 and BUF_READ_F32 (41_buffer_typed.md R137 to R139): DATA is `{b3, b2, b1, b0}`, with 0x00
for each byte an empty buffer gave, the raw pattern; a `⊥` cell gives some byte and is recorded (log entry 1). -/
def Obligations.TypedRead32Result : Prop :=
  ∀ (i : Instr) (b : BufSel) (s : State), i = .bufReadU32 b ∨ i = .bufReadI32 b ∨ i = .bufReadF32 b →
    (s.buf b).wf →
    ∃ t bs, exec i s = .next t ∧ s.sameOutside b t ∧ (s.buf b).mayHold bs ∧
      s.tookFirst b (min 4 (s.buf b).len) t ∧ s.records ((s.buf b).someUnwritten 0 (min 4 (s.buf b).len)) t ∧
      s.responded
        { status := (s.buf b).popStatus 4
          data := bs.getD 3 0 ++ bs.getD 2 0 ++ bs.getD 1 0 ++ bs.getD 0 0 } t

/-- The round-trip law (41_buffer_typed.md R140): with the whole value fitting, a typed write and the matching typed
read return the value when the buffer was empty, and the oldest buffered bytes when it was not; both with status OK. -/
def Obligations.TypedRoundTrip : Prop :=
  ∀ (b : BufSel) (bs : List Byte) (s : State), (s.buf b).wf → (s.buf b).holds bs →
    (∀ v : Half, bs.length + 2 ≤ (s.buf b).cap →
      let all := bs ++ [v.extractLsb' 0 8, v.extractLsb' 8 8]
      let h : Half := all.getD 1 0 ++ all.getD 0 0
      (bs = [] → h = v) ∧
      (∃ t, runCommands [.bufWriteU16 b v, .bufReadU16 b] s = .next t ∧
        t.responses = s.responses ++ [{ status := .ok }, { status := .ok, data := h.setWidth 32 }]) ∧
      ∃ t, runCommands [.bufWriteI16 b v, .bufReadI16 b] s = .next t ∧
        t.responses = s.responses ++ [{ status := .ok }, { status := .ok, data := h.signExtend 32 }]) ∧
    ∀ v : Word, bs.length + 4 ≤ (s.buf b).cap →
      let all := bs ++ [v.extractLsb' 0 8, v.extractLsb' 8 8, v.extractLsb' 16 8, v.extractLsb' 24 8]
      let w : Word := all.getD 3 0 ++ all.getD 2 0 ++ all.getD 1 0 ++ all.getD 0 0
      (bs = [] → w = v) ∧
      ∀ wr rd, (wr, rd) = (Instr.bufWriteU32 b v, Instr.bufReadU32 b) ∨
          (wr, rd) = (Instr.bufWriteI32 b v, Instr.bufReadI32 b) ∨
          (wr, rd) = (Instr.bufWriteF32 b v, Instr.bufReadF32 b) →
        ∃ t, runCommands [wr, rd] s = .next t ∧
          t.responses = s.responses ++ [{ status := .ok }, { status := .ok, data := w }]

/-! ## PARSE and INGEST -/

/-- PARSE (42_parser.md R158, R161): over a ring buffer that holds the bytes `bs` it computes what the loop computes over
the list `bs`: the records in order, the counts, the stop reason and the bytes left; no cell is written. -/
def Obligations.ParseComputesTheLoopOverTheBytes : Prop :=
  ∀ (bs : List Byte) (s : State), s.rxb.wf → s.rxb.holds bs →
    ∃ t, exec .parse s = .next t ∧ s.sameRecord t ∧ t.rxb.holds (parseBytes s.respMagic bs).rest ∧
      t.rxb.pos = (s.rxb.pos + (bs.length - (parseBytes s.respMagic bs).rest.length)) % s.rxb.cap ∧
      t.rxb.mem = s.rxb.mem ∧ t.dsp = s.dsp ++ (parseBytes s.respMagic bs).records ∧
      s.responded
        { status := .ok, stop := (parseBytes s.respMagic bs).stop
          data := BitVec.ofNat 32
            ((parseBytes s.respMagic bs).nresync * 65536 + (parseBytes s.respMagic bs).records.length)
          data2 := BitVec.ofNat 32 (parseBytes s.respMagic bs).nbad
          dsp := (parseBytes s.respMagic bs).records } t

/-- INGEST (42_parser.md R165): the source's bytes are appended in order, those that do not fit are dropped and counted
(saturating at 65535), and then one PARSE runs, which moves POS past the bytes it removed. The bytes of one INGEST stand
first in State's list of bursts, log entry 6. -/
def Obligations.IngestAppendsThenParses : Prop :=
  ∀ (bs d : List Byte) (s : State), s.rxb.wf → s.rxb.holds bs → s.nextBurst = .bytes d →
    let p := parseBytes s.respMagic ((bs ++ d).take s.rxb.cap)
    let ndrop := d.length - (s.rxb.cap - bs.length)
    ∃ t, exec .ingest s = .next t ∧ s.sameRecord t ∧ t.src = s.src.tail ∧ t.rxb.holds p.rest ∧
      t.rxb.pos = (s.rxb.pos + (min (bs.length + d.length) s.rxb.cap - p.rest.length)) % s.rxb.cap ∧
      t.dsp = s.dsp ++ p.records ∧
      s.responded
        { status := if ndrop > 0 then .dropped else .ok, stop := p.stop
          data := BitVec.ofNat 32 (p.nresync * 65536 + p.records.length)
          data2 := BitVec.ofNat 32 (min ndrop 65535 * 65536 + p.nbad), dsp := p.records } t

/-- What INGEST stores (42_parser.md R165): the source bytes that fit land in the cells from the tail on, and every
other cell of RXB keeps its content (the source's bytes: log entry 6). -/
def Obligations.IngestStoresOnlyAtTheTail : Prop :=
  ∀ (d : List Byte) (s : State), s.rxb.wf → s.nextBurst = .bytes d →
    ∃ t, exec .ingest s = .next t ∧
      (∀ j, j < min d.length (s.rxb.cap - s.rxb.len) →
        t.rxb.mem.read ((s.rxb.pos + s.rxb.len + j) % s.rxb.cap) = d[j]?) ∧
      ∀ a, (∀ j, j < min d.length (s.rxb.cap - s.rxb.len) → a ≠ (s.rxb.pos + s.rxb.len + j) % s.rxb.cap) →
        t.rxb.mem.read a = s.rxb.mem.read a

/-- On exit either fewer than 5 bytes are buffered (SHORT), or RESP_MAGIC stands at the head of a frame that is not all
there (WAIT) (42_parser.md R158); and a PARSE issued again at once does nothing (20_memory.md R47). -/
def Obligations.ParseExitsAndIsIdempotent : Prop :=
  ∀ (s : State), s.rxb.wf → s.rxb.liveWritten →
    ∃ t r, exec .parse s = .next t ∧ s.responded r t ∧
      ((r.stop = .short ∧ t.rxb.len < 5) ∨
        (r.stop = .wait ∧ t.rxb.cellAt 0 = some (s.respMagic.extractLsb' 0 8) ∧
          t.rxb.cellAt 1 = some (s.respMagic.extractLsb' 8 8) ∧
          ∃ n, t.rxb.cellAt 3 = some n ∧ 5 ≤ t.rxb.len ∧ t.rxb.len < 5 + n.toNat)) ∧
      ∃ t', exec .parse t = .next t' ∧ t'.rxb = t.rxb ∧ t'.dsp = t.dsp ∧
        t.responded { status := .ok, stop := r.stop } t'

/-- The state table of 42_parser.md R151 and the loop of R158 are the same machine: run from CHECK_LEN, the FSM comes to
STOP with the buffer, counts, records and stop reason of the loop, whatever the buffer holds. -/
def Obligations.FsmTableIsTheParseLoop : Prop :=
  ∀ (u : Nat → Byte) (magic : Half) (b : Buffer) (k : Nat), 5 * (b.len + 1) ≤ k →
    (Fsm.run u magic k (Fsm.start b)).state = .stop ∧
      (Fsm.run u magic k (Fsm.start b)).vars = runParse u magic b

/-- No frame is ever partially dispatched (42_parser.md R162): every record stands for a complete, checksum-valid frame
with RESP_MAGIC that lay whole in the buffered bytes. -/
def Obligations.NoPartialDispatch : Prop :=
  ∀ (bs : List Byte) (s : State), s.rxb.wf → s.rxb.holds bs →
    ∃ t r, exec .parse s = .next t ∧ s.responded r t ∧
      ∀ x ∈ r.dsp, ∃ (k : Nat) (f : Frame), k + f.size ≤ bs.length ∧ (bs.drop k).take f.size = f.bytes ∧
        f.magic = s.respMagic ∧ f.fits = true ∧ frameValid f.bytes = true ∧ x = f.record

/-- One record for every valid frame and in the order the frames stood in RXB, every opcode alike, repeated frames
included (42_parser.md R160, 60_exceptions.md R215). -/
def Obligations.ConsecutiveFramesDispatchInOrder : Prop :=
  ∀ (fs : List Frame) (s : State), s.rxb.wf →
    (∀ f ∈ fs, f.magic = s.respMagic ∧ f.fits = true) → s.rxb.holds (fs.flatMap Frame.bytes) →
    ∃ t, exec .parse s = .next t ∧ t.rxb.len = 0 ∧ t.dsp = s.dsp ++ fs.map Frame.record ∧
      s.responded
        { status := .ok, data := BitVec.ofNat 32 fs.length, dsp := fs.map Frame.record } t

/-- A candidate frame that fails its checksum is discarded whole, header through checksum byte, even where it fills the
buffer, and parsing goes on after it (42_parser.md R157, 90_conflicts.md C1). -/
def Obligations.BadFrameIsDiscardedWhole : Prop :=
  ∀ (f : Frame) (c : Byte) (rest : List Byte) (s : State), s.rxb.wf → f.magic = s.respMagic → f.fits = true →
    c ≠ sum8 f.body → s.rxb.holds (f.body ++ [c] ++ rest) →
    ∃ t, exec .parse s = .next t ∧ t.dsp = s.dsp ++ (parseBytes s.respMagic rest).records ∧
      t.rxb.holds (parseBytes s.respMagic rest).rest ∧
      s.responded
        { status := .ok, stop := (parseBytes s.respMagic rest).stop
          data := BitVec.ofNat 32
            ((parseBytes s.respMagic rest).nresync * 65536 + (parseBytes s.respMagic rest).records.length)
          data2 := BitVec.ofNat 32 ((parseBytes s.respMagic rest).nbad + 1)
          dsp := (parseBytes s.respMagic rest).records } t

/-- The incremental delivery law (42_parser.md R163), for a frame that fits RXB: delivered one byte per INGEST from an
empty RXB, the INGESTs before the last emit no record, the first 4 stop SHORT and the others WAIT, and the last emits
exactly one record and leaves RXB empty (the source's bytes: log entry 6). -/
def Obligations.IncrementalDelivery : Prop :=
  ∀ (f : Frame) (more : List Burst) (s : State), s.rxb.wf → s.rxb.len = 0 → f.magic = s.respMagic →
    f.fits = true → f.size ≤ s.rxb.cap → s.src = f.bytes.map (fun v => .bytes [v]) ++ more →
    ∃ m t, runCommands (List.replicate (f.size - 1) .ingest) s = .next m ∧ m.dsp = s.dsp ∧
      m.responses = s.responses ++
        (List.range (f.size - 1)).map (fun j => { status := .ok, stop := if j < 4 then .short else .wait }) ∧
      runCommands [.ingest] m = .next t ∧ t.dsp = s.dsp ++ [f.record] ∧ t.rxb.len = 0 ∧
      m.responded { status := .ok, data := 1, dsp := [f.record] } t

/-- The resynchronization law (42_parser.md R164), the whole input in RXB: garbage in which no two adjacent bytes spell
RESP_MAGIC, followed by one valid frame, gives one resynchronization per garbage byte and the frame's record. -/
def Obligations.Resynchronization : Prop :=
  ∀ (g : List Byte) (f : Frame) (s : State), s.rxb.wf → f.magic = s.respMagic → f.fits = true →
    (∀ k, k < g.length → (g ++ f.bytes).getD (k + 1) 0 ++ (g ++ f.bytes).getD k 0 ≠ s.respMagic) →
    s.rxb.holds (g ++ f.bytes) →
    ∃ t, exec .parse s = .next t ∧ t.rxb.len = 0 ∧ t.dsp = s.dsp ++ [f.record] ∧
      s.responded
        { status := .ok, data := BitVec.ofNat 32 (g.length * 65536 + 1), dsp := [f.record] } t

/-- The oversize stall (70_reset_and_hazards.md R232): once the head of RXB declares a frame larger than CAP_RX, no
number of INGESTs, whatever the source yields, emits another record or moves the head, and every one stops WAIT. -/
def Obligations.OversizeStall : Prop :=
  ∀ (k : Nat) (s : State), s.rxb.wf → s.Stalled → (∀ x ∈ s.src, x ≠ .endless) →
    ∃ t rs, runCommands (List.replicate k .ingest) s = .next t ∧ t.Stalled ∧ t.rxb.pos = s.rxb.pos ∧
      t.dsp = s.dsp ∧ t.responses = s.responses ++ rs ∧ ∀ r ∈ rs, r.stop = .wait ∧ r.dsp = []

/-- Burst overflow (70_reset_and_hazards.md R234): with CAP_RX at least 5, after a PARSE there is room for one more
byte, unless RXB is stalled by an oversize frame. -/
def Obligations.RoomAfterParseUnlessStalled : Prop :=
  ∀ (s : State), s.rxb.wf → 5 ≤ s.rxb.cap → s.rxb.liveWritten →
    ∃ t, exec .parse s = .next t ∧ (t.rxb.len < t.rxb.cap ∨ t.Stalled)

/-- PARSE and INGEST over live `⊥` cells (42_parser.md R161, 60_exceptions.md R203). A PARSE that compares a `⊥` header cell
records UNWRITTEN_READ and completes. In general each of the two completes as the loop over some bytes `bs` that agree with
every written live cell, and records UNWRITTEN_READ exactly where a pass of that loop peeks a `⊥` cell: a header, opcode,
length, payload or checksum cell, in the first pass or a later one. That the run goes on with some byte is log entry 1; that
the opcode cell of a waiting frame counts is log entry 10; the source's bytes are log entry 6. -/
def Obligations.ParseRecordsAnUnwrittenHeader : Prop :=
  (∀ (s : State), 5 ≤ s.rxb.len → (s.rxb.cellAt 0 = none ∨ s.rxb.cellAt 1 = none) →
    ∃ t, exec .parse s = .next t ∧ t.unwrittenRead = true) ∧
  (∀ (s : State), s.rxb.wf → ∃ t bs, exec .parse s = .next t ∧ s.rxb.mayHold bs ∧
    t.rxb.len = (parseBytes s.respMagic bs).rest.length ∧
    t.rxb.pos = (s.rxb.pos + (bs.length - (parseBytes s.respMagic bs).rest.length)) % s.rxb.cap ∧
    s.records (∃ k ∈ parsePeeks s.respMagic bs, s.rxb.cellAt k = none) t ∧
    s.responded
      { status := .ok, stop := (parseBytes s.respMagic bs).stop
        data := BitVec.ofNat 32
          ((parseBytes s.respMagic bs).nresync * 65536 + (parseBytes s.respMagic bs).records.length)
        data2 := BitVec.ofNat 32 (parseBytes s.respMagic bs).nbad
        dsp := (parseBytes s.respMagic bs).records } t) ∧
  ∀ (s : State) (d : List Byte), s.rxb.wf → s.nextBurst = .bytes d →
    ∃ t bs, exec .ingest s = .next t ∧ s.rxb.mayHold bs ∧
      let all := (bs ++ d).take s.rxb.cap
      let p := parseBytes s.respMagic all
      let ndrop := d.length - (s.rxb.cap - bs.length)
      t.rxb.len = p.rest.length ∧ t.rxb.pos = (s.rxb.pos + (all.length - p.rest.length)) % s.rxb.cap ∧
      s.records (∃ k ∈ parsePeeks s.respMagic all, k < bs.length ∧ s.rxb.cellAt k = none) t ∧
      s.responded
        { status := if ndrop > 0 then .dropped else .ok, stop := p.stop
          data := BitVec.ofNat 32 (p.nresync * 65536 + p.records.length)
          data2 := BitVec.ofNat 32 (min ndrop 65535 * 65536 + p.nbad), dsp := p.records } t

/-! ## Request builder, drain and issue -/

/-- BUILD_REQUEST (43_codec.md R180): TXB is cleared and then holds, from cell 0 on, REQ_MAGIC low byte first, the
opcode, the length, the payload and their sum modulo 256, cut at CAP_TX bytes where they do not fit; the checksum
covers the bytes stored; cells beyond stay; whatever was staged before is gone (R181). -/
def Obligations.BuildRequestResult : Prop :=
  ∀ (op : Byte) (d : List Byte) (s : State), s.txb.wf → d.length ≤ 255 →
    let body := [0x12, 0x4C, op, BitVec.ofNat 8 d.length] ++ d
    let c := sumMod256 (body.take s.txb.cap)
    ∃ t, exec (.buildRequest op d) s = .next t ∧ s.sameRecord t ∧ t.snk = s.snk ∧ t.txb.pos = 0 ∧
      t.txb.holds ((body ++ [BitVec.ofNat 8 c]).take s.txb.cap) ∧
      (∀ a, 5 + d.length ≤ a → t.txb.mem.read a = s.txb.mem.read a) ∧
      s.responded
        { status := if 5 + d.length ≤ s.txb.cap then .ok else .dropped, data := BitVec.ofNat 32 c
          data2 := BitVec.ofNat 32 (min (5 + d.length) s.txb.cap) } t

/-- Built frames are valid (43_codec.md R184): where the frame fits, the bytes in TXB satisfy 30_encoding.md R62 and
BUF_CHECKSUM TXB returns 1 right after. -/
def Obligations.BuiltFramesAreValid : Prop :=
  ∀ (op : Byte) (d : List Byte) (s : State), s.txb.wf → d.length ≤ 255 → 5 + d.length ≤ s.txb.cap →
    ∃ m t bs, exec (.buildRequest op d) s = .next m ∧ m.txb.holds bs ∧ frameValid bs = true ∧
      exec (.bufChecksum .txb) m = .next t ∧ m.responded { status := .ok, csumOk := true } t

/-- DRAIN (43_codec.md R182): every buffered byte of TXB goes to SNK head first, DATA is their number, TXB is left empty
with its cells intact; `⊥` cells give some bytes and are recorded (log entry 1). -/
def Obligations.DrainResult : Prop :=
  ∀ (s : State), s.txb.wf →
    ∃ t bs, exec .drain s = .next t ∧ s.txb.mayHold bs ∧ s.tookFirst .txb s.txb.len t ∧ t.snk = s.snk ++ bs ∧
      s.records (s.txb.someUnwritten 0 s.txb.len) t ∧
      s.responded { status := .ok, data := BitVec.ofNat 32 s.txb.len, snk := bs } t

/-- ISSUE (43_codec.md R183): BUILD_REQUEST and then DRAIN in one command: the bytes built are sent, TXB is left empty
with POS at the frame's length mod CAP_TX, the response is BUILD_REQUEST's with the SNK bytes. -/
def Obligations.IssueResult : Prop :=
  ∀ (op : Byte) (d : List Byte) (s : State), s.txb.wf → d.length ≤ 255 →
    ∃ m r bs t, exec (.buildRequest op d) s = .next m ∧ s.responded r m ∧ m.txb.holds bs ∧
      exec (.issue op d) s = .next t ∧ t.txb.mem = m.txb.mem ∧ t.txb.len = 0 ∧
      t.txb.pos = bs.length % s.txb.cap ∧ t.snk = s.snk ++ bs ∧ s.sameRecord t ∧
      s.responded { r with snk := bs } t

/-! ## Responses -/

/-- A response on its ports (30_encoding.md R80). The first response word holds STATUS in bits [2:0] with its code, CSUM_OK in
bit [3], STOP in bit [4], and bits [31:5] read 0; DATA and DATA2 follow as the second and third words, and BYTES on CMD after
the three words. Each command delivers its response so on CMD, its records on DSP and its sink bytes on SNK. That BYTES go
out one byte at a time is the model's choice, log entry 17. -/
def Obligations.ResponseWordPacking : Prop :=
  (∀ (i : Instr) (s t : State), exec i s = .next t → ∃ r, s.responded r t ∧ t.cmdOut = s.cmdOut ++ r.onCmd ∧
    t.dsp = s.dsp ++ r.dsp ∧ t.snk = s.snk ++ r.snk) ∧
  ∀ (r : Response), ∃ w : Word,
    r.onCmd = [.word w, .word r.data, .word r.data2] ++ r.bytes.map .byte ∧
    w.toNat = (match r.status with | .ok => 0 | .dropped => 1 | .empty => 2 | .noop => 3 | .badRange => 4 | .refused => 7)
      + (if r.csumOk then 8 else 0) + (if r.stop = .wait then 16 else 0)
end

