-- ==== Sys2Proof/Laws/Memory.lean ====
section
/-! SUPPORT. Read after write, and the canonical form that every memory operation keeps. -/

namespace Sys2Proof.Machine

@[simp] theorem Memory.read_nil (a : Nat) : Memory.read [] a = none := rfl

theorem Memory.read_eq_none_of_lt : ∀ (m : Memory) (a : Nat), (∀ x ∈ m, a < x.1) → m.read a = none
  | [], _, _ => rfl
  | (x, v) :: m, a, h => by
    have hx : a < x := h (x, v) (by simp)
    have hm := Memory.read_eq_none_of_lt m a (fun y hy => h y (by simp [hy]))
    simp [Memory.read, Nat.ne_of_lt hx, hm]

/-- A read after a write to the same cell gives the byte written. -/
@[simp] theorem Memory.read_write_same : ∀ (m : Memory) (a : Nat) (v : Byte), (m.write a v).read a = some v
  | [], a, v => by simp [Memory.write, Memory.read]
  | (x, w) :: m, a, v => by
    simp only [Memory.write]
    split
    · simp [Memory.read]
    · split
      · simp [Memory.read]
      · next h => simp [Memory.read, h, Memory.read_write_same m a v]

/-- A write leaves every other cell alone. -/
theorem Memory.read_write_other : ∀ (m : Memory) (a c : Nat) (v : Byte), c ≠ a → (m.write a v).read c = m.read c
  | [], a, c, v, h => by simp [Memory.write, Memory.read, h]
  | (x, w) :: m, a, c, v, h => by
    simp only [Memory.write]
    split
    · simp [Memory.read, h]
    · split
      · next _ hx => subst hx; simp [Memory.read, h]
      · simp [Memory.read, Memory.read_write_other m a c v h]

theorem Memory.mem_write : ∀ (m : Memory) (a : Nat) (v : Byte) (x : Host.Cell), x ∈ m.write a v → x = (a, v) ∨ x ∈ m
  | [], a, v, x, h => by simpa [Memory.write] using h
  | (y, w) :: m, a, v, x, h => by
    simp only [Memory.write] at h
    split at h
    · simpa using h
    · split at h
      · rcases List.mem_cons.1 h with h | h
        · exact .inl h
        · exact .inr (by simp [h])
      · rcases List.mem_cons.1 h with h | h
        · exact .inr (by simp [h])
        · rcases Memory.mem_write m a v x h with h | h
          · exact .inl h
          · exact .inr (by simp [h])

/-- A write keeps the canonical form. -/
theorem Memory.write_wf : ∀ (m : Memory) (a : Nat) (v : Byte), Memory.wf m → Memory.wf (m.write a v)
  | [], a, v, _ => by simp [Memory.write, Memory.wf]
  | (x, w) :: m, a, v, h => by
    have ⟨hx, hm⟩ := List.pairwise_cons.1 h
    simp only [Memory.write]
    split
    · next hlt =>
      refine List.pairwise_cons.2 ⟨fun y hy => ?_, h⟩
      rcases List.mem_cons.1 hy with hy | hy
      · simpa [hy] using hlt
      · exact Nat.lt_trans hlt (hx y hy)
    · split
      · next _ heq => exact List.pairwise_cons.2 ⟨fun y hy => by simpa [heq] using hx y hy, hm⟩
      · next h1 h2 =>
        refine List.pairwise_cons.2 ⟨fun y hy => ?_, Memory.write_wf m a v hm⟩
        rcases Memory.mem_write m a v y hy with hy | hy
        · subst hy; exact show x < a by omega
        · exact hx y hy

/-- A write within the capacity keeps every index within the capacity. -/
theorem Memory.write_bound {m : Memory} {a cap : Nat} {v : Byte} (h : ∀ x ∈ m, x.1 < cap) (ha : a < cap) :
    ∀ x ∈ m.write a v, x.1 < cap := by
  intro x hx
  rcases Memory.mem_write m a v x hx with hx | hx
  · subst hx; exact ha
  · exact h x hx

/-- Two memories in canonical form that read alike are the same data. -/
theorem Memory.ext_of_read : ∀ (m n : Memory), Memory.wf m → Memory.wf n → (∀ a, m.read a = n.read a) → m = n
  | [], [], _, _, _ => rfl
  | [], (y, w) :: n, _, _, h => by have := h y; simp [Memory.read] at this
  | (x, v) :: m, [], _, _, h => by have := h x; simp [Memory.read] at this
  | (x, v) :: m, (y, w) :: n, hm, hn, h => by
    have ⟨hx, hm'⟩ := List.pairwise_cons.1 hm
    have ⟨hy, hn'⟩ := List.pairwise_cons.1 hn
    have hxy : x = y := by
      rcases Nat.lt_trichotomy x y with hl | he | hl
      · have h1 := h x
        rw [Memory.read_eq_none_of_lt ((y, w) :: n) x (by
          intro z hz
          rcases List.mem_cons.1 hz with hz | hz
          · subst hz; exact hl
          · exact Nat.lt_trans hl (hy z hz))] at h1
        simp [Memory.read] at h1
      · exact he
      · have h1 := h y
        rw [Memory.read_eq_none_of_lt ((x, v) :: m) y (by
          intro z hz
          rcases List.mem_cons.1 hz with hz | hz
          · subst hz; exact hl
          · exact Nat.lt_trans hl (hx z hz))] at h1
        simp [Memory.read] at h1
    subst hxy
    have hvw : v = w := by have := h x; simpa [Memory.read] using this
    subst hvw
    have hrest : m = n := by
      apply Memory.ext_of_read m n hm' hn'
      intro a
      by_cases ha : a = x
      · subst ha
        rw [Memory.read_eq_none_of_lt m a hx, Memory.read_eq_none_of_lt n a hy]
      · have := h a
        simpa [Memory.read, ha] using this
    rw [hrest]

end Sys2Proof.Machine
end

