-- ==== Sys2Proof/Laws/Ops.lean ====
section
/-! SUPPORT. One specification lemma for each shared buffer operation: what it can do, said once; the proofs cite these
and unfold nothing. -/

namespace Sys2Proof.Machine

/-! ## Fields -/

@[simp] theorem Buffer.skip_cap (b : Buffer) (k : Nat) : (b.skip k).cap = b.cap := rfl
@[simp] theorem Buffer.skip_mem (b : Buffer) (k : Nat) : (b.skip k).mem = b.mem := rfl
@[simp] theorem Buffer.skip_pos (b : Buffer) (k : Nat) : (b.skip k).pos = (b.pos + k) % b.cap := rfl
@[simp] theorem Buffer.skip_len (b : Buffer) (k : Nat) : (b.skip k).len = b.len - k := rfl
@[simp] theorem Buffer.push_cap (b : Buffer) (v : Byte) : (b.push v).cap = b.cap := rfl
@[simp] theorem Buffer.push_pos (b : Buffer) (v : Byte) : (b.push v).pos = b.pos := rfl
@[simp] theorem Buffer.push_len (b : Buffer) (v : Byte) : (b.push v).len = b.len + 1 := rfl
@[simp] theorem Buffer.push_mem (b : Buffer) (v : Byte) : (b.push v).mem = b.mem.write (b.index b.len) v := rfl
@[simp] theorem Buffer.rewind_cap (b : Buffer) (k : Nat) : (b.rewind k).cap = b.cap := rfl
@[simp] theorem Buffer.rewind_mem (b : Buffer) (k : Nat) : (b.rewind k).mem = b.mem := rfl
@[simp] theorem Buffer.rewind_pos (b : Buffer) (k : Nat) : (b.rewind k).pos = (b.pos + (b.cap - k)) % b.cap := rfl
@[simp] theorem Buffer.rewind_len (b : Buffer) (k : Nat) : (b.rewind k).len = b.len + k := rfl
@[simp] theorem Buffer.init_cap (b : Buffer) : b.init.cap = b.cap := rfl
@[simp] theorem Buffer.init_mem (b : Buffer) : b.init.mem = [] := rfl
@[simp] theorem Buffer.init_pos (b : Buffer) : b.init.pos = 0 := rfl
@[simp] theorem Buffer.init_len (b : Buffer) : b.init.len = 0 := rfl
@[simp] theorem Buffer.clear_cap (b : Buffer) : b.clear.cap = b.cap := rfl
@[simp] theorem Buffer.clear_mem (b : Buffer) : b.clear.mem = b.mem := rfl
@[simp] theorem Buffer.clear_pos (b : Buffer) : b.clear.pos = 0 := rfl
@[simp] theorem Buffer.clear_len (b : Buffer) : b.clear.len = 0 := rfl

/-! ## Index arithmetic (20_memory.md R42) -/

@[simp] theorem Buffer.skip_index (b : Buffer) (k j : Nat) : (b.skip k).index j = b.index (k + j) := by
  simp [Buffer.index, Nat.add_assoc]

/-- Skipping moves the offsets down by the bytes skipped. -/
@[simp] theorem Buffer.skip_cellAt (b : Buffer) (k j : Nat) : (b.skip k).cellAt j = b.cellAt (k + j) := by
  simp [Buffer.cellAt]

@[simp] theorem Buffer.skip_peek (u : Nat → Byte) (b : Buffer) (k j : Nat) :
    (b.skip k).peek u j = b.peek u (k + j) := by simp [Buffer.peek]

theorem Buffer.skip_skip (b : Buffer) (j k : Nat) : (b.skip j).skip k = b.skip (j + k) := by
  simp [Buffer.skip, Nat.add_assoc, Nat.sub_sub]

theorem Buffer.skip_zero (b : Buffer) (h : b.pos < b.cap) : b.skip 0 = b := by
  simp [Buffer.skip, Nat.mod_eq_of_lt h]

/-- Offsets below the capacity are different cells. -/
theorem Buffer.index_inj {b : Buffer} {j k : Nat} (hj : j < b.cap) (hk : k < b.cap)
    (h : b.index j = b.index k) : j = k := by
  have h' : (b.pos + j) ≡ (b.pos + k) [MOD b.cap] := h
  have := Nat.ModEq.add_left_cancel' b.pos h'
  rwa [Nat.ModEq, Nat.mod_eq_of_lt hj, Nat.mod_eq_of_lt hk] at this

theorem Buffer.index_lt (b : Buffer) (k : Nat) (h : 0 < b.cap) : b.index k < b.cap := Nat.mod_lt _ h

/-- Every cell is some offset from the head. -/
theorem Buffer.exists_index {b : Buffer} (hp : b.pos < b.cap) {a : Nat} (ha : a < b.cap) :
    ∃ k, k < b.cap ∧ b.index k = a := by
  by_cases h : b.pos ≤ a
  · exact ⟨a - b.pos, by omega, by
      rw [Buffer.index, show b.pos + (a - b.pos) = a by omega, Nat.mod_eq_of_lt ha]⟩
  · exact ⟨a + b.cap - b.pos, by omega, by
      rw [Buffer.index, show b.pos + (a + b.cap - b.pos) = a + b.cap by omega, Nat.add_mod_right,
        Nat.mod_eq_of_lt ha]⟩

/-- Going back `k ≤ CAP` and forward `k` again is the old offset. -/
theorem Buffer.rewind_index {b : Buffer} {k : Nat} (hk : k ≤ b.cap) (j : Nat) :
    (b.rewind k).index (k + j) = b.index j := by
  simp only [Buffer.index, rewind_pos, rewind_cap, Nat.mod_add_mod]
  rw [show b.pos + (b.cap - k) + (k + j) = b.pos + j + b.cap by omega, Nat.add_mod_right]

theorem Buffer.rewind_cellAt {b : Buffer} {k : Nat} (hk : k ≤ b.cap) (j : Nat) :
    (b.rewind k).cellAt (k + j) = b.cellAt j := by
  simp [Buffer.cellAt, Buffer.rewind_index hk]

/-- `back(k)` after a skip of `k ≤ LEN` bytes restores POS and LEN (42_parser.md R152). -/
theorem Buffer.rewind_skip {b : Buffer} {k : Nat} (hp : b.pos < b.cap) (hk : k ≤ b.len) (hl : b.len ≤ b.cap) :
    (b.skip k).rewind k = b := by
  have hpos : ((b.pos + k) % b.cap + (b.cap - k)) % b.cap = b.pos := by
    rw [Nat.mod_add_mod, show b.pos + k + (b.cap - k) = b.pos + b.cap by omega, Nat.add_mod_right,
      Nat.mod_eq_of_lt hp]
  cases b
  simp_all [Buffer.skip, Buffer.rewind]

/-! ## Appends (40_buffer.md R103) -/

/-- The store of an append is seen at the old tail, and nowhere else within the capacity. -/
theorem Buffer.push_cellAt {b : Buffer} {v : Byte} {k : Nat} (hl : b.len < b.cap) (hk : k < b.cap) :
    (b.push v).cellAt k = if k = b.len then some v else b.cellAt k := by
  have hi : (b.push v).index k = b.index k := rfl
  unfold Buffer.cellAt
  rw [hi, push_mem]
  split
  · next h => subst h; exact Memory.read_write_same _ _ _
  · next h =>
    exact Memory.read_write_other _ _ _ _ (fun he => h (Buffer.index_inj hk hl he))

@[simp] theorem Buffer.appendList_nil (b : Buffer) :
    Buffer.appendList [] b = { buf := b, stored := 0, dropped := 0 } := rfl

theorem Buffer.appendList_full {b : Buffer} (h : b.len = b.cap) :
    ∀ d : List Byte, Buffer.appendList d b = { buf := b, stored := 0, dropped := d.length }
  | [] => rfl
  | v :: vs => by simp [Buffer.appendList, h, Buffer.appendList_full h vs]

/-- What a sequence of appends does to the registers and to the counts: it stores the prefix that fits. -/
theorem Buffer.appendList_spec : ∀ (d : List Byte) (b : Buffer), b.len ≤ b.cap →
    (Buffer.appendList d b).buf.cap = b.cap ∧ (Buffer.appendList d b).buf.pos = b.pos ∧
    (Buffer.appendList d b).stored = min d.length (b.cap - b.len) ∧
    (Buffer.appendList d b).dropped = d.length - (b.cap - b.len) ∧
    (Buffer.appendList d b).buf.len = b.len + min d.length (b.cap - b.len)
  | [], b, _ => by simp
  | v :: vs, b, h => by
    by_cases hf : b.len = b.cap
    · rw [Buffer.appendList_full hf]; simp [hf]
    · have hlt : (b.push v).len ≤ (b.push v).cap := by simp; omega
      obtain ⟨h1, h2, h3, h4, h5⟩ := Buffer.appendList_spec vs (b.push v) hlt
      simp only [Buffer.appendList, hf, if_false]
      simp only [push_cap, push_pos, push_len] at h1 h2 h3 h4 h5
      refine ⟨h1, h2, ?_, ?_, ?_⟩
      · simp only [h3, List.length_cons]; omega
      · simp only [h4, List.length_cons]; omega
      · simp only [h5, List.length_cons]; omega

/-- What a sequence of appends leaves in the cells, by offset from the head. -/
theorem Buffer.appendList_cellAt : ∀ (d : List Byte) (b : Buffer) (k : Nat), b.len ≤ b.cap → k < b.cap →
    (Buffer.appendList d b).buf.cellAt k =
      if b.len ≤ k ∧ k < b.len + d.length then d[k - b.len]? else b.cellAt k
  | [], b, k, _, _ => by
    have : ¬ (b.len ≤ k ∧ k < b.len + ([] : List Byte).length) := by simp
    rw [if_neg this]; rfl
  | v :: vs, b, k, h, hk => by
    by_cases hf : b.len = b.cap
    · have : ¬ (b.len ≤ k ∧ k < b.len + (v :: vs).length) := by omega
      rw [Buffer.appendList_full hf, if_neg this]
    · have hlt : b.len < b.cap := by omega
      have hr : (Buffer.appendList (v :: vs) b).buf = (Buffer.appendList vs (b.push v)).buf := by
        simp [Buffer.appendList, hf]
      rw [hr, Buffer.appendList_cellAt vs (b.push v) k (by simp; omega) (by simpa using hk)]
      rw [Buffer.push_cellAt hlt hk]
      have hp : (b.push v).len = b.len + 1 := rfl
      by_cases h1 : b.len + 1 ≤ k ∧ k < b.len + 1 + vs.length
      · rw [if_pos (by rw [hp]; exact h1), if_pos (by simp; omega), hp,
          show k - b.len = (k - (b.len + 1)) + 1 by omega]
        simp
      · rw [if_neg (by rw [hp]; exact h1)]
        by_cases h2 : k = b.len
        · subst h2; simp
        · rw [if_neg h2, if_neg (by simp; omega)]

/-- Physical cells that are not tail cells of the append keep what they held. -/
theorem Buffer.appendList_read_other : ∀ (d : List Byte) (b : Buffer) (a : Nat),
    (∀ k, b.len ≤ k → k < b.len + d.length → k < b.cap → a ≠ b.index k) → b.len ≤ b.cap →
    (Buffer.appendList d b).buf.mem.read a = b.mem.read a
  | [], b, a, _, _ => rfl
  | v :: vs, b, a, h, hl => by
    by_cases hf : b.len = b.cap
    · rw [Buffer.appendList_full hf]
    · have hr : (Buffer.appendList (v :: vs) b).buf = (Buffer.appendList vs (b.push v)).buf := by
        simp [Buffer.appendList, hf]
      rw [hr, Buffer.appendList_read_other vs (b.push v) a]
      · exact Memory.read_write_other _ _ _ _ (h b.len (Nat.le_refl _) (by simp) (by omega))
      · intro k h1 h2 h3
        simp only [push_len, push_cap] at h1 h2 h3
        exact h k (by omega) (by simp; omega) h3
      · simp; omega

/-! ## Bounds are kept (10_state.md R21) -/

theorem Buffer.init_wf {b : Buffer} (h : b.wf) : b.init.wf := by
  obtain ⟨h1, h2, h3, h4, h5, h6⟩ := h
  exact ⟨h1, h2, h1, Nat.zero_le _, List.Pairwise.nil, by simp⟩

theorem Buffer.clear_wf {b : Buffer} (h : b.wf) : b.clear.wf := by
  obtain ⟨h1, h2, h3, h4, h5, h6⟩ := h
  exact ⟨h1, h2, h1, Nat.zero_le _, h5, h6⟩

theorem Buffer.skip_wf {b : Buffer} (k : Nat) (h : b.wf) : (b.skip k).wf := by
  obtain ⟨h1, h2, h3, h4, h5, h6⟩ := h
  exact ⟨h1, h2, Nat.mod_lt _ h1, by simp; omega, h5, h6⟩

theorem Buffer.rewind_wf {b : Buffer} {k : Nat} (h : b.wf) (hk : b.len + k ≤ b.cap) : (b.rewind k).wf := by
  obtain ⟨h1, h2, h3, h4, h5, h6⟩ := h
  exact ⟨h1, h2, Nat.mod_lt _ h1, hk, h5, h6⟩

theorem Buffer.push_wf {b : Buffer} {v : Byte} (h : b.wf) (hl : b.len < b.cap) : (b.push v).wf := by
  obtain ⟨h1, h2, h3, h4, h5, h6⟩ := h
  exact ⟨h1, h2, h3, hl, Memory.write_wf _ _ _ h5, Memory.write_bound h6 (Nat.mod_lt _ h1)⟩

theorem Buffer.appendList_wf : ∀ (d : List Byte) {b : Buffer}, b.wf → (Buffer.appendList d b).buf.wf
  | [], _, h => h
  | v :: vs, b, h => by
    by_cases hf : b.len = b.cap
    · rw [Buffer.appendList_full hf]; exact h
    · have := Buffer.appendList_wf vs (Buffer.push_wf (v := v) h (by have := h.2.2.2.1; omega))
      simpa [Buffer.appendList, hf] using this

/-! ## Ranges of peeks -/

@[simp] theorem Buffer.peekRange_length (u : Nat → Byte) (b : Buffer) :
    ∀ n start, (b.peekRange u start n).length = n
  | 0, _ => rfl
  | n + 1, start => by simp [Buffer.peekRange, Buffer.peekRange_length u b n]

theorem Buffer.peekRange_getElem? (u : Nat → Byte) (b : Buffer) :
    ∀ n start k, k < n → (b.peekRange u start n)[k]? = some (b.peek u (start + k))
  | 0, _, k, h => absurd h (Nat.not_lt_zero k)
  | n + 1, start, 0, _ => by simp [Buffer.peekRange]
  | n + 1, start, k + 1, h => by
    simp only [Buffer.peekRange, List.getElem?_cons_succ]
    rw [Buffer.peekRange_getElem? u b n (start + 1) k (by omega)]
    congr 2; omega

theorem Buffer.peekRange_append (u : Nat → Byte) (b : Buffer) :
    ∀ m n start, b.peekRange u start (m + n) = b.peekRange u start m ++ b.peekRange u (start + m) n
  | 0, n, start => by simp [Buffer.peekRange]
  | m + 1, n, start => by
    rw [show m + 1 + n = (m + n) + 1 by omega]
    simp only [Buffer.peekRange, List.cons_append]
    rw [Buffer.peekRange_append u b m n (start + 1), show start + 1 + m = start + (m + 1) by omega]

theorem Buffer.peekRange_skip (u : Nat → Byte) (b : Buffer) (j : Nat) :
    ∀ n start, (b.skip j).peekRange u start n = b.peekRange u (j + start) n
  | 0, _ => rfl
  | n + 1, start => by
    simp only [Buffer.peekRange, skip_peek]
    rw [Buffer.peekRange_skip u b j n (start + 1)]; rfl

/-- A `⊥` cell is among the range exactly where `unwrittenIn` says so. -/
theorem Buffer.unwrittenIn_iff (b : Buffer) :
    ∀ n start, b.unwrittenIn start n = true ↔ b.someUnwritten start n
  | 0, start => by simp [Buffer.unwrittenIn]
  | n + 1, start => by
    simp only [Buffer.unwrittenIn, Bool.or_eq_true, Option.isNone_iff_eq_none, Buffer.unwrittenIn_iff b n]
    constructor
    · rintro (h | ⟨k, hk, h⟩)
      · exact ⟨0, by omega, h⟩
      · exact ⟨k + 1, by omega, by rw [← h]; congr 1; omega⟩
    · rintro ⟨k, hk, h⟩
      cases k with
      | zero => exact .inl h
      | succ k => exact .inr ⟨k, by omega, by rw [← h]; congr 1; omega⟩

theorem Buffer.unwrittenIn_skip (b : Buffer) (j : Nat) :
    ∀ n start, (b.skip j).unwrittenIn start n = b.unwrittenIn (j + start) n
  | 0, _ => rfl
  | n + 1, start => by
    simp only [Buffer.unwrittenIn, skip_cellAt]
    rw [Buffer.unwrittenIn_skip b j n (start + 1)]; rfl

/-- Nothing unwritten is live where every live cell is written. -/
theorem Buffer.unwrittenIn_of_liveWritten {b : Buffer} (h : b.liveWritten) {start n : Nat}
    (hn : start + n ≤ b.len) : b.unwrittenIn start n = false := by
  rw [Bool.eq_false_iff]
  intro hu
  obtain ⟨k, hk, he⟩ := (Buffer.unwrittenIn_iff b n start).1 hu
  have := h (start + k) (by omega)
  rw [he] at this; simp at this

/-- The bytes a command finds agree with every written cell. -/
theorem Buffer.mayHold_peekRange (u : Nat → Byte) (b : Buffer) : b.mayHold (b.peekRange u 0 b.len) := by
  refine ⟨by simp, fun k hk => ?_⟩
  rw [Buffer.peekRange_length] at hk
  rw [Buffer.peekRange_getElem? u b b.len 0 k hk, Nat.zero_add, Buffer.peek]
  cases h : b.cellAt k with
  | none => exact .inl rfl
  | some v => exact .inr rfl

/-- What a command finds in the live region, `u` giving the byte of each `⊥` cell: exactly these bytes, head first. -/
abbrev Buffer.shows (u : Nat → Byte) (b : Buffer) (bs : List Byte) : Prop :=
  b.len = bs.length ∧ ∀ k, k < bs.length → b.peek u k = bs.getD k 0

/-- Every buffer shows the bytes it can be peeked for. -/
theorem Buffer.shows_peekRange (u : Nat → Byte) (b : Buffer) : b.shows u (b.peekRange u 0 b.len) := by
  refine ⟨by simp, fun k hk => ?_⟩
  rw [Buffer.peekRange_length] at hk
  rw [List.getD_eq_getElem?_getD, Buffer.peekRange_getElem? u b b.len 0 k hk, Nat.zero_add]; rfl

/-- A buffer that holds `bs` shows exactly `bs`, whatever the unknown bytes are. -/
theorem Buffer.shows_of_holds {b : Buffer} {bs : List Byte} (h : b.holds bs) (u : Nat → Byte) : b.shows u bs := by
  refine ⟨h.1, fun k hk => ?_⟩
  rw [Buffer.peek, h.2 k hk, List.getElem?_eq_getElem hk, List.getD_eq_getElem?_getD, List.getElem?_eq_getElem hk]
  rfl

theorem Buffer.range_of_shows {u : Nat → Byte} {b : Buffer} {bs : List Byte} (h : b.shows u bs) {start n : Nat}
    (hn : start + n ≤ bs.length) : b.peekRange u start n = (bs.drop start).take n := by
  apply List.ext_getElem?
  intro k
  by_cases hk : k < n
  · rw [Buffer.peekRange_getElem? u b n start k hk, h.2 _ (by omega), List.getElem?_take_of_lt hk, List.getElem?_drop,
      List.getD_eq_getElem?_getD, List.getElem?_eq_getElem (by omega)]
    rfl
  · rw [List.getElem?_eq_none (by simp; omega), List.getElem?_eq_none (by simp; omega)]

/-- Skipping drops bytes from the front. -/
theorem Buffer.shows_skip {u : Nat → Byte} {b : Buffer} {bs : List Byte} (h : b.shows u bs) {k : Nat}
    (hk : k ≤ bs.length) : (b.skip k).shows u (bs.drop k) := by
  refine ⟨by simp [h.1], fun j hj => ?_⟩
  rw [List.length_drop] at hj
  rw [Buffer.skip_peek, h.2 _ (by omega), List.getD_eq_getElem?_getD, List.getD_eq_getElem?_getD, List.getElem?_drop]

/-- Appending adds bytes at the end, as many as fit. -/
theorem Buffer.shows_append {u : Nat → Byte} {b : Buffer} {bs : List Byte} (h : b.shows u bs) (hl : b.len ≤ b.cap)
    (d : List Byte) : (Buffer.appendList d b).buf.shows u ((bs ++ d).take b.cap) := by
  obtain ⟨h1, h2, -, -, h5⟩ := Buffer.appendList_spec d b hl
  have hb := h.1
  refine ⟨by rw [h5, List.length_take, List.length_append]; omega, fun k hk => ?_⟩
  rw [List.length_take, List.length_append] at hk
  rw [Buffer.peek, Buffer.appendList_cellAt d b k hl (by omega), List.getD_eq_getElem?_getD,
    List.getElem?_take_of_lt (by omega)]
  by_cases hd : b.len ≤ k
  · rw [if_pos (by omega), List.getElem?_append_right (by omega), hb, List.getElem?_eq_getElem (by omega)]; rfl
  · have hi : (Buffer.appendList d b).buf.index k = b.index k := by rw [Buffer.index, h1, h2, Buffer.index]
    rw [if_neg (by omega), List.getElem?_append_left (by omega), hi, ← List.getD_eq_getElem?_getD, ← h.2 k (by omega)]
    rfl

/-- Peeking all of a buffer that holds `bs` gives `bs`, whatever the unknown bytes are. -/
theorem Buffer.peekRange_of_holds {b : Buffer} {bs : List Byte} (h : b.holds bs) (u : Nat → Byte) :
    b.peekRange u 0 b.len = bs := by
  rw [Buffer.range_of_shows (Buffer.shows_of_holds h u) (by have := h.1; omega), List.drop_zero, h.1, List.take_length]

theorem Buffer.holds_liveWritten {b : Buffer} {bs : List Byte} (h : b.holds bs) : b.liveWritten := by
  intro k hk
  rw [h.2 k (by rw [← h.1]; exact hk), List.getElem?_eq_getElem (by rw [← h.1]; exact hk)]
  rfl

/-- A buffer that holds `bs` shows the bytes of `bs`, cell by cell. -/
theorem Buffer.peek_of_holds {b : Buffer} {bs : List Byte} (h : b.holds bs) (u : Nat → Byte) {k : Nat}
    (hk : k < bs.length) : b.peek u k = bs.getD k 0 := (Buffer.shows_of_holds h u).2 k hk

theorem Buffer.range_of_holds {b : Buffer} {bs : List Byte} (h : b.holds bs) (u : Nat → Byte) {start n : Nat}
    (hn : start + n ≤ bs.length) : b.peekRange u start n = (bs.drop start).take n :=
  Buffer.range_of_shows (Buffer.shows_of_holds h u) hn

/-- Skipping drops bytes from the front. -/
theorem Buffer.holds_skip {b : Buffer} {bs : List Byte} (h : b.holds bs) {k : Nat} (hk : k ≤ bs.length) :
    (b.skip k).holds (bs.drop k) := by
  refine ⟨by simp [h.1], fun j hj => ?_⟩
  rw [List.length_drop] at hj
  rw [Buffer.skip_cellAt, h.2 _ (by omega), List.getElem?_drop]

/-- Appending adds bytes at the end, as many as fit. -/
theorem Buffer.holds_append {b : Buffer} {bs : List Byte} (h : b.holds bs) (hl : b.len ≤ b.cap) (d : List Byte) :
    (Buffer.appendList d b).buf.holds ((bs ++ d).take b.cap) := by
  obtain ⟨-, -, -, -, h5⟩ := Buffer.appendList_spec d b hl
  have hb := h.1
  refine ⟨by rw [h5, List.length_take, List.length_append]; omega, fun k hk => ?_⟩
  rw [List.length_take, List.length_append] at hk
  rw [Buffer.appendList_cellAt d b k hl (by omega), List.getElem?_take_of_lt (by omega)]
  by_cases hd : b.len ≤ k
  · rw [if_pos (by omega), List.getElem?_append_right (by omega), hb]
  · rw [if_neg (by omega), h.2 k (by omega), List.getElem?_append_left (by omega)]

theorem Buffer.holds_append_fits {b : Buffer} {bs : List Byte} (h : b.holds bs) (hl : b.len ≤ b.cap) {d : List Byte}
    (hd : bs.length + d.length ≤ b.cap) : (Buffer.appendList d b).buf.holds (bs ++ d) := by
  have := Buffer.holds_append h hl d
  rwa [List.take_of_length_le (by simpa using hd)] at this

theorem Buffer.holds_nil {b : Buffer} (h : b.len = 0) : b.holds [] :=
  ⟨h, fun _ hk => absurd hk (Nat.not_lt_zero _)⟩

theorem Buffer.mayHold_of_holds {b : Buffer} {bs : List Byte} (h : b.holds bs) : b.mayHold bs :=
  ⟨h.1, fun k hk => .inr (h.2 k hk)⟩

/-! ## Pops (40_buffer.md R105, R106) -/

theorem Buffer.popN_empty (u : Nat → Byte) {b : Buffer} (h : b.len = 0) : ∀ n,
    Buffer.popN u n b = { buf := b, bytes := List.replicate n 0, popped := 0, unwritten := false }
  | 0 => rfl
  | n + 1 => by simp [Buffer.popN, h, Buffer.popN_empty u h n, List.replicate_succ]

/-- Everything a sequence of `n` pops does: the buffered bytes come first, zeros fill the rest, and the buffer has
skipped what it gave. -/
theorem Buffer.popN_spec (u : Nat → Byte) : ∀ (n : Nat) (b : Buffer), b.pos < b.cap →
    Buffer.popN u n b =
      { buf := b.skip (min n b.len)
        bytes := b.peekRange u 0 (min n b.len) ++ List.replicate (n - b.len) 0
        popped := min n b.len
        unwritten := b.unwrittenIn 0 (min n b.len) }
  | 0, b, h => by simp [Buffer.popN, Buffer.skip_zero b h, Buffer.peekRange, Buffer.unwrittenIn]
  | n + 1, b, h => by
    by_cases hl : b.len = 0
    · rw [Buffer.popN_empty u hl]; simp [hl, Buffer.skip_zero b h, Buffer.peekRange, Buffer.unwrittenIn]
    · have hp : (b.skip 1).pos < (b.skip 1).cap := by
        simp only [skip_pos, skip_cap]; exact Nat.mod_lt _ (by omega)
      have hm : min (n + 1) b.len = min n (b.len - 1) + 1 := by omega
      rw [Buffer.popN, if_neg hl]
      simp only [Buffer.popN_spec u n (b.skip 1) hp, skip_len, Buffer.skip_skip, hm,
        Buffer.peekRange_skip, Buffer.unwrittenIn_skip]
      refine (PopResult.mk.injEq ..).mpr ⟨by rw [Nat.add_comm], ?_, rfl, ?_⟩
      · rw [Buffer.peekRange]; simp only [List.cons_append]; congr 2; congr 1; omega
      · simp [Buffer.unwrittenIn]

theorem Buffer.popN_wf (u : Nat → Byte) {b : Buffer} (n : Nat) (h : b.wf) : (Buffer.popN u n b).buf.wf := by
  rw [Buffer.popN_spec u n b h.2.2.1]; exact Buffer.skip_wf _ h

end Sys2Proof.Machine
end

