-- ==== Sys2Proof/Laws/Decode.lean ====
section
/-! SUPPORT. The fields of an encoded command word, and data words and their bytes (30_encoding.md R70, R73). -/

namespace Sys2Proof

@[simp] theorem selOf_bit (b : BufSel) : selOf b.bit = b := by cases b <;> rfl

@[simp] theorem bit_selOf (b : Bool) : (selOf b).bit = b := by cases b <;> rfl

/-! ## Bits of a command word (30_encoding.md R70) -/

/-- Every bit of a command word, by its number. -/
theorem cmdWord_getLsbD (opc : Byte) (b : Bool) (imm : Half) (i : Nat) :
    (cmdWord opc b imm).getLsbD i =
      if i < 16 then imm.getLsbD i
      else if i < 23 then false
      else if i = 23 then b
      else opc.getLsbD (i - 24) := by
  show BitVec.getLsbD (w := 8 + 1 + 7 + 16) (opc ++ BitVec.ofBool b ++ 0#7 ++ imm) i = _
  rw [BitVec.getLsbD_append]
  by_cases h1 : i < 16
  · simp [h1]
  · rw [if_neg h1, if_neg h1, BitVec.getLsbD_append]
    by_cases h2 : i < 23
    · rw [if_pos (by omega), if_pos h2]; simp
    · rw [if_neg (by omega), if_neg h2, BitVec.getLsbD_append]
      by_cases h3 : i = 23
      · subst h3; simp
      · rw [if_neg (by omega), if_neg h3, show i - 16 - 7 - 1 = i - 24 by omega]

@[simp] theorem opcField_cmdWord (opc : Byte) (b : Bool) (imm : Half) : opcField (cmdWord opc b imm) = opc := by
  apply BitVec.eq_of_getLsbD_eq
  intro i hi
  rw [opcField, BitVec.getLsbD_extractLsb', cmdWord_getLsbD, if_neg (by omega), if_neg (by omega), if_neg (by omega)]
  simp [hi]

@[simp] theorem bField_cmdWord (opc : Byte) (b : Bool) (imm : Half) : bField (cmdWord opc b imm) = b := by
  rw [bField, cmdWord_getLsbD]; rfl

@[simp] theorem rsvField_cmdWord (opc : Byte) (b : Bool) (imm : Half) : rsvField (cmdWord opc b imm) = 0 := by
  apply BitVec.eq_of_getLsbD_eq
  intro i hi
  rw [rsvField, BitVec.getLsbD_extractLsb', cmdWord_getLsbD, if_neg (by omega), if_pos (by omega)]
  simp

@[simp] theorem immField_cmdWord (opc : Byte) (b : Bool) (imm : Half) : immField (cmdWord opc b imm) = imm := by
  apply BitVec.eq_of_getLsbD_eq
  intro i hi
  rw [immField, BitVec.getLsbD_extractLsb', cmdWord_getLsbD, if_pos (by omega)]
  simp [hi]

/-- Every bit of a 16-bit immediate made of two bytes. -/
theorem twoBytes_getLsbD (hi lo : Byte) (i : Nat) :
    BitVec.getLsbD (w := 16) (hi ++ lo) i = if i < 8 then lo.getLsbD i else hi.getLsbD (i - 8) := by
  show BitVec.getLsbD (w := 8 + 8) (hi ++ lo) i = _
  rw [BitVec.getLsbD_append]

@[simp] theorem immLow_cmdWord (opc : Byte) (b : Bool) (hi lo : Byte) : immLow (cmdWord opc b (hi ++ lo)) = lo := by
  apply BitVec.eq_of_getLsbD_eq
  intro i h
  rw [immLow, BitVec.getLsbD_extractLsb', cmdWord_getLsbD, if_pos (by omega), twoBytes_getLsbD, if_pos (by omega)]
  simp [h]

@[simp] theorem immHigh_cmdWord (opc : Byte) (b : Bool) (hi lo : Byte) : immHigh (cmdWord opc b (hi ++ lo)) = hi := by
  apply BitVec.eq_of_getLsbD_eq
  intro i h
  rw [immHigh, BitVec.getLsbD_extractLsb', cmdWord_getLsbD, if_pos (by omega), twoBytes_getLsbD, if_neg (by omega)]
  simp [h]

/-- IMM16 is its two bytes. -/
theorem immField_eq (w : Word) : immField w = immHigh w ++ immLow w := by
  apply BitVec.eq_of_getLsbD_eq
  intro i hi
  rw [twoBytes_getLsbD, immField, immHigh, immLow]
  split
  · next h => simp [h, hi]
  · next h => simp [hi, show i - 8 < 8 by omega, show 8 + (i - 8) = i by omega]

/-- A command word with RSV = 0 is made of its fields: none of its bits is dropped. -/
theorem cmdWord_fields (w : Word) (h : rsvField w = 0) : cmdWord (opcField w) (bField w) (immField w) = w := by
  apply BitVec.eq_of_getLsbD_eq
  intro i hi
  rw [cmdWord_getLsbD]
  by_cases h1 : i < 16
  · simp [h1, immField]
  · by_cases h2 : i < 23
    · have := congrArg (fun v => v.getLsbD (i - 16)) h
      simp only [rsvField, BitVec.getLsbD_extractLsb', show i - 16 < 7 by omega, show 16 + (i - 16) = i by omega] at this
      simp [h1, h2]; simpa using this
    · by_cases h3 : i = 23
      · subst h3; simp [bField]
      · simp [h1, h2, h3, opcField, show i - 24 < 8 by omega,
          show 24 + (i - 24) = i by omega]

/-! ## Data words (30_encoding.md R73) -/

/-- Every bit of a word made of four bytes. -/
theorem wordOfBytes_getLsbD (a b c d : Byte) (i : Nat) :
    (wordOfBytes a b c d).getLsbD i =
      if i < 8 then a.getLsbD i
      else if i < 16 then b.getLsbD (i - 8)
      else if i < 24 then c.getLsbD (i - 16)
      else d.getLsbD (i - 24) := by
  show BitVec.getLsbD (w := 8 + 8 + 8 + 8) (d ++ c ++ b ++ a) i = _
  rw [BitVec.getLsbD_append]
  by_cases h1 : i < 8
  · simp [h1]
  · rw [if_neg h1, if_neg h1, BitVec.getLsbD_append]
    by_cases h2 : i < 16
    · rw [if_pos (by omega), if_pos h2]
    · rw [if_neg (by omega), if_neg h2, BitVec.getLsbD_append]
      by_cases h3 : i < 24
      · rw [if_pos (by omega), if_pos h3, show i - 8 - 8 = i - 16 by omega]
      · rw [if_neg (by omega), if_neg h3, show i - 8 - 8 - 8 = i - 24 by omega]

/-- The four bytes of a word made of four bytes. -/
@[simp] theorem wordBytes_wordOfBytes (a b c d : Byte) : wordBytes (wordOfBytes a b c d) = [a, b, c, d] := by
  have ha : (wordOfBytes a b c d).extractLsb' 0 8 = a := by
    apply BitVec.eq_of_getLsbD_eq; intro i hi
    rw [BitVec.getLsbD_extractLsb', wordOfBytes_getLsbD, if_pos (by omega)]; simp [hi]
  have hb : (wordOfBytes a b c d).extractLsb' 8 8 = b := by
    apply BitVec.eq_of_getLsbD_eq; intro i hi
    rw [BitVec.getLsbD_extractLsb', wordOfBytes_getLsbD, if_neg (by omega), if_pos (by omega)]; simp [hi]
  have hc : (wordOfBytes a b c d).extractLsb' 16 8 = c := by
    apply BitVec.eq_of_getLsbD_eq; intro i hi
    rw [BitVec.getLsbD_extractLsb', wordOfBytes_getLsbD, if_neg (by omega), if_neg (by omega), if_pos (by omega)]
    simp [hi]
  have hd : (wordOfBytes a b c d).extractLsb' 24 8 = d := by
    apply BitVec.eq_of_getLsbD_eq; intro i hi
    rw [BitVec.getLsbD_extractLsb', wordOfBytes_getLsbD, if_neg (by omega), if_neg (by omega), if_neg (by omega)]
    simp [hi]
  rw [wordBytes, ha, hb, hc, hd]

/-- A word is its four bytes. -/
theorem wordOfBytes_wordBytes (w : Word) :
    wordOfBytes (w.extractLsb' 0 8) (w.extractLsb' 8 8) (w.extractLsb' 16 8) (w.extractLsb' 24 8) = w := by
  apply BitVec.eq_of_getLsbD_eq
  intro i hi
  rw [wordOfBytes_getLsbD]
  simp only [BitVec.getLsbD_extractLsb']
  split
  · simp_all
  · split
    · simp [show i - 8 < 8 by omega, show 8 + (i - 8) = i by omega]
    · split
      · simp [show i - 16 < 8 by omega, show 16 + (i - 16) = i by omega]
      · simp [show i - 24 < 8 by omega, show 24 + (i - 24) = i by omega]

@[simp] theorem wordBytes_length (w : Word) : (wordBytes w).length = 4 := rfl

theorem packWords_length : ∀ d : List Byte, (packWords d).length = dataWords d.length
  | [] => rfl
  | [_] => by simp [packWords, dataWords]
  | [_, _] => by simp [packWords, dataWords]
  | [_, _, _] => by simp [packWords, dataWords]
  | _ :: _ :: _ :: _ :: rest => by
    have := packWords_length rest
    simp only [packWords, List.length_cons, this, dataWords]; omega

/-- The data words carry the bytes in order, then zeros (30_encoding.md R73). -/
theorem unpackWords_packWords : ∀ d : List Byte, ∃ k, unpackWords (packWords d) = d ++ List.replicate k 0
  | [] => ⟨0, rfl⟩
  | [a] => ⟨3, by simp [packWords, unpackWords, List.replicate]⟩
  | [a, b] => ⟨2, by simp [packWords, unpackWords, List.replicate]⟩
  | [a, b, c] => ⟨1, by simp [packWords, unpackWords, List.replicate]⟩
  | a :: b :: c :: d :: rest => by
    obtain ⟨k, hk⟩ := unpackWords_packWords rest
    exact ⟨k, by simp [packWords, unpackWords, hk]⟩

/-- A data sequence is read back from its data words. -/
theorem decodeData_packWords (d : List Byte) : decodeData d.length (packWords d) = .ok d := by
  obtain ⟨k, hk⟩ := unpackWords_packWords d
  simp [decodeData, hk]

/-- The bytes of the data words: byte `j` is byte `j % 4` of word `j / 4`. -/
theorem unpackWords_length : ∀ ws : List Word, (unpackWords ws).length = 4 * ws.length
  | [] => rfl
  | w :: ws => by simp [unpackWords, unpackWords_length ws]; omega

/-- Data words whose bytes beyond the first `n` are 0, of the number `n` needs, are the packing of those `n` bytes. -/
theorem packWords_take : ∀ (ws : List Word) (n : Nat), ws.length = dataWords n →
    ((unpackWords ws).drop n).any (· ≠ 0) = false → packWords ((unpackWords ws).take n) = ws
  | [], n, h, _ => by
    have : n = 0 := by simp [dataWords] at h; omega
    subst this; rfl
  | w :: ws, n, h, hp => by
    have hw := wordOfBytes_wordBytes w
    have hl : ws.length + 1 = (n + 3) / 4 := by simpa [dataWords] using h
    match n, hl with
    | 0, hl => simp at hl
    | 1, hl =>
      have : ws = [] := by cases ws with | nil => rfl | cons _ _ => simp at hl
      subst this
      simp only [unpackWords, wordBytes, List.append_nil, List.drop_succ_cons, List.drop_zero, List.any_cons,
        List.any_nil, Bool.or_false, Bool.or_eq_false_iff, decide_eq_false_iff_not, not_not] at hp
      obtain ⟨h1, h2, h3⟩ := hp
      rw [h1, h2, h3] at hw
      simpa [unpackWords, wordBytes, packWords] using hw
    | 2, hl =>
      have : ws = [] := by cases ws with | nil => rfl | cons _ _ => simp at hl
      subst this
      simp only [unpackWords, wordBytes, List.append_nil, List.drop_succ_cons, List.drop_zero, List.any_cons,
        List.any_nil, Bool.or_false, Bool.or_eq_false_iff, decide_eq_false_iff_not, not_not] at hp
      obtain ⟨h1, h2⟩ := hp
      rw [h1, h2] at hw
      simpa [unpackWords, wordBytes, packWords] using hw
    | 3, hl =>
      have : ws = [] := by cases ws with | nil => rfl | cons _ _ => simp at hl
      subst this
      simp only [unpackWords, wordBytes, List.append_nil, List.drop_succ_cons, List.drop_zero, List.any_cons,
        List.any_nil, Bool.or_false, decide_eq_false_iff_not, not_not] at hp
      rw [hp] at hw
      simpa [unpackWords, wordBytes, packWords] using hw
    | n + 4, hl =>
      have hr := packWords_take ws n (by simp only [dataWords]; omega) (by simpa [unpackWords, wordBytes] using hp)
      simp only [unpackWords, wordBytes, List.cons_append, List.nil_append, List.take_succ_cons, packWords, hw, hr]

/-! ## What each decoder form accepts -/

/-- The two halves of a range word (30_encoding.md R75). -/
@[simp] theorem rangeStart_append (a b : Half) : rangeStart (b ++ a) = a := by
  apply BitVec.eq_of_getLsbD_eq; intro i hi
  rw [rangeStart, BitVec.getLsbD_extractLsb']
  show (decide (i < 16) && BitVec.getLsbD (w := 16 + 16) (b ++ a) _) = _
  rw [BitVec.getLsbD_append]; simp [hi]

@[simp] theorem rangeEnd_append (a b : Half) : rangeEnd (b ++ a) = b := by
  apply BitVec.eq_of_getLsbD_eq; intro i hi
  rw [rangeEnd, BitVec.getLsbD_extractLsb']
  show (decide (i < 16) && BitVec.getLsbD (w := 16 + 16) (b ++ a) _) = _
  rw [BitVec.getLsbD_append]; simp [hi]

theorem range_append (r : Word) : rangeEnd r ++ rangeStart r = r := by
  apply BitVec.eq_of_getLsbD_eq; intro i hi
  show BitVec.getLsbD (w := 16 + 16) (rangeEnd r ++ rangeStart r) i = _
  rw [BitVec.getLsbD_append, rangeEnd, rangeStart, BitVec.getLsbD_extractLsb', BitVec.getLsbD_extractLsb']
  split
  · next h => simp [h]
  · next h => simp [show i - 16 < 16 by omega, show 16 + (i - 16) = i by omega]

theorem decodeData_ok {n : Nat} {ext : List Word} {d : List Byte} :
    decodeData n ext = .ok d ↔ ((unpackWords ext).drop n).any (· ≠ 0) = false ∧ d = (unpackWords ext).take n := by
  unfold decodeData
  split
  · next h => simp only [reduceCtorEq, false_iff, not_and]; intro h2; rw [h2] at h; cases h
  · next h => simp only [Bool.not_eq_true] at h; simp only [h, Except.ok.injEq, true_and]; exact eq_comm

/-- A check that refuses where `p` fails. -/
theorem check_ok {p : Prop} [Decidable p] {e : DecodeError} {x : Except DecodeError Instr} {i : Instr} :
    (if ¬ p then .error e else x) = .ok i ↔ p ∧ x = .ok i := by
  by_cases h : p <;> simp [h]

theorem data_ok {x : Except DecodeError (List Byte)} {mk : List Byte → Instr} {i : Instr} :
    (match x with | .error e => (.error e : Except DecodeError Instr) | .ok d => .ok (mk d)) = .ok i ↔
      ∃ d, x = .ok d ∧ i = mk d := by
  cases x <;> simp [eq_comm]

theorem decodeBuf_ok {w : Word} {mk : BufSel → Instr} {i : Instr} :
    decodeBuf w mk = .ok i ↔ rsvField w = 0 ∧ immField w = 0 ∧ i = mk (selOf (bField w)) := by
  simp only [decodeBuf, ne_eq, check_ok, Except.ok.injEq, eq_comm (a := i)]

theorem decodeBufV8_ok {w : Word} {mk : BufSel → Byte → Instr} {i : Instr} :
    decodeBufV8 w mk = .ok i ↔ rsvField w = 0 ∧ immHigh w = 0 ∧ i = mk (selOf (bField w)) (immLow w) := by
  simp only [decodeBufV8, ne_eq, check_ok, Except.ok.injEq, eq_comm (a := i)]

theorem decodeBufImm_ok {w : Word} {mk : BufSel → Half → Instr} {i : Instr} :
    decodeBufImm w mk = .ok i ↔ rsvField w = 0 ∧ i = mk (selOf (bField w)) (immField w) := by
  simp only [decodeBufImm, ne_eq, check_ok, Except.ok.injEq, eq_comm (a := i)]

theorem decodeBufWord_ok {w : Word} {ext : List Word} {mk : BufSel → Word → Instr} {i : Instr} :
    decodeBufWord w ext mk = .ok i ↔
      rsvField w = 0 ∧ immField w = 0 ∧ i = mk (selOf (bField w)) (ext.headD 0) := by
  simp only [decodeBufWord, ne_eq, check_ok, Except.ok.injEq, eq_comm (a := i)]

theorem decodeBufData_ok {w : Word} {ext : List Word} {mk : BufSel → List Byte → Instr} {i : Instr} :
    decodeBufData w ext mk = .ok i ↔
      rsvField w = 0 ∧ ∃ d, decodeData (immField w).toNat ext = .ok d ∧ i = mk (selOf (bField w)) d := by
  unfold decodeBufData
  refine check_ok.trans ?_
  exact and_congr_right fun _ => data_ok

theorem decodeEng_ok {w : Word} {j i : Instr} :
    decodeEng w j = .ok i ↔ rsvField w = 0 ∧ bField w = false ∧ immField w = 0 ∧ i = j := by
  unfold decodeEng
  refine check_ok.trans ?_
  refine and_congr_right fun _ => ?_
  cases bField w
  · simp only [Bool.false_eq_true, if_false, ne_eq, check_ok, Except.ok.injEq, eq_comm (a := i), true_and]
  · simp

theorem decodeEngFrame_ok {w : Word} {ext : List Word} {mk : Byte → List Byte → Instr} {i : Instr} :
    decodeEngFrame w ext mk = .ok i ↔
      rsvField w = 0 ∧ bField w = false ∧
        ∃ d, decodeData (immHigh w).toNat ext = .ok d ∧ i = mk (immLow w) d := by
  unfold decodeEngFrame
  refine check_ok.trans ?_
  refine and_congr_right fun _ => ?_
  cases bField w
  · simp only [Bool.false_eq_true, if_false, true_and]; exact data_ok
  · simp

/-! ## Whole commands on CMD (30_encoding.md R76) -/

/-- More fuel than words changes nothing. -/
theorem wholeCommandsIn_fuel : ∀ (m n : Nat) (ws : List Word), ws.length ≤ m → ws.length ≤ n →
    wholeCommandsIn m ws = wholeCommandsIn n ws
  | 0, 0, _, _, _ => rfl
  | 0, n + 1, [], _, _ => rfl
  | m + 1, 0, [], _, _ => rfl
  | m + 1, n + 1, [], _, _ => rfl
  | m + 1, n + 1, w :: rest, hm, hn => by
    simp only [List.length_cons] at hm hn
    rw [wholeCommandsIn, wholeCommandsIn,
      wholeCommandsIn_fuel m n (rest.drop (extCount w)) (by rw [List.length_drop]; omega) (by rw [List.length_drop]; omega)]

/-- A whole command at the front stays, whatever follows it. -/
theorem wholeCommands_append {w : Word} {ext : List Word} (h : ext.length = extCount w) (rest : List Word) :
    wholeCommands (w :: (ext ++ rest)) = w :: (ext ++ wholeCommands rest) := by
  rw [wholeCommands, List.length_cons, wholeCommandsIn, if_neg (by simp [h]), List.take_left' h, List.drop_left' h,
    wholeCommandsIn_fuel _ rest.length rest (by simp) (Nat.le_refl _), wholeCommands]

/-- A command that is not all there goes. -/
theorem wholeCommands_half {w : Word} {rest : List Word} (h : rest.length < extCount w) :
    wholeCommands (w :: rest) = [] := by
  rw [wholeCommands, List.length_cons, wholeCommandsIn, if_pos h]

/-- Nothing waits where no whole command does. -/
theorem wholeCommands_of_idle {ws : List Word} (h : fetchCommand ws = .idle) : wholeCommands ws = [] := by
  cases ws with
  | nil => rfl
  | cons w rest =>
    refine wholeCommands_half ?_
    by_contra hl
    rw [fetchCommand, if_neg hl] at h
    split at h <;> cases h

end Sys2Proof
end

