-- ==== Sys2Proof/Laws/Values.lean ====
section
/-! SUPPORT. The values result words carry: little-endian values (41_buffer_typed.md R129), counts, and the sum
modulo 256 (00_scope.md R10). -/

namespace Sys2Proof.Machine

/-! ## Sums (00_scope.md R10) -/

@[simp] theorem sum8_nil : sum8 [] = 0 := rfl
@[simp] theorem sum8_cons (v : Byte) (vs : List Byte) : sum8 (v :: vs) = v + sum8 vs := rfl

theorem sum8_append : ∀ a b : List Byte, sum8 (a ++ b) = sum8 a + sum8 b
  | [], b => by simp
  | v :: a, b => by simp [sum8_append a b, BitVec.add_assoc]

/-- The checksum byte is the sum of the bytes as numbers, modulo 256. -/
theorem sum8_toNat : ∀ bs : List Byte, (sum8 bs).toNat = sumMod256 bs
  | [] => rfl
  | v :: vs => by
    have h := sum8_toNat vs
    simp only [sumMod256, List.map_cons, List.sum_cons] at h ⊢
    rw [sum8_cons, BitVec.toNat_add, h]
    show (v.toNat + _ % 256) % 256 = _
    rw [Nat.add_mod_mod]

theorem sum8_eq (bs : List Byte) : sum8 bs = BitVec.ofNat 8 (sumMod256 bs) := by
  rw [← sum8_toNat, BitVec.ofNat_toNat, BitVec.setWidth_eq]

theorem sumMod256_lt (bs : List Byte) : sumMod256 bs < 256 := Nat.mod_lt _ (by decide)

/-! ## Result words -/

theorem zextByte_eq (v : Byte) : zextByte v = BitVec.ofNat 32 v.toNat := by
  apply BitVec.eq_of_toNat_eq
  simp [zextByte]

theorem zextByte_sum8 (bs : List Byte) : zextByte (sum8 bs) = BitVec.ofNat 32 (sumMod256 bs) := by
  rw [zextByte_eq, sum8_toNat]

/-- A pair of 16-bit counts as one word. -/
theorem twoHalves_eq {hi lo : Nat} (hlo : lo < 65536) (hhi : hi < 65536) :
    twoHalves hi lo = BitVec.ofNat 32 (hi * 65536 + lo) := by
  apply BitVec.eq_of_toNat_eq
  show BitVec.toNat (w := 16 + 16) (BitVec.ofNat 16 hi ++ BitVec.ofNat 16 lo) = _
  rw [BitVec.toNat_append, BitVec.toNat_ofNat, BitVec.toNat_ofNat, BitVec.toNat_ofNat,
    Nat.mod_eq_of_lt (b := 2 ^ 16) hhi, Nat.mod_eq_of_lt (b := 2 ^ 16) hlo,
    Nat.mod_eq_of_lt (by omega), ← Nat.shiftLeft_add_eq_or_of_lt (b := lo) (i := 16) hlo, Nat.shiftLeft_eq]

theorem lowHalf_eq {n : Nat} (h : n < 65536) : lowHalf n = BitVec.ofNat 32 n := by
  have := twoHalves_eq h (show 0 < 65536 by decide)
  simpa [twoHalves, lowHalf] using this

theorem zextCount_eq (n : Nat) : zextCount n = BitVec.ofNat 32 n := rfl

/-! ## Little-endian values (41_buffer_typed.md R129) -/

theorem leWord_one (a : Byte) : leWord [a] = a.setWidth 32 := by simp [leWord]

/-- Two bytes, zero-extended. -/
theorem leWord_two (a b : Byte) : leWord [a, b] = (b ++ a : Half).setWidth 32 := by
  apply BitVec.eq_of_getLsbD_eq
  intro i hi
  rw [BitVec.getLsbD_setWidth, twoBytes_getLsbD]
  simp only [leWord, BitVec.getLsbD_or, BitVec.getLsbD_setWidth, BitVec.getLsbD_shiftLeft, hi, decide_true,
    Bool.true_and]
  by_cases h : i < 8
  · simp [h]
  · simp [h, show i - 8 < 32 by omega]; exact fun h2 => absurd (BitVec.lt_of_getLsbD h2) h

/-- Four bytes. -/
theorem leWord_four (a b c d : Byte) : leWord [a, b, c, d] = wordOfBytes a b c d := by
  apply BitVec.eq_of_getLsbD_eq
  intro i hi
  rw [wordOfBytes_getLsbD]
  simp only [leWord, BitVec.getLsbD_or, BitVec.getLsbD_setWidth, BitVec.getLsbD_shiftLeft, hi, decide_true,
    Bool.true_and]
  have hz : ∀ (v : Byte) (j : Nat), 8 ≤ j → v.getLsbD j = false := fun v j hj => BitVec.getLsbD_of_ge v j hj
  by_cases h1 : i < 8
  · simp [h1]
  · by_cases h2 : i < 16
    · simp [h1, h2, show i - 8 < 32 by omega, show i - 8 < 8 by omega, hz a i (by omega)]
    · by_cases h3 : i < 24
      · simp [h1, h2, h3, show i - 8 < 32 by omega, show i - 16 < 32 by omega, show i - 16 < 8 by omega,
          hz a i (by omega), hz b (i - 8) (by omega), show i - 8 - 8 = i - 16 by omega, show ¬ (i - 8 < 8) by omega]
      · simp [h1, h2, h3, show i - 8 < 32 by omega, show ¬ (i - 16 < 8) by omega, show i - 16 < 32 by omega,
          show i - 24 < 32 by omega, hz a i (by omega), hz b (i - 8) (by omega), hz c (i - 16) (by omega),
          show i - 8 - 8 = i - 16 by omega, show i - 16 - 8 = i - 24 by omega, show ¬ (i - 8 < 8) by omega]

/-- A 16-bit value is its two bytes. -/
theorem halfBytes_value (v : Half) : (v.extractLsb' 8 8 ++ v.extractLsb' 0 8 : Half) = v := by
  apply BitVec.eq_of_getLsbD_eq
  intro i hi
  rw [twoBytes_getLsbD]
  simp only [BitVec.getLsbD_extractLsb']
  split
  · next h => simp [h]
  · next h => simp [show i - 8 < 8 by omega, show 8 + (i - 8) = i by omega]

/-- The low half of a zero-extended 16-bit value, sign-extended. -/
theorem sextHalf_setWidth (h : Half) : sextHalf (h.setWidth 32) = h.signExtend 32 := by
  have : (h.setWidth 32).extractLsb' 0 16 = h := by
    apply BitVec.eq_of_getLsbD_eq
    intro i hi
    simp [hi, show i < 32 by omega]
  rw [sextHalf, this]

end Sys2Proof.Machine
end

