-- ==== Sys2Proof/Laws/Parser.lean ====
section
/-! SUPPORT. What one pass of the PARSE loop can do, said once, and the induction over its passes, packaged once
(42_parser.md R158). -/

namespace Sys2Proof.Machine

theorem Buffer.frameSize_ge (u : Nat → Byte) (b : Buffer) : Config.minFrame ≤ b.frameSize u := Nat.le_add_right _ _

/-- What each outcome of a pass means. -/
theorem Buffer.pass_cases (u : Nat → Byte) (magic : Half) (b : Buffer) :
    (b.pass u magic = .exit .short ∧ b.len < Config.minFrame) ∨
    (b.pass u magic = .resync ∧ Config.minFrame ≤ b.len ∧ b.header u ≠ magic) ∨
    (b.pass u magic = .exit .wait ∧ Config.minFrame ≤ b.len ∧ b.header u = magic ∧ b.len < b.frameSize u) ∨
    (b.pass u magic = .good ∧ b.header u = magic ∧ b.frameSize u ≤ b.len ∧
      b.checksumHolds u (b.frameSize u) = true) ∨
    (b.pass u magic = .bad ∧ b.header u = magic ∧ b.frameSize u ≤ b.len ∧
      b.checksumHolds u (b.frameSize u) = false) := by
  unfold Buffer.pass
  by_cases h1 : b.len < Config.minFrame
  · simp [h1]
  · by_cases h2 : b.header u = magic
    · by_cases h3 : b.len < b.frameSize u
      · simp [h1, h2, h3]; omega
      · by_cases h4 : b.checksumHolds u (b.frameSize u) = true
        · simp [h1, h2, h3, h4]; omega
        · simp only [Bool.not_eq_true] at h4
          simp [h1, h2, h3, h4]; omega
    · simp [h1, h2]; omega

/-- A pass that does not exit removes at least one byte (42_parser.md R158). -/
theorem ParseState.apply_len_lt (u : Nat → Byte) (magic : Half) (p : ParseState)
    (h : ∀ why, p.buf.pass u magic ≠ .exit why) : (p.apply u magic).buf.len < p.buf.len := by
  have hm : Config.minFrame = 5 := rfl
  have hf := Buffer.frameSize_ge u p.buf
  rcases Buffer.pass_cases u magic p.buf with ⟨hp, _⟩ | ⟨hp, hl, _⟩ | ⟨hp, _⟩ | ⟨hp, _, hl, _⟩ | ⟨hp, _, hl, _⟩
  · exact absurd hp (h _)
  · simp only [ParseState.apply, hp, Buffer.skip_len]; omega
  · exact absurd hp (h _)
  · simp only [ParseState.apply, hp, Buffer.skip_len]; omega
  · simp only [ParseState.apply, hp, Buffer.skip_len]; omega

/-- A pass that exits leaves the buffer, the counts and the records alone. -/
theorem ParseState.apply_exit (u : Nat → Byte) (magic : Half) (p : ParseState) {why : Stop}
    (h : p.buf.pass u magic = .exit why) :
    p.apply u magic =
      { p with unwritten := p.unwritten || p.buf.passUnwritten u magic, stop := why } := by
  simp [ParseState.apply, h]

/-- The induction over the passes of a PARSE: what every pass keeps, the loop keeps. -/
theorem parseLoop_keeps {u : Nat → Byte} {magic : Half} (P : ParseState → Prop)
    (h : ∀ p, P p → P (p.apply u magic)) : ∀ fuel p, P p → P (parseLoop u magic fuel p)
  | 0, p, hp => hp
  | fuel + 1, p, hp => by
    unfold parseLoop
    split
    · exact h p hp
    · exact parseLoop_keeps P h fuel _ (h p hp)
    · exact parseLoop_keeps P h fuel _ (h p hp)
    · exact parseLoop_keeps P h fuel _ (h p hp)

/-- With more passes than buffered bytes the loop reaches an exit, and STOP is that exit's reason
(42_parser.md R158). -/
theorem parseLoop_exits (u : Nat → Byte) (magic : Half) : ∀ fuel p, p.buf.len < fuel →
    (parseLoop u magic fuel p).buf.pass u magic = .exit (parseLoop u magic fuel p).stop
  | 0, p, h => absurd h (Nat.not_lt_zero _)
  | fuel + 1, p, h => by
    unfold parseLoop
    split
    · next why hp => simp [ParseState.apply_exit u magic p hp, hp]
    all_goals
      next hp =>
        refine parseLoop_exits u magic fuel _ ?_
        have := ParseState.apply_len_lt u magic p (by simp [hp])
        omega

/-- The parser never writes a cell and never changes the capacity (42_parser.md R150). -/
theorem ParseState.apply_mem (u : Nat → Byte) (magic : Half) (p : ParseState) :
    (p.apply u magic).buf.mem = p.buf.mem ∧ (p.apply u magic).buf.cap = p.buf.cap := by
  unfold ParseState.apply
  cases p.buf.pass u magic <;> simp

theorem ParseState.apply_wf (u : Nat → Byte) (magic : Half) (p : ParseState) (h : p.buf.wf) :
    (p.apply u magic).buf.wf := by
  unfold ParseState.apply
  cases p.buf.pass u magic
  · exact h
  · exact Buffer.skip_wf _ h
  · exact Buffer.skip_wf _ h
  · exact Buffer.skip_wf _ h

theorem runParse_mem (u : Nat → Byte) (magic : Half) (b : Buffer) :
    (runParse u magic b).buf.mem = b.mem ∧ (runParse u magic b).buf.cap = b.cap :=
  parseLoop_keeps (fun p => p.buf.mem = b.mem ∧ p.buf.cap = b.cap)
    (fun p hp => ⟨(p.apply_mem u magic).1.trans hp.1, (p.apply_mem u magic).2.trans hp.2⟩) _ _ ⟨rfl, rfl⟩

theorem runParse_wf (u : Nat → Byte) (magic : Half) {b : Buffer} (h : b.wf) : (runParse u magic b).buf.wf :=
  parseLoop_keeps (fun p => p.buf.wf) (fun p hp => p.apply_wf u magic hp) _ _ h

theorem runParse_exits (u : Nat → Byte) (magic : Half) (b : Buffer) :
    (runParse u magic b).buf.pass u magic = .exit (runParse u magic b).stop :=
  parseLoop_exits u magic _ _ (Nat.lt_succ_self _)

/-! ## One pass over a buffer that shows known bytes -/

theorem Buffer.header_of_shows {u : Nat → Byte} {b : Buffer} {bs : List Byte} (h : b.shows u bs) (hl : 5 ≤ bs.length) :
    b.header u = bs.getD 1 0 ++ bs.getD 0 0 := by
  rw [Buffer.header, h.2 1 (by omega), h.2 0 (by omega)]

theorem Buffer.frameSize_of_shows {u : Nat → Byte} {b : Buffer} {bs : List Byte} (h : b.shows u bs)
    (hl : 5 ≤ bs.length) : b.frameSize u = 5 + (bs.getD 3 0).toNat := by
  rw [Buffer.frameSize, h.2 3 (by omega)]; rfl

theorem Buffer.frameRecord_of_shows {u : Nat → Byte} {b : Buffer} {bs : List Byte} (h : b.shows u bs)
    (hl : 5 + (bs.getD 3 0).toNat ≤ bs.length) :
    b.frameRecord u =
      { opcode := bs.getD 2 0, n := bs.getD 3 0, payload := (bs.drop 4).take (bs.getD 3 0).toNat } := by
  rw [Buffer.frameRecord, h.2 2 (by omega), h.2 3 (by omega), Buffer.range_of_shows h (by omega)]

theorem Buffer.checksumHolds_of_shows {u : Nat → Byte} {b : Buffer} {bs : List Byte} (h : b.shows u bs) {n : Nat}
    (h0 : 0 < n) (hn : n ≤ bs.length) :
    b.checksumHolds u n = decide (sumMod256 (bs.take (n - 1)) = (bs.getD (n - 1) 0).toNat) := by
  rw [Buffer.checksumHolds, h.2 _ (by omega), Buffer.range_of_shows h (by omega), List.drop_zero,
    Bool.eq_iff_iff, beq_iff_eq, decide_eq_true_eq, ← sum8_toNat]
  exact ⟨congrArg _, BitVec.eq_of_toNat_eq⟩

theorem Buffer.header_of_holds {b : Buffer} {bs : List Byte} (h : b.holds bs) (u : Nat → Byte) (hl : 5 ≤ bs.length) :
    b.header u = bs.getD 1 0 ++ bs.getD 0 0 := Buffer.header_of_shows (Buffer.shows_of_holds h u) hl

theorem Buffer.frameSize_of_holds {b : Buffer} {bs : List Byte} (h : b.holds bs) (u : Nat → Byte)
    (hl : 5 ≤ bs.length) : b.frameSize u = 5 + (bs.getD 3 0).toNat :=
  Buffer.frameSize_of_shows (Buffer.shows_of_holds h u) hl

theorem Buffer.frameRecord_of_holds {b : Buffer} {bs : List Byte} (h : b.holds bs) (u : Nat → Byte)
    (hl : 5 + (bs.getD 3 0).toNat ≤ bs.length) :
    b.frameRecord u =
      { opcode := bs.getD 2 0, n := bs.getD 3 0, payload := (bs.drop 4).take (bs.getD 3 0).toNat } :=
  Buffer.frameRecord_of_shows (Buffer.shows_of_holds h u) hl

theorem Buffer.checksumHolds_of_holds {b : Buffer} {bs : List Byte} (h : b.holds bs) (u : Nat → Byte) {n : Nat}
    (h0 : 0 < n) (hn : n ≤ bs.length) :
    b.checksumHolds u n = decide (sumMod256 (bs.take (n - 1)) = (bs.getD (n - 1) 0).toNat) :=
  Buffer.checksumHolds_of_shows (Buffer.shows_of_holds h u) h0 hn

end Sys2Proof.Machine
end

