-- ==== Sys2Proof/Laws/State.lean ====
section
/-! SUPPORT. One lemma per field per update of State, so that no proof unfolds a record update. -/

namespace Sys2Proof.Machine

/-! ## setBuf -/

@[simp] theorem State.setBuf_buf_self (s : State) (sel : BufSel) (b : Buffer) : (s.setBuf sel b).buf sel = b := by
  cases sel <;> rfl

theorem State.setBuf_buf_ne (s : State) {sel sel' : BufSel} (b : Buffer) (h : sel' ≠ sel) :
    (s.setBuf sel b).buf sel' = s.buf sel' := by
  cases sel <;> cases sel' <;> first | rfl | exact absurd rfl h

@[simp] theorem State.setBuf_rxb (s : State) (b : Buffer) : (s.setBuf .rxb b).rxb = b := rfl
@[simp] theorem State.setBuf_txb (s : State) (b : Buffer) : (s.setBuf .txb b).txb = b := rfl
@[simp] theorem State.setBuf_rxb_txb (s : State) (b : Buffer) : (s.setBuf .rxb b).txb = s.txb := rfl
@[simp] theorem State.setBuf_txb_rxb (s : State) (b : Buffer) : (s.setBuf .txb b).rxb = s.rxb := rfl
@[simp] theorem State.setBuf_params (s : State) (sel : BufSel) (b : Buffer) : (s.setBuf sel b).params = s.params := by
  cases sel <;> rfl
@[simp] theorem State.setBuf_cmd (s : State) (sel : BufSel) (b : Buffer) : (s.setBuf sel b).cmd = s.cmd := by
  cases sel <;> rfl
@[simp] theorem State.setBuf_index (s : State) (sel : BufSel) (b : Buffer) : (s.setBuf sel b).index = s.index := by
  cases sel <;> rfl
@[simp] theorem State.setBuf_src (s : State) (sel : BufSel) (b : Buffer) : (s.setBuf sel b).src = s.src := by
  cases sel <;> rfl
@[simp] theorem State.setBuf_snk (s : State) (sel : BufSel) (b : Buffer) : (s.setBuf sel b).snk = s.snk := by
  cases sel <;> rfl
@[simp] theorem State.setBuf_dsp (s : State) (sel : BufSel) (b : Buffer) : (s.setBuf sel b).dsp = s.dsp := by
  cases sel <;> rfl
@[simp] theorem State.setBuf_responses (s : State) (sel : BufSel) (b : Buffer) :
    (s.setBuf sel b).responses = s.responses := by
  cases sel <;> rfl
@[simp] theorem State.setBuf_unwrittenRead (s : State) (sel : BufSel) (b : Buffer) :
    (s.setBuf sel b).unwrittenRead = s.unwrittenRead := by
  cases sel <;> rfl
@[simp] theorem State.setBuf_freeCount (s : State) (sel : BufSel) (b : Buffer) :
    (s.setBuf sel b).freeCount = s.freeCount := by
  cases sel <;> rfl

/-! ## record -/

@[simp] theorem State.record_buf (s : State) (t : Bool) (sel : BufSel) : (s.record t).buf sel = s.buf sel := by
  cases sel <;> rfl
@[simp] theorem State.record_rxb (s : State) (t : Bool) : (s.record t).rxb = s.rxb := rfl
@[simp] theorem State.record_txb (s : State) (t : Bool) : (s.record t).txb = s.txb := rfl
@[simp] theorem State.record_params (s : State) (t : Bool) : (s.record t).params = s.params := rfl
@[simp] theorem State.record_cmd (s : State) (t : Bool) : (s.record t).cmd = s.cmd := rfl
@[simp] theorem State.record_index (s : State) (t : Bool) : (s.record t).index = s.index := rfl
@[simp] theorem State.record_src (s : State) (t : Bool) : (s.record t).src = s.src := rfl
@[simp] theorem State.record_snk (s : State) (t : Bool) : (s.record t).snk = s.snk := rfl
@[simp] theorem State.record_dsp (s : State) (t : Bool) : (s.record t).dsp = s.dsp := rfl
@[simp] theorem State.record_responses (s : State) (t : Bool) : (s.record t).responses = s.responses := rfl
@[simp] theorem State.record_unwrittenRead (s : State) (t : Bool) :
    (s.record t).unwrittenRead = (s.unwrittenRead || t) := rfl
@[simp] theorem State.record_freeCount (s : State) (t : Bool) :
    (s.record t).freeCount = if t then s.freeCount + 1 else s.freeCount := rfl

/-! ## deliver -/

@[simp] theorem State.deliver_buf (s : State) (r : Response) (sel : BufSel) : (s.deliver r).buf sel = s.buf sel := by
  cases sel <;> rfl
@[simp] theorem State.deliver_rxb (s : State) (r : Response) : (s.deliver r).rxb = s.rxb := rfl
@[simp] theorem State.deliver_txb (s : State) (r : Response) : (s.deliver r).txb = s.txb := rfl
@[simp] theorem State.deliver_params (s : State) (r : Response) : (s.deliver r).params = s.params := rfl
@[simp] theorem State.deliver_cmd (s : State) (r : Response) : (s.deliver r).cmd = s.cmd := rfl
@[simp] theorem State.deliver_index (s : State) (r : Response) : (s.deliver r).index = s.index := rfl
@[simp] theorem State.deliver_src (s : State) (r : Response) : (s.deliver r).src = s.src := rfl
@[simp] theorem State.deliver_snk (s : State) (r : Response) : (s.deliver r).snk = s.snk ++ r.snk := rfl
@[simp] theorem State.deliver_dsp (s : State) (r : Response) : (s.deliver r).dsp = s.dsp ++ r.dsp := rfl
@[simp] theorem State.deliver_responses (s : State) (r : Response) :
    (s.deliver r).responses = s.responses ++ [r] := rfl
@[simp] theorem State.deliver_unwrittenRead (s : State) (r : Response) :
    (s.deliver r).unwrittenRead = s.unwrittenRead := rfl
@[simp] theorem State.deliver_freeCount (s : State) (r : Response) : (s.deliver r).freeCount = s.freeCount := rfl

/-! ## finish -/

@[simp] theorem State.finish_buf_self (s : State) (sel : BufSel) (b : Buffer) (t : Bool) (r : Response) :
    (s.finish sel b t r).buf sel = b := by simp [State.finish]

theorem State.finish_buf_ne (s : State) {sel sel' : BufSel} (b : Buffer) (t : Bool) (r : Response)
    (h : sel' ≠ sel) : (s.finish sel b t r).buf sel' = s.buf sel' := by
  simp [State.finish, State.setBuf_buf_ne s b h]

@[simp] theorem State.finish_rxb (s : State) (b : Buffer) (t : Bool) (r : Response) :
    (s.finish .rxb b t r).rxb = b := rfl
@[simp] theorem State.finish_txb (s : State) (b : Buffer) (t : Bool) (r : Response) :
    (s.finish .txb b t r).txb = b := rfl
@[simp] theorem State.finish_rxb_txb (s : State) (b : Buffer) (t : Bool) (r : Response) :
    (s.finish .rxb b t r).txb = s.txb := rfl
@[simp] theorem State.finish_txb_rxb (s : State) (b : Buffer) (t : Bool) (r : Response) :
    (s.finish .txb b t r).rxb = s.rxb := rfl
@[simp] theorem State.finish_params (s : State) (sel : BufSel) (b : Buffer) (t : Bool) (r : Response) :
    (s.finish sel b t r).params = s.params := by simp [State.finish]
@[simp] theorem State.finish_cmd (s : State) (sel : BufSel) (b : Buffer) (t : Bool) (r : Response) :
    (s.finish sel b t r).cmd = s.cmd := by simp [State.finish]
@[simp] theorem State.finish_index (s : State) (sel : BufSel) (b : Buffer) (t : Bool) (r : Response) :
    (s.finish sel b t r).index = s.index := by simp [State.finish]
@[simp] theorem State.finish_src (s : State) (sel : BufSel) (b : Buffer) (t : Bool) (r : Response) :
    (s.finish sel b t r).src = s.src := by simp [State.finish]
@[simp] theorem State.finish_snk (s : State) (sel : BufSel) (b : Buffer) (t : Bool) (r : Response) :
    (s.finish sel b t r).snk = s.snk ++ r.snk := by simp [State.finish]
@[simp] theorem State.finish_dsp (s : State) (sel : BufSel) (b : Buffer) (t : Bool) (r : Response) :
    (s.finish sel b t r).dsp = s.dsp ++ r.dsp := by simp [State.finish]
@[simp] theorem State.finish_responses (s : State) (sel : BufSel) (b : Buffer) (t : Bool) (r : Response) :
    (s.finish sel b t r).responses = s.responses ++ [r] := by simp [State.finish]
@[simp] theorem State.finish_unwrittenRead (s : State) (sel : BufSel) (b : Buffer) (t : Bool) (r : Response) :
    (s.finish sel b t r).unwrittenRead = (s.unwrittenRead || t) := by simp [State.finish]
@[simp] theorem State.finish_freeCount (s : State) (sel : BufSel) (b : Buffer) (t : Bool) (r : Response) :
    (s.finish sel b t r).freeCount = if t then s.freeCount + 1 else s.freeCount := by simp [State.finish]

/-! ## accept, refuse, tick, dropBurst, issueWords, idle, blockReset -/

@[simp] theorem State.accept_buf (s : State) (n : Nat) (sel : BufSel) : (s.accept n).buf sel = s.buf sel := by
  cases sel <;> rfl
@[simp] theorem State.accept_rxb (s : State) (n : Nat) : (s.accept n).rxb = s.rxb := rfl
@[simp] theorem State.accept_txb (s : State) (n : Nat) : (s.accept n).txb = s.txb := rfl
@[simp] theorem State.accept_params (s : State) (n : Nat) : (s.accept n).params = s.params := rfl
@[simp] theorem State.accept_cmd (s : State) (n : Nat) : (s.accept n).cmd = s.cmd.drop n := rfl
@[simp] theorem State.accept_index (s : State) (n : Nat) : (s.accept n).index = s.index + 1 := rfl
@[simp] theorem State.accept_src (s : State) (n : Nat) : (s.accept n).src = s.src := rfl
@[simp] theorem State.accept_snk (s : State) (n : Nat) : (s.accept n).snk = s.snk := rfl
@[simp] theorem State.accept_dsp (s : State) (n : Nat) : (s.accept n).dsp = s.dsp := rfl
@[simp] theorem State.accept_responses (s : State) (n : Nat) : (s.accept n).responses = s.responses := rfl
@[simp] theorem State.accept_unwrittenRead (s : State) (n : Nat) : (s.accept n).unwrittenRead = s.unwrittenRead := rfl
@[simp] theorem State.accept_freeCount (s : State) (n : Nat) : (s.accept n).freeCount = s.freeCount := rfl

@[simp] theorem State.tick_buf (s : State) (sel : BufSel) : s.tick.buf sel = s.buf sel := by cases sel <;> rfl
@[simp] theorem State.tick_rxb (s : State) : s.tick.rxb = s.rxb := rfl
@[simp] theorem State.tick_txb (s : State) : s.tick.txb = s.txb := rfl
@[simp] theorem State.tick_params (s : State) : s.tick.params = s.params := rfl
@[simp] theorem State.tick_cmd (s : State) : s.tick.cmd = s.cmd := rfl
@[simp] theorem State.tick_index (s : State) : s.tick.index = s.index + 1 := rfl
@[simp] theorem State.tick_src (s : State) : s.tick.src = s.src := rfl
@[simp] theorem State.tick_snk (s : State) : s.tick.snk = s.snk := rfl
@[simp] theorem State.tick_dsp (s : State) : s.tick.dsp = s.dsp := rfl
@[simp] theorem State.tick_responses (s : State) : s.tick.responses = s.responses := rfl
@[simp] theorem State.tick_unwrittenRead (s : State) : s.tick.unwrittenRead = s.unwrittenRead := rfl
@[simp] theorem State.tick_freeCount (s : State) : s.tick.freeCount = s.freeCount := rfl

@[simp] theorem State.dropBurst_buf (s : State) (sel : BufSel) : s.dropBurst.buf sel = s.buf sel := by
  cases sel <;> rfl
@[simp] theorem State.dropBurst_rxb (s : State) : s.dropBurst.rxb = s.rxb := rfl
@[simp] theorem State.dropBurst_txb (s : State) : s.dropBurst.txb = s.txb := rfl
@[simp] theorem State.dropBurst_params (s : State) : s.dropBurst.params = s.params := rfl
@[simp] theorem State.dropBurst_cmd (s : State) : s.dropBurst.cmd = s.cmd := rfl
@[simp] theorem State.dropBurst_index (s : State) : s.dropBurst.index = s.index := rfl
@[simp] theorem State.dropBurst_src (s : State) : s.dropBurst.src = s.src.tail := rfl
@[simp] theorem State.dropBurst_snk (s : State) : s.dropBurst.snk = s.snk := rfl
@[simp] theorem State.dropBurst_dsp (s : State) : s.dropBurst.dsp = s.dsp := rfl
@[simp] theorem State.dropBurst_responses (s : State) : s.dropBurst.responses = s.responses := rfl
@[simp] theorem State.dropBurst_unwrittenRead (s : State) : s.dropBurst.unwrittenRead = s.unwrittenRead := rfl
@[simp] theorem State.dropBurst_freeCount (s : State) : s.dropBurst.freeCount = s.freeCount := rfl

@[simp] theorem State.issueWords_cmd (s : State) (ws : List Word) : (s.issueWords ws).cmd = s.cmd ++ ws := rfl
@[simp] theorem State.idle_eq (s : State) : s.idle = s := rfl
@[simp] theorem State.withFetchWord_cmd (s : State) (nbits w : Nat) :
    (s.withFetchWord nbits w).cmd = tableWords nbits w ++ s.cmd := rfl

@[simp] theorem State.blockReset_rxb (s : State) : s.blockReset.rxb = s.rxb.init := rfl
@[simp] theorem State.blockReset_txb (s : State) : s.blockReset.txb = s.txb.init := rfl
@[simp] theorem State.blockReset_buf (s : State) (sel : BufSel) : s.blockReset.buf sel = (s.buf sel).init := by
  cases sel <;> rfl
@[simp] theorem State.blockReset_params (s : State) : s.blockReset.params = s.params := rfl
@[simp] theorem State.blockReset_cmd (s : State) : s.blockReset.cmd = wholeCommands s.cmd := rfl
@[simp] theorem State.blockReset_index (s : State) : s.blockReset.index = s.index := rfl
@[simp] theorem State.blockReset_src (s : State) : s.blockReset.src = s.src := rfl
@[simp] theorem State.blockReset_snk (s : State) : s.blockReset.snk = s.snk := rfl
@[simp] theorem State.blockReset_dsp (s : State) : s.blockReset.dsp = s.dsp := rfl
@[simp] theorem State.blockReset_responses (s : State) : s.blockReset.responses = s.responses := rfl
@[simp] theorem State.blockReset_unwrittenRead (s : State) : s.blockReset.unwrittenRead = s.unwrittenRead := rfl
@[simp] theorem State.blockReset_freeCount (s : State) : s.blockReset.freeCount = s.freeCount := rfl

/-- A response appends its transfers to what has been delivered on CMD. -/
theorem State.cmdOut_responded {s t : State} {r : Response} (h : t.responses = s.responses ++ [r]) :
    t.cmdOut = s.cmdOut ++ r.onCmd := by simp [State.cmdOut, h]

@[simp] theorem State.buf_rxb (s : State) : s.buf .rxb = s.rxb := rfl
@[simp] theorem State.buf_txb (s : State) : s.buf .txb = s.txb := rfl

/-- RESP_MAGIC and the unknown bytes depend on the configuration and the draw alone. -/
theorem State.respMagic_congr {s t : State} (h : t.params = s.params) : t.respMagic = s.respMagic := by
  simp [State.respMagic, h]
theorem State.unknown_congr {s t : State} (h : t.freeCount = s.freeCount) : t.unknown = s.unknown := by
  simp [State.unknown, h]

end Sys2Proof.Machine
end

