-- ==== Sys2Proof/Laws/Exec.lean ====
section
/-! SUPPORT. What any command can do, said once: every outcome of `exec` is `finish` on one instance, with what the
new contents keep of the old. -/

namespace Sys2Proof.Machine

/-! ## What every operation keeps, whatever the buffer -/

theorem Buffer.appendList_cap : ∀ (d : List Byte) (b : Buffer), (Buffer.appendList d b).buf.cap = b.cap
  | [], _ => rfl
  | v :: vs, b => by
    simp only [Buffer.appendList]
    split
    · exact Buffer.appendList_cap vs b
    · exact Buffer.appendList_cap vs (b.push v)

/-- An append loses no written cell. -/
theorem Buffer.appendList_keeps : ∀ (d : List Byte) (b : Buffer) (a : Nat), b.mem.read a ≠ none →
    (Buffer.appendList d b).buf.mem.read a ≠ none
  | [], _, _, h => h
  | v :: vs, b, a, h => by
    simp only [Buffer.appendList]
    split
    · exact Buffer.appendList_keeps vs b a h
    · refine Buffer.appendList_keeps vs (b.push v) a ?_
      by_cases ha : a = b.index b.len
      · subst ha; simp
      · rw [Buffer.push_mem, Memory.read_write_other _ _ _ _ ha]; exact h

theorem Buffer.popN_mem_cap (u : Nat → Byte) : ∀ (n : Nat) (b : Buffer),
    (Buffer.popN u n b).buf.mem = b.mem ∧ (Buffer.popN u n b).buf.cap = b.cap
  | 0, _ => ⟨rfl, rfl⟩
  | n + 1, b => by
    simp only [Buffer.popN]
    split
    · exact Buffer.popN_mem_cap u n b
    · exact Buffer.popN_mem_cap u n (b.skip 1)

theorem Buffer.buildRequest_cap (u : Nat → Byte) (op : Byte) (d : List Byte) (b : Buffer) :
    (b.buildRequest u op d).buf.cap = b.cap := by
  simp [Buffer.buildRequest, Buffer.appendList_cap]

theorem Buffer.buildRequest_keeps (u : Nat → Byte) (op : Byte) (d : List Byte) (b : Buffer) (a : Nat)
    (h : b.mem.read a ≠ none) : (b.buildRequest u op d).buf.mem.read a ≠ none :=
  Buffer.appendList_keeps _ _ _ (Buffer.appendList_keeps _ b.clear _ h)

theorem Buffer.buildRequest_wf (u : Nat → Byte) (op : Byte) (d : List Byte) {b : Buffer} (h : b.wf) :
    (b.buildRequest u op d).buf.wf :=
  Buffer.appendList_wf _ (Buffer.appendList_wf _ (Buffer.clear_wf h))

/-! ## Written live cells stay written, but for BUF_BACK (60_exceptions.md R203) -/

theorem Buffer.skip_liveWritten {b : Buffer} {k : Nat} (h : b.liveWritten) : (b.skip k).liveWritten := by
  intro j hj
  rw [Buffer.skip_len] at hj
  rw [Buffer.skip_cellAt]
  exact h _ (by omega)

theorem Buffer.appendList_liveWritten (d : List Byte) {b : Buffer} (hw : b.wf) (h : b.liveWritten) :
    (Buffer.appendList d b).buf.liveWritten := by
  obtain ⟨h1, h2, h3, h4, h5, h6⟩ := hw
  obtain ⟨-, -, -, -, hl⟩ := Buffer.appendList_spec d b h4
  intro k hk
  rw [hl] at hk
  rw [Buffer.appendList_cellAt d b k h4 (by omega)]
  split
  · next hd => rw [List.getElem?_eq_getElem (by omega)]; rfl
  · next hd => exact h k (by omega)

theorem Buffer.clear_liveWritten (b : Buffer) : b.clear.liveWritten := fun k hk => absurd hk (Nat.not_lt_zero k)

theorem Buffer.init_liveWritten (b : Buffer) : b.init.liveWritten := fun k hk => absurd hk (Nat.not_lt_zero k)

theorem Buffer.popN_liveWritten (u : Nat → Byte) (n : Nat) {b : Buffer} (hw : b.wf) (h : b.liveWritten) :
    (Buffer.popN u n b).buf.liveWritten ∧ (Buffer.popN u n b).unwritten = false := by
  rw [Buffer.popN_spec u n b hw.2.2.1]
  exact ⟨Buffer.skip_liveWritten h, Buffer.unwrittenIn_of_liveWritten h (by omega)⟩

theorem Buffer.buildRequest_liveWritten (u : Nat → Byte) (op : Byte) (d : List Byte) {b : Buffer} (hw : b.wf) :
    (b.buildRequest u op d).buf.liveWritten ∧ (b.buildRequest u op d).unwritten = false := by
  have h1 := Buffer.appendList_liveWritten (requestFrame op d).body (Buffer.clear_wf hw) (Buffer.clear_liveWritten b)
  have h2 := Buffer.appendList_wf (requestFrame op d).body (Buffer.clear_wf hw)
  exact ⟨Buffer.appendList_liveWritten _ h2 h1, Buffer.unwrittenIn_of_liveWritten h1 (by omega)⟩

theorem Buffer.passUnwritten_of_liveWritten {u : Nat → Byte} {magic : Half} {b : Buffer} (h : b.liveWritten) :
    b.passUnwritten u magic = false := by
  have hm : Config.minFrame = 5 := rfl
  rcases Buffer.pass_cases u magic b with h1 | h1 | h1 | h1 | h1 <;> rw [Buffer.passUnwritten, h1.1]
  · exact Buffer.unwrittenIn_of_liveWritten h (by omega)
  · exact Buffer.unwrittenIn_of_liveWritten h (by omega)
  · exact Buffer.unwrittenIn_of_liveWritten h (by omega)
  · exact Buffer.unwrittenIn_of_liveWritten h (by omega)

theorem runParse_liveWritten (u : Nat → Byte) (magic : Half) {b : Buffer} (h : b.liveWritten) :
    (runParse u magic b).buf.liveWritten ∧ (runParse u magic b).unwritten = false :=
  parseLoop_keeps (fun p => p.buf.liveWritten ∧ p.unwritten = false) (fun p hp => by
    have hu := Buffer.passUnwritten_of_liveWritten (u := u) (magic := magic) hp.1
    unfold ParseState.apply
    cases p.buf.pass u magic <;> simp only [hu, hp.2, Bool.or_false, and_true]
    · exact hp.1
    all_goals exact Buffer.skip_liveWritten hp.1) _ _ ⟨h, rfl⟩

/-! ## Every command -/

/-- The state a command's effect starts from: INGEST takes a burst from the source (42_parser.md R165). -/
def State.sourced (i : Instr) (s : State) : State := if i = .ingest then s.dropBurst else s

@[simp] theorem State.sourced_params (i : Instr) (s : State) : (s.sourced i).params = s.params := by
  unfold State.sourced; split <;> rfl
@[simp] theorem State.sourced_buf (i : Instr) (s : State) (b : BufSel) : (s.sourced i).buf b = s.buf b := by
  unfold State.sourced; split <;> simp
@[simp] theorem State.sourced_rxb (i : Instr) (s : State) : (s.sourced i).rxb = s.rxb := by
  unfold State.sourced; split <;> rfl
@[simp] theorem State.sourced_txb (i : Instr) (s : State) : (s.sourced i).txb = s.txb := by
  unfold State.sourced; split <;> rfl
@[simp] theorem State.sourced_responses (i : Instr) (s : State) : (s.sourced i).responses = s.responses := by
  unfold State.sourced; split <;> rfl
@[simp] theorem State.sourced_cmd (i : Instr) (s : State) : (s.sourced i).cmd = s.cmd := by
  unfold State.sourced; split <;> rfl
@[simp] theorem State.sourced_index (i : Instr) (s : State) : (s.sourced i).index = s.index := by
  unfold State.sourced; split <;> rfl
@[simp] theorem State.sourced_snk (i : Instr) (s : State) : (s.sourced i).snk = s.snk := by
  unfold State.sourced; split <;> rfl
@[simp] theorem State.sourced_dsp (i : Instr) (s : State) : (s.sourced i).dsp = s.dsp := by
  unfold State.sourced; split <;> rfl
@[simp] theorem State.sourced_unwrittenRead (i : Instr) (s : State) :
    (s.sourced i).unwrittenRead = s.unwrittenRead := by
  unfold State.sourced; split <;> rfl
@[simp] theorem State.sourced_freeCount (i : Instr) (s : State) : (s.sourced i).freeCount = s.freeCount := by
  unfold State.sourced; split <;> rfl

/-- What the new contents `b'` of the instance `i` acts on keep of the old ones, `b`, and which ports the response `r`
speaks to. -/
structure Keeps (i : Instr) (b b' : Buffer) (touched : Bool) (r : Response) : Prop where
  cap : b'.cap = b.cap
  wf : b.wf → b'.wf
  mem : writesCells i = false → b'.mem = b.mem
  cells : (∀ sel, i ≠ .bufInit sel) → ∀ a, b.mem.read a ≠ none → b'.mem.read a ≠ none
  live : (∀ sel k, i ≠ .bufBack sel k) → b.wf → b.liveWritten → b'.liveWritten ∧ touched = false
  dsp : i ≠ .parse → i ≠ .ingest → r.dsp = []
  snk : i ≠ .drain → (∀ op d, i ≠ .issue op d) → r.snk = []

/-- The same contents. -/
theorem Keeps.same {i : Instr} {b : Buffer} {touched : Bool} {r : Response}
    (ht : b.liveWritten → touched = false) (hd : r.dsp = []) (hs : r.snk = []) : Keeps i b b touched r :=
  ⟨rfl, id, fun _ => rfl, fun _ _ h => h, fun _ _ h => ⟨h, ht h⟩, fun _ _ => hd, fun _ _ => hs⟩

/-- A command that pops. -/
theorem Keeps.pop {i : Instr} {u : Nat → Byte} {n : Nat} {b : Buffer} {r : Response} (hd : r.dsp = [])
    (hs : i ≠ .drain → (∀ op d, i ≠ .issue op d) → r.snk = []) :
    Keeps i b (Buffer.popN u n b).buf (Buffer.popN u n b).unwritten r where
  cap := (Buffer.popN_mem_cap u n b).2
  wf := Buffer.popN_wf u n
  mem := fun _ => (Buffer.popN_mem_cap u n b).1
  cells := fun _ a h => by rw [(Buffer.popN_mem_cap u n b).1]; exact h
  live := fun _ => Buffer.popN_liveWritten u n
  dsp := fun _ _ => hd
  snk := hs

/-- A command that appends. -/
theorem Keeps.append {i : Instr} {d : List Byte} {b : Buffer} {touched : Bool} {r : Response}
    (hw : writesCells i = true) (ht : b.liveWritten → touched = false) (hd : r.dsp = []) (hs : r.snk = []) :
    Keeps i b (Buffer.appendList d b).buf touched r where
  cap := Buffer.appendList_cap d b
  wf := Buffer.appendList_wf d
  mem := fun h => by rw [hw] at h; cases h
  cells := fun _ => Buffer.appendList_keeps d b
  live := fun _ h1 h2 => ⟨Buffer.appendList_liveWritten d h1 h2, ht h2⟩
  dsp := fun _ _ => hd
  snk := fun _ _ => hs

/-- PARSE. -/
theorem Keeps.parse {u : Nat → Byte} {magic : Half} {b : Buffer} {st : Status} {hi : Nat} :
    Keeps .parse b (runParse u magic b).buf (runParse u magic b).unwritten ((runParse u magic b).response st hi) where
  cap := (runParse_mem u magic b).2
  wf := runParse_wf u magic
  mem := fun _ => (runParse_mem u magic b).1
  cells := fun _ a h => by rw [(runParse_mem u magic b).1]; exact h
  live := fun _ _ => runParse_liveWritten u magic
  dsp := fun h => absurd rfl h
  snk := fun _ _ => rfl

/-- INGEST. -/
theorem Keeps.ingest {u : Nat → Byte} {magic : Half} {d : List Byte} {b : Buffer} {st : Status} {hi : Nat} :
    Keeps .ingest b (runParse u magic (Buffer.appendList d b).buf).buf
      (runParse u magic (Buffer.appendList d b).buf).unwritten
      ((runParse u magic (Buffer.appendList d b).buf).response st hi) where
  cap := (runParse_mem u magic _).2.trans (Buffer.appendList_cap d b)
  wf := fun h => runParse_wf u magic (Buffer.appendList_wf d h)
  mem := fun h => by cases h
  cells := fun _ a h => by rw [(runParse_mem u magic _).1]; exact Buffer.appendList_keeps d b a h
  live := fun _ h1 h2 => runParse_liveWritten u magic (Buffer.appendList_liveWritten d h1 h2)
  dsp := fun _ h => absurd rfl h
  snk := fun _ _ => rfl

/-- ISSUE. -/
theorem Keeps.issue {u : Nat → Byte} {op : Byte} {d : List Byte} {n : Nat} {b : Buffer} {r : Response}
    (hd : r.dsp = []) :
    Keeps (.issue op d) b (Buffer.popN u n (b.buildRequest u op d).buf).buf
      ((b.buildRequest u op d).unwritten || (Buffer.popN u n (b.buildRequest u op d).buf).unwritten) r where
  cap := (Buffer.popN_mem_cap u n _).2.trans (Buffer.buildRequest_cap u op d b)
  wf := fun h => Buffer.popN_wf u n (Buffer.buildRequest_wf u op d h)
  mem := fun h => by cases h
  cells := fun _ a h => by rw [(Buffer.popN_mem_cap u n _).1]; exact Buffer.buildRequest_keeps u op d b a h
  live := fun _ h1 _ => by
    obtain ⟨h3, h4⟩ := Buffer.buildRequest_liveWritten u op d h1
    obtain ⟨h5, h6⟩ := Buffer.popN_liveWritten u n (Buffer.buildRequest_wf u op d h1) h3
    exact ⟨h5, by rw [h4, h6]; rfl⟩
  dsp := fun _ _ => hd
  snk := fun _ h => absurd rfl (h op d)

/-- What `exec` can do: it hangs on an INGEST from an endless source, or it finishes on the command's instance with one
response. -/
theorem exec_cases (i : Instr) (s : State) :
    (i = .ingest ∧ s.nextBurst = .endless ∧ exec i s = .fault .ingestHang) ∨
    (¬ (i = .ingest ∧ s.nextBurst = .endless) ∧ ∃ b touched r,
      exec i s = .next ((s.sourced i).finish (instanceOf i) b touched r) ∧
      Keeps i (s.buf (instanceOf i)) b touched r) := by
  have hu : ∀ {b : Buffer}, b.liveWritten → b.unwrittenIn 0 b.len = false :=
    fun h => Buffer.unwrittenIn_of_liveWritten h (by omega)
  cases i with
  | bufInit b =>
    exact .inr ⟨by simp, _, _, _, rfl, rfl, Buffer.init_wf, nofun, fun h => absurd rfl (h b),
      fun _ _ _ => ⟨Buffer.init_liveWritten _, rfl⟩, fun _ _ => rfl, fun _ _ => rfl⟩
  | bufClear b =>
    exact .inr ⟨by simp, _, _, _, rfl, rfl, Buffer.clear_wf, fun _ => rfl, fun _ _ h => h,
      fun _ _ _ => ⟨Buffer.clear_liveWritten _, rfl⟩, fun _ _ => rfl, fun _ _ => rfl⟩
  | bufWrite b v => exact .inr ⟨by simp, _, _, _, rfl, Keeps.append rfl (fun _ => rfl) rfl rfl⟩
  | bufWriteN b d => exact .inr ⟨by simp, _, _, _, rfl, Keeps.append rfl (fun _ => rfl) rfl rfl⟩
  | bufRead b => exact .inr ⟨by simp, _, _, _, rfl, Keeps.pop rfl (fun _ _ => rfl)⟩
  | bufReadN b n => exact .inr ⟨by simp, _, _, _, rfl, Keeps.pop rfl (fun _ _ => rfl)⟩
  | bufForward b k =>
    refine .inr ⟨by simp, _, _, _, rfl, ?_⟩
    split
    · exact Keeps.same (fun _ => rfl) rfl rfl
    · exact ⟨rfl, Buffer.skip_wf _, fun _ => rfl, fun _ _ h => h, fun _ _ h => ⟨Buffer.skip_liveWritten h, rfl⟩,
        fun _ _ => rfl, fun _ _ => rfl⟩
  | bufBack b k =>
    refine .inr ⟨by simp, _, _, _, rfl, ?_⟩
    split
    · exact Keeps.same (fun _ => rfl) rfl rfl
    · next h =>
      refine ⟨rfl, fun hw => Buffer.rewind_wf hw ?_, fun _ => rfl, fun _ _ h => h, fun h => absurd rfl (h b k),
        fun _ _ => rfl, fun _ _ => rfl⟩
      simp only [backNoop] at h
      split at h <;> simp only [decide_eq_true_eq] at h <;> omega
  | bufChecksum b => exact .inr ⟨by simp, _, _, _, rfl, Keeps.same hu rfl rfl⟩
  | bufWrcsum b => exact .inr ⟨by simp, _, _, _, rfl, Keeps.append rfl hu rfl rfl⟩
  | bufWrcsumR b start stop =>
    by_cases h : start.toNat ≤ stop.toNat ∧ stop.toNat ≤ (s.buf b).len
    · refine .inr ⟨by simp, _, _, _, if_pos h, Keeps.append rfl (fun hl => ?_) rfl rfl⟩
      exact Buffer.unwrittenIn_of_liveWritten hl (by simp only [instanceOf]; omega)
    · exact .inr ⟨by simp, _, _, _, if_neg h, Keeps.same (fun _ => rfl) rfl rfl⟩
  | bufStat b => exact .inr ⟨by simp, _, _, _, rfl, Keeps.same (fun _ => rfl) rfl rfl⟩
  | bufWriteU16 b v => exact .inr ⟨by simp, _, _, _, rfl, Keeps.append rfl (fun _ => rfl) rfl rfl⟩
  | bufWriteI16 b v => exact .inr ⟨by simp, _, _, _, rfl, Keeps.append rfl (fun _ => rfl) rfl rfl⟩
  | bufWriteU32 b v => exact .inr ⟨by simp, _, _, _, rfl, Keeps.append rfl (fun _ => rfl) rfl rfl⟩
  | bufWriteI32 b v => exact .inr ⟨by simp, _, _, _, rfl, Keeps.append rfl (fun _ => rfl) rfl rfl⟩
  | bufWriteF32 b v => exact .inr ⟨by simp, _, _, _, rfl, Keeps.append rfl (fun _ => rfl) rfl rfl⟩
  | bufReadU16 b => exact .inr ⟨by simp, _, _, _, rfl, Keeps.pop rfl (fun _ _ => rfl)⟩
  | bufReadI16 b => exact .inr ⟨by simp, _, _, _, rfl, Keeps.pop rfl (fun _ _ => rfl)⟩
  | bufReadU32 b => exact .inr ⟨by simp, _, _, _, rfl, Keeps.pop rfl (fun _ _ => rfl)⟩
  | bufReadI32 b => exact .inr ⟨by simp, _, _, _, rfl, Keeps.pop rfl (fun _ _ => rfl)⟩
  | bufReadF32 b => exact .inr ⟨by simp, _, _, _, rfl, Keeps.pop rfl (fun _ _ => rfl)⟩
  | parse => exact .inr ⟨by simp, _, _, _, rfl, Keeps.parse⟩
  | ingest =>
    cases h : s.nextBurst with
    | endless => exact .inl ⟨rfl, rfl, by simp [exec, execIngest, h]⟩
    | bytes d => exact .inr ⟨by simp, _, _, _, by simp only [exec, execIngest, h]; rfl, Keeps.ingest⟩
  | buildRequest op d =>
    refine .inr ⟨by simp, _, _, _, rfl, Buffer.buildRequest_cap _ op d _, Buffer.buildRequest_wf _ op d, nofun,
      fun _ => Buffer.buildRequest_keeps _ op d _, fun _ hw _ => Buffer.buildRequest_liveWritten _ op d hw,
      fun _ _ => rfl, fun _ _ => rfl⟩
  | drain => exact .inr ⟨by simp, _, _, _, rfl, Keeps.pop rfl (fun h => absurd rfl h)⟩
  | issue op d => exact .inr ⟨by simp, _, _, _, rfl, Keeps.issue rfl⟩

/-- A next state is a `finish`. -/
theorem exec_next {i : Instr} {s t : State} (h : exec i s = .next t) : ∃ b touched r,
    t = (s.sourced i).finish (instanceOf i) b touched r ∧ Keeps i (s.buf (instanceOf i)) b touched r := by
  rcases exec_cases i s with ⟨_, _, h2⟩ | ⟨_, b, touched, r, h2, hk⟩
  · rw [h] at h2; cases h2
  · rw [h] at h2; cases h2; exact ⟨b, touched, r, rfl, hk⟩

/-- What a step can do: nothing where no whole command waits, a command, or the refusal of an encoding. -/
theorem step_cases {s t : State} (h : step s = .next t) :
    (fetchCommand s.cmd = .idle ∧ t = s) ∨
    (∃ i n, fetchCommand s.cmd = .command i n ∧ exec i (s.accept n) = .next t) ∨
    ∃ e n, fetchCommand s.cmd = .rejected e n ∧ t = (s.accept n).refuse := by
  unfold step at h
  split at h
  · next hf => cases h; exact .inl ⟨hf, rfl⟩
  · next i n hf => exact .inr (.inl ⟨i, n, hf, h⟩)
  · next e n hf => cases h; exact .inr (.inr ⟨e, n, hf, rfl⟩)

/-! ## What a command on one instance leaves alone, and the effects of appending and taking -/

theorem State.sameOutside_finish {s : State} {b : BufSel} {b' : Buffer} {touched : Bool} {r : Response}
    (hc : b'.cap = (s.buf b).cap) (hs : r.snk = []) (hd : r.dsp = []) :
    s.sameOutside b (s.finish b b' touched r) := by
  refine ⟨⟨by simp, ?_, ?_⟩, ?_, by simp, by simp, by simp, by simp [hs], by simp [hd]⟩ <;>
    cases b <;> simp_all [BufSel.other, State.finish]

theorem State.sameRecord_finish {s : State} {b : BufSel} {b' : Buffer} {r : Response} :
    s.sameRecord (s.finish b b' false r) := ⟨by simp, by simp⟩

theorem State.records_finish {s : State} {b : BufSel} {b' : Buffer} {touched : Bool} {r : Response} {p : Prop}
    (h : touched = true ↔ p) : s.records p (s.finish b b' touched r) := by
  simp [State.records, ← h]

theorem State.responded_finish {s : State} {b : BufSel} {b' : Buffer} {touched : Bool} {r r' : Response}
    (h : r = r') : s.responded r' (s.finish b b' touched r) := by
  simp [State.responded, h]

/-- The storage effect of a sequence of appends, in physical cells. -/
theorem State.appended_finish {s : State} {b : BufSel} {d : List Byte} {touched : Bool} {r : Response}
    (h : (s.buf b).wf) : s.appended b d (s.finish b (Buffer.appendList d (s.buf b)).buf touched r) := by
  obtain ⟨h1, h2, h3, h4, h5, h6⟩ := h
  obtain ⟨-, hp, -, -, hl⟩ := Buffer.appendList_spec d (s.buf b) h4
  refine ⟨by simpa using hp, by simpa using hl, fun j hj => ?_, fun a ha => ?_⟩
  · have hc := Buffer.appendList_cellAt d (s.buf b) ((s.buf b).len + j) h4 (by omega)
    rw [if_pos (by omega), Nat.add_sub_cancel_left] at hc
    rw [State.finish_buf_self, ← hc, Buffer.cellAt, Buffer.index, Buffer.appendList_cap, hp, Nat.add_assoc]
  · rw [State.finish_buf_self]
    refine Buffer.appendList_read_other d (s.buf b) a (fun k hk1 hk2 hk3 he => ?_) h4
    refine ha (k - (s.buf b).len) (by omega) ?_
    rw [he, Buffer.index]; congr 1; omega

/-- Taking the first bytes of an instance. -/
theorem State.tookFirst_finish {s : State} {b : BufSel} {k : Nat} {touched : Bool} {r : Response} :
    s.tookFirst b k (s.finish b ((s.buf b).skip k) touched r) := by simp [State.tookFirst]

/-! ## Statuses (30_encoding.md R81) -/

theorem status_dropped {b : Buffer} {d : List Byte} (h : b.len ≤ b.cap) :
    Conditions.status { dropped := decide (0 < (Buffer.appendList d b).dropped) } = b.appendStatus d.length := by
  obtain ⟨-, -, -, hd, -⟩ := Buffer.appendList_spec d b h
  rw [hd, Buffer.appendStatus]
  by_cases hf : b.len + d.length ≤ b.cap
  · rw [if_pos hf, decide_eq_false (by omega)]; rfl
  · rw [if_neg hf, decide_eq_true (by omega)]; rfl

theorem status_empty {b : Buffer} {n : Nat} :
    Conditions.status { empty := decide (min n b.len < n) } = b.popStatus n := by
  rw [Buffer.popStatus]
  by_cases hf : n ≤ b.len
  · rw [if_pos hf, decide_eq_false (by omega)]; rfl
  · rw [if_neg hf, decide_eq_true (by omega)]; rfl

theorem status_noop (x : Bool) : Conditions.status { noop := x } = if x then .noop else .ok := by cases x <;> rfl

end Sys2Proof.Machine
end

