-- ==== Sys2Proof/Laws/Codec.lean ====
section
/-! SUPPORT. What the request builder does, said once (43_codec.md R180). -/

namespace Sys2Proof.Machine

/-- The bytes a request frame has before its checksum (30_encoding.md R60, R63). -/
theorem requestFrame_body (op : Byte) (d : List Byte) :
    (requestFrame op d).body = [0x12, 0x4C, op, BitVec.ofNat 8 d.length] ++ d := by
  have h : halfBytes Config.reqMagic = [0x12, 0x4C] := by decide
  simp [requestFrame, Frame.body, h]

/-- Everything building a request does: TXB holds the frame, cut at its capacity, from cell 0 on. -/
theorem Buffer.buildRequest_spec (u : Nat → Byte) (op : Byte) (d : List Byte) {b : Buffer} (hw : b.wf) :
    (b.buildRequest u op d).buf.holds
      (((requestFrame op d).body ++ [sum8 ((requestFrame op d).body.take b.cap)]).take b.cap) ∧
    (b.buildRequest u op d).csum = sum8 ((requestFrame op d).body.take b.cap) ∧
    (b.buildRequest u op d).dropped = decide (b.cap < 5 + d.length) ∧
    (b.buildRequest u op d).unwritten = false ∧
    (b.buildRequest u op d).buf.pos = 0 := by
  have hc := Buffer.clear_wf hw
  have h0 : b.clear.holds [] := Buffer.holds_nil rfl
  have h1 := Buffer.holds_append h0 hc.2.2.2.1 (requestFrame op d).body
  have hw1 := Buffer.appendList_wf (requestFrame op d).body hc
  have hs := Buffer.peekRange_of_holds h1 u
  rw [List.nil_append, Buffer.clear_cap] at hs h1
  obtain ⟨a1, a2, -, a4, a5⟩ := Buffer.appendList_spec (requestFrame op d).body b.clear hc.2.2.2.1
  have h2 := Buffer.holds_append h1 hw1.2.2.2.1 [sum8 ((requestFrame op d).body.take b.cap)]
  obtain ⟨-, b2, -, b4, -⟩ :=
    Buffer.appendList_spec [sum8 ((requestFrame op d).body.take b.cap)] _ hw1.2.2.2.1
  have hl : (requestFrame op d).body.length = 4 + d.length := by rw [requestFrame_body]; simp; omega
  have hr : b.buildRequest u op d =
      { buf := (Buffer.appendList [sum8 ((requestFrame op d).body.take b.cap)]
          (Buffer.appendList (requestFrame op d).body b.clear).buf).buf
        csum := sum8 ((requestFrame op d).body.take b.cap)
        dropped := decide (0 < (Buffer.appendList (requestFrame op d).body b.clear).dropped +
          (Buffer.appendList [sum8 ((requestFrame op d).body.take b.cap)]
            (Buffer.appendList (requestFrame op d).body b.clear).buf).dropped)
        unwritten := (b.buildRequest u op d).unwritten } := by
    simp only [Buffer.buildRequest, hs]
  rw [(Buffer.buildRequest_liveWritten u op d hw).2] at hr
  rw [hr]
  refine ⟨?_, rfl, ?_, rfl, ?_⟩
  · rw [a1, Buffer.clear_cap] at h2
    convert h2 using 1
    by_cases hf : (requestFrame op d).body.length ≤ b.cap
    · rw [List.take_of_length_le hf]
    · rw [List.take_append_of_le_length (by omega), List.take_append_of_le_length (by simp; omega), List.take_take,
        Nat.min_self]
  · simp only [Buffer.clear_cap, Buffer.clear_len] at a1 a4 a5
    rw [a4, b4, a1, a5, hl, List.length_singleton]
    exact decide_eq_decide.2 (by omega)
  · rw [b2, a2]; rfl

end Sys2Proof.Machine
end

