-- ==== Sys2Proof/Laws/PerInstr.lean ====
section
/-! SUPPORT. Statements about every command as syntax, one lemma per command. -/

namespace Sys2Proof.Laws.EncodeWords

/-- A well-formed command is encoded as a command word with its OPC, RSV = 0 and exactly the extension words that its
OPC and IMM16 announce (30_encoding.md R70, R76, R77). -/
def Statement (i : Instr) : Prop :=
  i.wf = true → ∃ w ext, encode i = w :: ext ∧ ext.length = extCount w ∧ opcField w = Machine.opcodeOf i ∧
    rsvField w = 0

/-- A command without data words. -/
theorem of_words {i : Instr} {w : Word} {ext : List Word} (h : encode i = w :: ext) (he : ext.length = extCount w)
    (ho : opcField w = Machine.opcodeOf i) (hr : rsvField w = 0) : Statement i :=
  fun _ => ⟨w, ext, h, he, ho, hr⟩

theorem bufInit (b : BufSel) : Statement (.bufInit b) :=
  of_words rfl (by simp [extCount]) (by simp [Machine.opcodeOf]) (by simp)

theorem bufClear (b : BufSel) : Statement (.bufClear b) :=
  of_words rfl (by simp [extCount]) (by simp [Machine.opcodeOf]) (by simp)

theorem bufWrite (b : BufSel) (v8 : Byte) : Statement (.bufWrite b v8) :=
  of_words rfl (by simp [extCount]) (by simp [Machine.opcodeOf]) (by simp)

theorem bufWriteN (b : BufSel) (d : List Byte) : Statement (.bufWriteN b d) := by
  intro h
  have hl : d.length % 65536 = d.length := Nat.mod_eq_of_lt (Nat.lt_succ_of_le (of_decide_eq_true h))
  exact ⟨_, _, rfl, by simp [extCount, packWords_length, hl], by simp [Machine.opcodeOf], by simp⟩

theorem bufRead (b : BufSel) : Statement (.bufRead b) :=
  of_words rfl (by simp [extCount]) (by simp [Machine.opcodeOf]) (by simp)

theorem bufReadN (b : BufSel) (n16 : Half) : Statement (.bufReadN b n16) :=
  of_words rfl (by simp [extCount]) (by simp [Machine.opcodeOf]) (by simp)

theorem bufForward (b : BufSel) (s16 : Half) : Statement (.bufForward b s16) :=
  of_words rfl (by simp [extCount]) (by simp [Machine.opcodeOf]) (by simp)

theorem bufBack (b : BufSel) (s16 : Half) : Statement (.bufBack b s16) :=
  of_words rfl (by simp [extCount]) (by simp [Machine.opcodeOf]) (by simp)

theorem bufChecksum (b : BufSel) : Statement (.bufChecksum b) :=
  of_words rfl (by simp [extCount]) (by simp [Machine.opcodeOf]) (by simp)

theorem bufWrcsum (b : BufSel) : Statement (.bufWrcsum b) :=
  of_words rfl (by simp [extCount]) (by simp [Machine.opcodeOf]) (by simp)

theorem bufWrcsumR (b : BufSel) (start : Half) (stop : Half) : Statement (.bufWrcsumR b start stop) :=
  of_words rfl (by simp [extCount]) (by simp [Machine.opcodeOf]) (by simp)

theorem bufStat (b : BufSel) : Statement (.bufStat b) :=
  of_words rfl (by simp [extCount]) (by simp [Machine.opcodeOf]) (by simp)

theorem bufWriteU16 (b : BufSel) (v16 : Half) : Statement (.bufWriteU16 b v16) :=
  of_words rfl (by simp [extCount]) (by simp [Machine.opcodeOf]) (by simp)

theorem bufWriteI16 (b : BufSel) (v16 : Half) : Statement (.bufWriteI16 b v16) :=
  of_words rfl (by simp [extCount]) (by simp [Machine.opcodeOf]) (by simp)

theorem bufWriteU32 (b : BufSel) (v32 : Word) : Statement (.bufWriteU32 b v32) :=
  of_words rfl (by simp [extCount]) (by simp [Machine.opcodeOf]) (by simp)

theorem bufWriteI32 (b : BufSel) (v32 : Word) : Statement (.bufWriteI32 b v32) :=
  of_words rfl (by simp [extCount]) (by simp [Machine.opcodeOf]) (by simp)

theorem bufWriteF32 (b : BufSel) (v32 : Word) : Statement (.bufWriteF32 b v32) :=
  of_words rfl (by simp [extCount]) (by simp [Machine.opcodeOf]) (by simp)

theorem bufReadU16 (b : BufSel) : Statement (.bufReadU16 b) :=
  of_words rfl (by simp [extCount]) (by simp [Machine.opcodeOf]) (by simp)

theorem bufReadI16 (b : BufSel) : Statement (.bufReadI16 b) :=
  of_words rfl (by simp [extCount]) (by simp [Machine.opcodeOf]) (by simp)

theorem bufReadU32 (b : BufSel) : Statement (.bufReadU32 b) :=
  of_words rfl (by simp [extCount]) (by simp [Machine.opcodeOf]) (by simp)

theorem bufReadI32 (b : BufSel) : Statement (.bufReadI32 b) :=
  of_words rfl (by simp [extCount]) (by simp [Machine.opcodeOf]) (by simp)

theorem bufReadF32 (b : BufSel) : Statement (.bufReadF32 b) :=
  of_words rfl (by simp [extCount]) (by simp [Machine.opcodeOf]) (by simp)

theorem parse : Statement (.parse) :=
  of_words rfl (by simp [extCount]) (by simp [Machine.opcodeOf]) (by simp)

theorem ingest : Statement (.ingest) :=
  of_words rfl (by simp [extCount]) (by simp [Machine.opcodeOf]) (by simp)

theorem buildRequest (op8 : Byte) (d : List Byte) : Statement (.buildRequest op8 d) := by
  intro h
  have hl : d.length % 256 = d.length := Nat.mod_eq_of_lt (Nat.lt_succ_of_le (of_decide_eq_true h))
  exact ⟨_, _, rfl, by simp [extCount, packWords_length, hl], by simp [Machine.opcodeOf], by simp⟩

theorem drain : Statement (.drain) :=
  of_words rfl (by simp [extCount]) (by simp [Machine.opcodeOf]) (by simp)

theorem issue (op8 : Byte) (d : List Byte) : Statement (.issue op8 d) := by
  intro h
  have hl : d.length % 256 = d.length := Nat.mod_eq_of_lt (Nat.lt_succ_of_le (of_decide_eq_true h))
  exact ⟨_, _, rfl, by simp [extCount, packWords_length, hl], by simp [Machine.opcodeOf], by simp⟩

end Sys2Proof.Laws.EncodeWords
end

