-- ==== Sys2Proof/Machine/Assembly.lean ====
section
/-! DEFINITION. The assembler syntax of 30_encoding.md R87: how a command is written. It has no effect on the
machine (92_eei_decisions.md D27). Numbers are written in decimal. -/

namespace Sys2Proof.Machine

/-- The name of an instance in the syntax (30_encoding.md R87). -/
def asmSel : BufSel → String
  | .rxb => "RXB"
  | .txb => "TXB"

/-- A number, in decimal (30_encoding.md R87). -/
def asmNum {w : Nat} (v : BitVec w) : String := toString v.toNat

/-- A byte list `[d0, d1, ...]` (30_encoding.md R87). -/
def asmList (d : List Byte) : String := "[" ++ ", ".intercalate (d.map asmNum) ++ "]"

/-- `MNEMONIC b` (30_encoding.md R87). -/
def asmBuf (m : String) (b : BufSel) : String := m ++ " " ++ asmSel b

/-- `MNEMONIC b, imm` (30_encoding.md R87). -/
def asmImm (m : String) (b : BufSel) {w : Nat} (v : BitVec w) : String := asmBuf m b ++ ", " ++ asmNum v

/-- A command in the syntax of 30_encoding.md R87. -/
def asmText : Instr → String
  | .bufInit b => asmBuf "BUF_INIT" b
  | .bufClear b => asmBuf "BUF_CLEAR" b
  | .bufWrite b v => asmImm "BUF_WRITE" b v
  | .bufWriteN b d => asmBuf "BUF_WRITE_N" b ++ ", " ++ asmList d
  | .bufRead b => asmBuf "BUF_READ" b
  | .bufReadN b n => asmImm "BUF_READ_N" b n
  | .bufForward b s => asmImm "BUF_FORWARD" b s
  | .bufBack b s => asmImm "BUF_BACK" b s
  | .bufChecksum b => asmBuf "BUF_CHECKSUM" b
  | .bufWrcsum b => asmBuf "BUF_WRCSUM" b
  | .bufWrcsumR b start stop => asmImm "BUF_WRCSUM_R" b start ++ ", " ++ asmNum stop
  | .bufStat b => asmBuf "BUF_STAT" b
  | .bufWriteU16 b v => asmImm "BUF_WRITE_U16" b v
  | .bufWriteI16 b v => asmImm "BUF_WRITE_I16" b v
  | .bufWriteU32 b v => asmImm "BUF_WRITE_U32" b v
  | .bufWriteI32 b v => asmImm "BUF_WRITE_I32" b v
  | .bufWriteF32 b v => asmImm "BUF_WRITE_F32" b v
  | .bufReadU16 b => asmBuf "BUF_READ_U16" b
  | .bufReadI16 b => asmBuf "BUF_READ_I16" b
  | .bufReadU32 b => asmBuf "BUF_READ_U32" b
  | .bufReadI32 b => asmBuf "BUF_READ_I32" b
  | .bufReadF32 b => asmBuf "BUF_READ_F32" b
  | .parse => "PARSE"
  | .ingest => "INGEST"
  | .buildRequest op d => "BUILD_REQUEST " ++ asmNum op ++ ", " ++ asmList d
  | .drain => "DRAIN"
  | .issue op d => "ISSUE " ++ asmNum op ++ ", " ++ asmList d

end Sys2Proof.Machine
end

