-- ==== Sys2Proof/Tests/Slice0.lean ====
section
/-! SUPPORT. Small tests: ill-formed terms that WellFormed refuses, words written out from the encodings of
30_encoding.md, one step of each command with the result its row of 95_test_vectors.md states, and a concrete
witness for the hypotheses of each obligation. -/

namespace Sys2Proof.Tests

open Sys2Proof.Machine

/-! ## Helpers -/

/-- A buffer `POS/LEN [live bytes]` whose other cells are `⊥` (40_buffer.md R100). -/
def buf (cap pos : Nat) (bs : List Byte) : Buffer := (Buffer.appendList bs { cap := cap, mem := [], pos := pos, len := 0 }).buf

/-- A block with RESP_MAGIC fixed to the value the vectors of 95_test_vectors.md use. -/
def block (rxb txb : Buffer) (src : List Burst) : State :=
  { State.reset with
    params := { respMagic := some 0x1C05, guardInclusive := false }, rxb := rxb, txb := txb, src := src }

/-- The same with only RXB of interest. -/
def rx (cap pos : Nat) (bs : List Byte) : State := block (buf cap pos bs) (buf 8 0 []) []

/-- The same block under the literal guards (40_buffer.md R115). -/
def literal (s : State) : State := { s with params := { s.params with guardInclusive := true } }

/-- The last response an outcome delivered. -/
def resp : Host.Outcome State Fault Refusal → Option Response
  | .next t => t.responses.getLast?
  | .fault _ => none
  | .refused _ => none

/-- POS and the live cells of RXB after an outcome, head first. -/
def live : Host.Outcome State Fault Refusal → Option (Nat × List (Option Byte))
  | .next t => some (t.rxb.pos, (List.range t.rxb.len).map t.rxb.cellAt)
  | .fault _ => none
  | .refused _ => none

/-- What a run of commands leaves in RXB, and its last response. -/
def both (o : Host.Outcome State Fault Refusal) : Option Response × Option (Nat × List (Option Byte)) := (resp o, live o)

/-! ## WellFormed -/

theorem test_wf_refuses_long_write (d : List Byte) (h : d.length = 65536) : (Instr.bufWriteN .rxb d).wf = false :=
  decide_eq_false (by rw [h]; decide)

theorem test_wf_refuses_long_request (d : List Byte) (h : d.length = 256) : (Instr.buildRequest 1 d).wf = false :=
  decide_eq_false (by rw [h]; decide)

theorem test_wf_refuses_long_issue (d : List Byte) (h : d.length = 256) : (Instr.issue 1 d).wf = false :=
  decide_eq_false (by rw [h]; decide)

theorem test_wf_accepts_longest_write (d : List Byte) (h : d.length = 65535) : (Instr.bufWriteN .rxb d).wf = true :=
  decide_eq_true (by rw [h]; decide)

theorem test_wf_accepts_longest_request (d : List Byte) (h : d.length = 255) : (Instr.buildRequest 1 d).wf = true :=
  decide_eq_true (by rw [h]; decide)

/-- Lists of those lengths exist. -/
theorem test_wf_lengths (n : Nat) : ∃ d : List Byte, d.length = n := ⟨List.replicate n 0, List.length_replicate⟩

/-! ## Decoding: words written out from 30_encoding.md R70 to R78 -/

theorem test_decode_lifecycle :
    fetchCommand [0x01000000] = .command (.bufInit .rxb) 1 ∧ fetchCommand [0x02800000] = .command (.bufClear .txb) 1 ∧
    fetchCommand [0x0C800000] = .command (.bufStat .txb) 1 := by decide

theorem test_decode_read_write :
    fetchCommand [0x03800012] = .command (.bufWrite .txb 0x12) 1 ∧
    fetchCommand [0x04000003, 0x00050403] = .command (.bufWriteN .rxb [3, 4, 5]) 2 ∧
    fetchCommand [0x05000000] = .command (.bufRead .rxb) 1 ∧
    fetchCommand [0x06801234] = .command (.bufReadN .txb 0x1234) 1 := by decide

theorem test_decode_repositioning :
    fetchCommand [0x07000003] = .command (.bufForward .rxb 3) 1 ∧
    fetchCommand [0x0880FFFF] = .command (.bufBack .txb 0xFFFF) 1 := by decide

theorem test_decode_checksums :
    fetchCommand [0x09800000] = .command (.bufChecksum .txb) 1 ∧ fetchCommand [0x0A000000] = .command (.bufWrcsum .rxb) 1 ∧
    fetchCommand [0x0B000000, 0x00050002] = .command (.bufWrcsumR .rxb 2 5) 2 := by decide

theorem test_decode_typed_writes :
    fetchCommand [0x10004C12] = .command (.bufWriteU16 .rxb 0x4C12) 1 ∧
    fetchCommand [0x1100FFF1] = .command (.bufWriteI16 .rxb 0xFFF1) 1 ∧
    fetchCommand [0x12800000, 0x11223344] = .command (.bufWriteU32 .txb 0x11223344) 2 ∧
    fetchCommand [0x13000000, 0xFFFFFFFF] = .command (.bufWriteI32 .rxb 0xFFFFFFFF) 2 ∧
    fetchCommand [0x14000000, 0x3F800000] = .command (.bufWriteF32 .rxb 0x3F800000) 2 := by decide

theorem test_decode_typed_reads :
    fetchCommand [0x18000000] = .command (.bufReadU16 .rxb) 1 ∧ fetchCommand [0x19800000] = .command (.bufReadI16 .txb) 1 ∧
    fetchCommand [0x1A000000] = .command (.bufReadU32 .rxb) 1 ∧ fetchCommand [0x1B000000] = .command (.bufReadI32 .rxb) 1 ∧
    fetchCommand [0x1C800000] = .command (.bufReadF32 .txb) 1 := by decide

theorem test_decode_engine :
    fetchCommand [0x40000000] = .command .parse 1 ∧ fetchCommand [0x41000000] = .command .ingest 1 ∧
    fetchCommand [0x42000503, 0x04030201, 0x00000005] = .command (.buildRequest 3 [1, 2, 3, 4, 5]) 3 ∧
    fetchCommand [0x43000000] = .command .drain 1 ∧
    fetchCommand [0x44000203, 0x00001005] = .command (.issue 3 [5, 0x10]) 2 := by decide

/-- 30_encoding.md R84 and R85: an unassigned OPC takes one word; a nonzero padding byte takes the data words too. -/
theorem test_decode_refusals :
    fetchCommand [0x0D000000, 1] = .rejected .unassignedOpcode 1 ∧
    fetchCommand [0x01010000] = .rejected .reservedNonzero 1 ∧
    fetchCommand [0x40800000] = .rejected .bufferBitOnEngine 1 ∧
    fetchCommand [0x03000112] = .rejected .immediateNonzero 1 ∧
    fetchCommand [0x04000001, 0x00000103] = .rejected .paddingNonzero 2 := by decide

/-- The table's own numbering: the data word of BUF_WRITE_N lies above bit 31, zero where the table gives no bits. -/
theorem test_decodeTableWord :
    decodeTableWord 32 0x04000002 = some (.bufWriteN .rxb [0, 0]) ∧
    decodeTableWord 64 0x112233440B000000 = some (.bufWrcsumR .rxb 0x3344 0x1122) ∧
    decodeTableWord 32 0x0D000000 = none := by decide

/-- 30_encoding.md R87. -/
theorem test_asm : asmText (.bufWriteN .rxb [3, 4, 5]) = "BUF_WRITE_N RXB, [3, 4, 5]" ∧
    asmText (.issue 1 [5]) = "ISSUE 1, [5]" := by decide

/-- X1b's response as words (30_encoding.md R80). -/
theorem test_response_words : ({ status := .ok, csumOk := true, stop := .wait } : Response).words = [0x18, 0, 0] := by
  decide

/-- 30_encoding.md R80: BYTES follow the three words on CMD; 40_buffer.md R106's example. -/
theorem test_response_bytes_on_cmd :
    (match exec (.bufReadN .rxb 3) (rx 8 0 [7, 8]) with
      | .next t => t.cmdOut
      | .fault _ => []
      | .refused _ => []) = [.word 2, .word 2, .word 0, .byte 7, .byte 8, .byte 0] := by decide

/-- 70_reset_and_hazards.md R220: after reset the next word issued on CMD is decoded as a command word, although two of
the four data words of a BUF_WRITE_N had been issued; the whole BUF_WRITE ahead of it still waits. -/
theorem test_reset_drops_half_command :
    let s : State := { rx 8 0 [1] with cmd := [0x03000041, 0x04000010, 7, 8] }
    (s.blockReset.issueWords [0x0C000000]).cmd = [0x03000041, 0x0C000000] := by decide

/-! ## One step of each command: the rows of 95_test_vectors.md named in the docstrings -/

/-- B1. -/
theorem test_bufInit : both (exec (.bufInit .rxb) (rx 8 7 [0x41, 0x42, 0x43])) = (some { status := .ok }, some (0, [])) := by
  decide

/-- B1: the cells are `⊥` again. -/
theorem test_bufInit_cells : (rx 8 7 [0x41, 0x42, 0x43]).rxb.init.mem.read 7 = none := by decide

/-- B2. -/
theorem test_bufClear : both (exec (.bufClear .rxb) (rx 8 6 [0x58, 0x59])) = (some { status := .ok }, some (0, [])) := by
  decide

/-- B2: the cells keep their bytes. -/
theorem test_bufClear_cells : (rx 8 6 [0x58, 0x59]).rxb.clear.mem.read 7 = some 0x59 := by decide

/-- B3, the second write: cell 0 after the wrap. -/
theorem test_bufWrite : both (exec (.bufWrite .rxb 0xBB) (rx 4 3 [0xAA])) = (some { status := .ok }, some (3, [some 0xAA, some 0xBB])) := by
  decide

/-- B4. -/
theorem test_bufWrite_full : both (exec (.bufWrite .rxb 0x55) (rx 4 1 [0x01, 0x02, 0x03, 0x04])) = (some { status := .dropped }, some (1, [some 0x01, some 0x02, some 0x03, some 0x04])) := by
  decide

/-- B5. -/
theorem test_bufWriteN_partial : both (exec (.bufWriteN .rxb [3, 4, 5]) (rx 4 0 [0x01, 0x02])) = (some { status := .dropped, data := 2 }, some (0, [some 0x01, some 0x02, some 0x03, some 0x04])) := by
  decide

/-- B6. -/
theorem test_bufWriteN_empty : both (exec (.bufWriteN .rxb []) (rx 4 0 [0x01, 0x02])) = (some { status := .ok }, some (0, [some 0x01, some 0x02])) := by
  decide

/-- B7. -/
theorem test_bufRead_wraps : both (exec (.bufRead .rxb) (rx 4 3 [0x41, 0x42])) = (some { status := .ok, data := 0x41 }, some (0, [some 0x42])) := by
  decide

/-- B8. -/
theorem test_bufRead_empty : both (exec (.bufRead .rxb) (rx 8 2 [])) = (some { status := .empty }, some (2, [])) := by
  decide

/-- B9. -/
theorem test_bufReadN_zero_fill : both (exec (.bufReadN .rxb 3) (rx 8 0 [0x07, 0x08])) = (some { status := .empty, data := 2, bytes := [7, 8, 0] }, some (2, [])) := by
  decide

/-- B9b. -/
theorem test_bufReadN_none : both (exec (.bufReadN .rxb 0) (rx 8 0 [0x07, 0x08])) = (some { status := .ok }, some (0, [some 0x07, some 0x08])) := by
  decide

/-- B11. -/
theorem test_bufForward_all : both (exec (.bufForward .rxb 4) (rx 8 6 [0x0A, 0x0B, 0x0C, 0x0D])) = (some { status := .ok }, some (2, [])) := by
  decide

/-- B11i. -/
theorem test_bufForward_literal : both (exec (.bufForward .rxb 4) (literal (rx 8 6 [0x0A, 0x0B, 0x0C, 0x0D]))) = (some { status := .noop }, some (6, [some 0x0A, some 0x0B, some 0x0C, some 0x0D])) := by
  decide

/-- The state of B15: cells 0 to 2 hold consumed bytes. -/
def consumed : State := { rx 8 3 [4, 5, 6, 7, 8] with rxb := (buf 8 0 [1, 2, 3, 4, 5, 6, 7, 8]).skip 3 }

/-- B15. -/
theorem test_bufBack_to_full : both (exec (.bufBack .rxb 3) (consumed)) = (some { status := .ok }, some (0, [some 0x01, some 0x02, some 0x03, some 0x04, some 0x05, some 0x06, some 0x07, some 0x08])) := by
  decide

/-- B15i. -/
theorem test_bufBack_literal : both (exec (.bufBack .rxb 3) (literal consumed)) = (some { status := .noop }, some (3, [some 0x04, some 0x05, some 0x06, some 0x07, some 0x08])) := by
  decide

/-- B21. -/
theorem test_bufChecksum_wraps : both (exec (.bufChecksum .rxb) (rx 8 6 [0xFF, 0x02, 0x03, 0x04])) = (some { status := .ok, csumOk := true }, some (6, [some 0xFF, some 0x02, some 0x03, some 0x04])) := by
  decide

/-- B20a. -/
theorem test_bufChecksum_empty : both (exec (.bufChecksum .rxb) (rx 8 4 [])) = (some { status := .ok }, some (4, [])) := by
  decide

/-- B22. -/
theorem test_bufWrcsum : both (exec (.bufWrcsum .rxb) (rx 8 0 [0x12, 0x4C, 0x01, 0x01, 0x05])) = (some { status := .ok, data := 0x65 }, some (0, [some 0x12, some 0x4C, some 0x01, some 0x01, some 0x05, some 0x65])) := by
  decide

/-- B24. -/
theorem test_bufWrcsum_full : both (exec (.bufWrcsum .rxb) (rx 4 0 [0x01, 0x02, 0x03, 0x04])) = (some { status := .dropped, data := 0x0A }, some (0, [some 0x01, some 0x02, some 0x03, some 0x04])) := by
  decide

/-- B25. -/
theorem test_bufWrcsumR : both (exec (.bufWrcsumR .rxb 2 5) (rx 8 0 [0x12, 0x4C, 0x01, 0x01, 0x05])) = (some { status := .ok, data := 7 }, some (0, [some 0x12, some 0x4C, some 0x01, some 0x01, some 0x05, some 0x07])) := by
  decide

/-- B26b. -/
theorem test_bufWrcsumR_range : both (exec (.bufWrcsumR .rxb 0 6) (rx 8 0 [0x12, 0x4C, 0x01, 0x01, 0x05])) = (some { status := .badRange }, some (0, [some 0x12, some 0x4C, some 0x01, some 0x01, some 0x05])) := by
  decide

/-- B28 with CAP 16. -/
theorem test_bufStat : both (exec (.bufStat .rxb) (rx 16 3 [0x00, 0x00, 0x00, 0x00, 0x00, 0x00, 0x00, 0x00, 0x00])) = (some { status := .ok, data := 0x00090003, data2 := 16 }, some (3, [some 0x00, some 0x00, some 0x00, some 0x00, some 0x00, some 0x00, some 0x00, some 0x00, some 0x00])) := by
  decide

/-- T2. -/
theorem test_bufWriteU16_partial : both (exec (.bufWriteU16 .rxb 0xBEEF) (rx 4 0 [0x01, 0x02, 0x03])) = (some { status := .dropped }, some (0, [some 0x01, some 0x02, some 0x03, some 0xEF])) := by
  decide

/-- T3. -/
theorem test_bufWriteI16 : both (exec (.bufWriteI16 .rxb 0xFFF1) (rx 8 0 [])) = (some { status := .ok }, some (0, [some 0xF1, some 0xFF])) := by
  decide

/-- T4. -/
theorem test_bufWriteU32_wraps : both (exec (.bufWriteU32 .rxb 0x11223344) (rx 8 6 [])) = (some { status := .ok }, some (6, [some 0x44, some 0x33, some 0x22, some 0x11])) := by
  decide

/-- T5. -/
theorem test_bufWriteI32_partial : both (exec (.bufWriteI32 .rxb 0xFFFFFFFF) (rx 4 0 [0x01, 0x02])) = (some { status := .dropped }, some (0, [some 0x01, some 0x02, some 0xFF, some 0xFF])) := by
  decide

/-- T6b. -/
theorem test_bufWriteF32 : both (exec (.bufWriteF32 .rxb 0x7FC00001) (rx 8 0 [])) = (some { status := .ok }, some (0, [some 0x01, some 0x00, some 0xC0, some 0x7F])) := by
  decide

/-- T7. -/
theorem test_bufReadU16 : both (exec (.bufReadU16 .rxb) (rx 8 0 [0x12, 0x4C])) = (some { status := .ok, data := 0x4C12 }, some (2, [])) := by
  decide

/-- T8. -/
theorem test_bufReadU16_short : both (exec (.bufReadU16 .rxb) (rx 8 0 [0xAB])) = (some { status := .empty, data := 0xAB }, some (1, [])) := by
  decide

/-- T9. -/
theorem test_bufReadI16 : both (exec (.bufReadI16 .rxb) (rx 8 0 [0xF1, 0xFF])) = (some { status := .ok, data := 0xFFFFFFF1 }, some (2, [])) := by
  decide

/-- T10. -/
theorem test_bufReadI16_short : both (exec (.bufReadI16 .rxb) (rx 8 0 [0xF1])) = (some { status := .empty, data := 0xF1 }, some (1, [])) := by
  decide

/-- T15. -/
theorem test_bufReadU32_wraps : both (exec (.bufReadU32 .rxb) (rx 8 6 [0x44, 0x33, 0x22, 0x11])) = (some { status := .ok, data := 0x11223344 }, some (2, [])) := by
  decide

/-- T11b. -/
theorem test_bufReadU32_short : both (exec (.bufReadU32 .rxb) (rx 8 0 [0x01, 0x02, 0x03])) = (some { status := .empty, data := 0x00030201 }, some (3, [])) := by
  decide

/-- T12. -/
theorem test_bufReadI32 : both (exec (.bufReadI32 .rxb) (rx 8 0 [0xFF, 0xFF, 0xFF, 0xFF])) = (some { status := .ok, data := 0xFFFFFFFF }, some (4, [])) := by
  decide

/-- T13. -/
theorem test_bufReadF32 : both (exec (.bufReadF32 .rxb) (rx 8 0 [0x00, 0x00, 0xC0, 0x7F])) = (some { status := .ok, data := 0x7FC00000 }, some (4, [])) := by
  decide

/-- Q7: a good frame that fills RXB, wrapped. -/
theorem test_parse_full_frame : both (exec (.parse) (rx 8 3 [0x05, 0x1C, 0x0A, 0x03, 0x02, 0xF1, 0xFF, 0x20])) = (some { status := .ok, data := 1, dsp := [{ opcode := 0x0A, n := 3, payload := [0x02, 0xF1, 0xFF] }] }, some (3, [])) := by
  decide

/-- Q6: a bad frame that fills RXB is discarded whole. -/
theorem test_parse_bad_frame : both (exec (.parse) (rx 8 0 [0x05, 0x1C, 0x0A, 0x03, 0x02, 0xF1, 0xFF, 0x21])) = (some { status := .ok, data2 := 1 }, some (0, [])) := by
  decide

/-- X2 with CAP 16. -/
theorem test_ingest_noise : both (exec (.ingest) (block (buf 16 0 []) (buf 8 0 []) [.bytes [0xFF, 0x05, 0x1C, 0x0A, 3, 2, 0xF1, 0xFF, 0x20]])) = (some { status := .ok, data := 0x00010001, dsp := [{ opcode := 0x0A, n := 3, payload := [0x02, 0xF1, 0xFF] }] }, some (9, [])) := by
  decide

/-- Q13. -/
theorem test_ingest_overflow : both (exec (.ingest) (block (buf 8 0 []) (buf 8 0 []) [.bytes [0x05, 0x1C, 1, 1, 2, 0x25, 0x05, 0x1C, 1, 1]])) = (some { status := .dropped, data := 1, data2 := 0x00020000, dsp := [{ opcode := 0x01, n := 1, payload := [0x02] }] }, some (6, [some 0x05, some 0x1C])) := by
  decide

/-- X1: the request frame. -/
theorem test_buildRequest :
    resp (exec (.buildRequest 1 [5]) (block (buf 8 0 []) (buf 16 0 []) [])) =
      some { status := .ok, data := 0x65, data2 := 6 } := by decide

/-- X3b: ISSUE at a head that is not 0. -/
theorem test_issue :
    resp (exec (.issue 3 [5, 0x10]) (block (buf 8 0 []) (buf 16 7 []) [])) =
      some { status := .ok, data := 0x78, data2 := 7, snk := [0x12, 0x4C, 3, 2, 5, 0x10, 0x78] } := by decide

/-- 43_codec.md R182: the live bytes, head first. -/
theorem test_drain :
    resp (exec .drain (block (buf 8 0 []) (buf 4 3 [0x41, 0x42]) [])) =
      some { status := .ok, data := 2, snk := [0x41, 0x42] } := by decide

/-- B17: an exposed `⊥` cell is recorded when it is read, and the run goes on. -/
def exposed : State := { rx 8 0 [1] with rxb := (buf 8 0 [1]).rewind 1 }

theorem test_unwritten_read :
    (match exec (.bufRead .rxb) exposed with
      | .next t => t.unwrittenRead && t.rxb.pos == 0 && t.rxb.len == 1
      | .fault _ => false
      | .refused _ => false) = true := by decide

/-- 70_reset_and_hazards.md R237. -/
theorem test_ingest_endless : exec .ingest (block (buf 8 0 []) (buf 8 0 []) [.endless]) = .fault .ingestHang := rfl

/-- The host's interface: a word placed on CMD at reset is the command the next step runs. -/
theorem test_withFetchWord : resp (step (State.reset.withFetchWord 32 0x0C000000)) =
    some { status := .ok, data := 0, data2 := 256 } := by decide

/-! ## Witnesses: states and operands that meet the hypotheses of each obligation -/

/-- RXB live region wraps past its end; TXB holds three bytes and wraps too. -/
def s0 : State := block (buf 8 6 [1, 2, 3, 4]) (buf 8 6 [0x12, 0x4C, 1]) [.bytes [5]]

/-- `s0` with words waiting on CMD. -/
def s0cmd (ws : List Word) : State := { s0 with cmd := ws }

/-- The frame of 95_test_vectors.md X2. -/
def frameX2 : Frame := { magic := 0x1C05, opcode := 0x0A, payload := [2, 0xF1, 0xFF] }

/-- The longest data sequence has an encoding too: `test_wf_accepts_longest_write`. -/
theorem witness_DecodeReadsBackEveryEncoding :
    (Instr.bufWriteN .rxb [3, 4, 5]).wf = true ∧ (Instr.buildRequest 1 []).wf = true ∧ Instr.parse.wf = true := by decide

theorem witness_AcceptedWordsAreTheEncodersOwn :
    ([0x00050403] : List Word).length = extCount 0x04000003 ∧
    decodeCommand 0x04000003 [0x00050403] = .ok (.bufWriteN .rxb [3, 4, 5]) := ⟨by decide, rfl⟩

theorem witness_OpcodeMap :
    encode (.bufWrcsumR .rxb 2 5) = [0x0B000000, 0x00050002] ∧
    decodeCommand 0x0B000000 [0x00050002] = .ok (.bufWrcsumR .rxb 2 5) ∧
    decodeCommand 0x45000000 [] = .error .unassignedOpcode := ⟨by decide, rfl, rfl⟩

theorem witness_UnassignedOpcodeIsRefused :
    (s0cmd [0x0D000000, 0x01000000]).cmd = 0x0D000000 :: [0x01000000] ∧ ∀ w ∈ ([0x00000000, 0x0D000000, 0x0FFFFFFF, 0x15000000, 0x17000000, 0x1D000000, 0x3F000000, 0x45000000,
      0xFF000000] : List Word), unassignedOpc (w.extractLsb' 24 8).toNat := by
  refine ⟨rfl, fun w h => ?_⟩
  simp only [List.mem_cons, List.not_mem_nil, or_false] at h
  rcases h with rfl | rfl | rfl | rfl | rfl | rfl | rfl | rfl | rfl <;> decide

/-- One word for each kind of refused field, and one word with none. -/
theorem witness_ReservedFieldsAreRefused :
    refusedFields 0x01010000 [] ∧ refusedFields 0x40800000 [] ∧ refusedFields 0x01000001 [] ∧
    refusedFields 0x03000100 [] ∧ refusedFields 0x04000001 [0x00000103] ∧ refusedFields 0x42000301 [0x01000000] ∧
    (∀ w ∈ ([0x01010000, 0x40800000, 0x01000001, 0x03000100, 0x04000001, 0x42000301, 0x01000000] : List Word),
      ¬ unassignedOpc (w.extractLsb' 24 8).toNat) ∧
    ¬ refusedFields 0x01000000 [] := by
  refine ⟨.inl (by decide), .inr (.inl (by decide)), .inr (.inr (.inl (by decide))),
    .inr (.inr (.inr (.inl (by decide)))), .inr (.inr (.inr (.inr (.inl ⟨by decide, 1, by decide⟩)))),
    .inr (.inr (.inr (.inr (.inr ⟨by decide, 3, by decide⟩)))), fun w h => ?_, ?_⟩
  · simp only [List.mem_cons, List.not_mem_nil, or_false] at h
    rcases h with rfl | rfl | rfl | rfl | rfl | rfl | rfl <;> decide
  · rintro (h | h | h | h | h | h)
    · revert h; decide
    · revert h; decide
    · revert h; decide
    · revert h; decide
    · have := h.1; revert this; decide
    · have := h.1; revert this; decide

theorem witness_StepRunsTheDecodedCommand :
    fetchCommand (s0cmd [0x04000003, 0x00050403, 0x40000000]).cmd = .command (.bufWriteN .rxb [3, 4, 5]) 2 := by decide

/-- No word at all, and a command word whose one extension word is still missing. -/
theorem witness_IdleWithoutAWholeCommand :
    s0.cmd = [] ∧ ([] : List Word).length < extCount 0x04000004 ∧ (s0cmd [0x04000004]).cmd = [0x04000004] := by decide

theorem witness_IssuedProgramRunsInOrder :
    (∀ i ∈ [Instr.bufWriteN .txb [1, 2, 3, 4, 5], .ingest, .bufStat .rxb], i.wf = true) ∧ s0.cmd = [] := by decide

theorem witness_OneResponsePerCommand :
    (∃ t, step s0 = .next t) ∧ (∃ t, step (s0cmd [0x40000000]) = .next t) ∧ ∃ t, step (s0cmd [0]) = .next t :=
  ⟨⟨_, rfl⟩, ⟨_, rfl⟩, ⟨_, rfl⟩⟩

theorem witness_EveryCommandCompletes :
    ¬ (Instr.ingest = .ingest ∧ s0.nextBurst = .endless) ∧ ¬ (Instr.parse = .ingest ∧ s0.nextBurst = .endless) ∧
    ({ s0 with src := [.endless] } : State).nextBurst = .endless := by decide

theorem witness_EveryStepKeepsTheBounds :
    (s0cmd [0x41000000]).Inv ∧ ∃ t, step (s0cmd [0x41000000]) = .next t := ⟨by decide, ⟨_, rfl⟩⟩

theorem witness_OnlyBackExposesUnwrittenCells :
    (s0cmd [0x41000000]).Inv ∧ (s0cmd [0x41000000]).LiveWritten ∧
    (∀ n b k, fetchCommand (s0cmd [0x41000000]).cmd ≠ .command (.bufBack b k) n) ∧
    ∃ t, step (s0cmd [0x41000000]) = .next t := by
  refine ⟨by decide, by decide, fun n b k h => ?_, ⟨_, rfl⟩⟩
  have : fetchCommand (s0cmd [0x41000000]).cmd = .command .ingest 1 := by decide
  rw [this] at h; cases h

theorem witness_UnwrittenReadIsSticky :
    (∃ t, step { exposed with cmd := [0x01000000], unwrittenRead := true } = .next t) ∧
    ({ exposed with cmd := [0x01000000], unwrittenRead := true } : State).unwrittenRead = true := ⟨⟨_, rfl⟩, rfl⟩

theorem witness_ConfigurationIsNeverWritten : ∃ t, step (s0cmd [0x44000101, 5]) = .next t := ⟨_, rfl⟩

/-- BUF_CLEAR writes no cell; BUF_INIT turns written cells back into `⊥`. -/
theorem witness_CellsChangeOnlyByAppendOrInit :
    (∃ t, exec (.bufClear .rxb) s0 = .next t) ∧ writesCells (.bufClear .rxb) = false ∧
    ∃ t, exec (.bufInit .rxb) s0 = .next t ∧ (s0.buf .rxb).mem.read 7 ≠ none ∧ (t.buf .rxb).mem.read 7 = none :=
  ⟨⟨_, rfl⟩, rfl, _, rfl, by decide, rfl⟩

theorem witness_EngineCommandsTouchTheirInstance :
    (∃ t, exec .parse s0 = .next t) ∧ (∃ t, exec .ingest s0 = .next t) ∧
    (∃ t, exec (.buildRequest 1 [5]) s0 = .next t) ∧ (∃ t, exec .drain s0 = .next t) ∧
    ∃ t, exec (.issue 1 [5]) s0 = .next t := ⟨⟨_, rfl⟩, ⟨_, rfl⟩, ⟨_, rfl⟩, ⟨_, rfl⟩, ⟨_, rfl⟩⟩

/-- The other state has another TXB, other words on CMD and other logs. -/
theorem witness_ParserIgnoresEverythingButRxb :
    let s' : State := { s0 with txb := buf 4 0 [9], cmd := [7], snk := [1], index := 3 }
    s'.rxb = s0.rxb ∧ s'.params = s0.params ∧ s'.freeCount = s0.freeCount ∧ s'.nextBurst = s0.nextBurst ∧
    (∃ t, exec .parse s0 = .next t) ∧ ∃ t, exec .ingest s0 = .next t := ⟨rfl, rfl, rfl, rfl, ⟨_, rfl⟩, ⟨_, rfl⟩⟩

/-- Nothing waits, a half-issued command waits, and a whole command waits ahead of a half-issued one. -/
theorem witness_BlockResetIsBufInitOnBoth :
    fetchCommand s0.cmd = .idle ∧ fetchCommand (s0cmd [0x04000004]).cmd = .idle ∧
    (s0cmd [0x12000000, 5, 0x04000004]).cmd = 0x12000000 :: ([5] ++ [0x04000004]) ∧
    ([5] : List Word).length = extCount 0x12000000 := by decide

/-- The least and the greatest capacity, and both ends of LEN. -/
theorem witness_BufStatResult :
    (buf 1 0 []).wf ∧ (buf 1 0 [7]).wf ∧ ({ buf 1 0 [] with cap := 65535, pos := 65534 } : Buffer).wf ∧
    (s0.buf .txb).wf := by decide

/-- A full buffer and one with room. -/
theorem witness_BufWriteResult :
    ((rx 4 1 [1, 2, 3, 4]).buf .rxb).len = ((rx 4 1 [1, 2, 3, 4]).buf .rxb).cap ∧
    (s0.buf .rxb).len ≠ (s0.buf .rxb).cap := by decide

theorem witness_BufWriteNResult : ((rx 4 0 [1, 2]).buf .rxb).wf := by decide

/-- An empty buffer, a written head cell, and a `⊥` head cell. -/
theorem witness_BufReadResult :
    ((rx 8 2 []).buf .rxb).wf ∧ ((rx 8 2 []).buf .rxb).len = 0 ∧ (s0.buf .rxb).wf ∧
    (s0.buf .rxb).mem.read (s0.buf .rxb).pos = some 1 ∧ (exposed.buf .rxb).wf ∧
    (exposed.buf .rxb).mem.read (exposed.buf .rxb).pos = none := by decide

theorem witness_BufReadNResult : (s0.buf .rxb).wf ∧ (exposed.buf .rxb).wf := by decide

/-- The writes fill the buffer exactly. -/
theorem witness_FifoLaw :
    ((rx 8 5 [0xA0, 0xA1]).buf .rxb).wf ∧ ((rx 8 5 [0xA0, 0xA1]).buf .rxb).holds [0xA0, 0xA1] ∧
    ([0xA0, 0xA1] : List Byte).length + ([1, 2, 3, 4, 5, 6] : List Byte).length ≤
      ((rx 8 5 [0xA0, 0xA1]).buf .rxb).cap := by decide

/-- Steps of LEN and LEN + 1 under both guards. -/
theorem witness_BufForwardResult :
    ¬ ((4#16).toNat > (s0.buf .rxb).len) ∧ (5#16).toNat > (s0.buf .rxb).len ∧
    (literal s0).params.guardInclusive = true ∧ (4#16).toNat ≥ ((literal s0).buf .rxb).len ∧
    ¬ ((3#16).toNat ≥ ((literal s0).buf .rxb).len) := by decide

/-- Steps that reach CAP and that pass it, under both guards. -/
theorem witness_BufBackResult :
    ¬ ((s0.buf .rxb).len + (4#16).toNat > (s0.buf .rxb).cap) ∧ (s0.buf .rxb).len + (5#16).toNat > (s0.buf .rxb).cap ∧
    ((literal s0).buf .rxb).len + (4#16).toNat ≥ ((literal s0).buf .rxb).cap ∧
    ¬ (((literal s0).buf .rxb).len + (3#16).toNat ≥ ((literal s0).buf .rxb).cap) := by decide

theorem witness_BackExposesConsumedCellsOnly :
    (consumed.buf .rxb).wf ∧ consumed.params.guardInclusive = false ∧
    (consumed.buf .rxb).len + (3#16).toNat ≤ (consumed.buf .rxb).cap := by decide

/-- Four new bytes fit after the read; five would reach the consumed region. -/
theorem witness_RollbackRestoresReadBytes :
    (s0.buf .rxb).wf ∧ s0.params.guardInclusive = false ∧ (s0.buf .rxb).holds [1, 2, 3, 4] ∧
    (3#16).toNat ≤ ([1, 2, 3, 4] : List Byte).length ∧
    ([1, 2, 3, 4] : List Byte).length + ([5, 6, 7, 8] : List Byte).length ≤ (s0.buf .rxb).cap ∧
    ¬ (([1, 2, 3, 4] : List Byte).length + ([5, 6, 7, 8, 9] : List Byte).length ≤ (s0.buf .rxb).cap) ∧
    1 ≤ (3#16).toNat := by decide

theorem witness_PeekLeavesTheBufferUnchanged :
    ((rx 4 0 [1, 2, 3, 4]).buf .rxb).wf ∧ (rx 4 0 [1, 2, 3, 4]).params.guardInclusive = false ∧
    ((rx 4 0 [1, 2, 3, 4]).buf .rxb).holds [1, 2, 3, 4] ∧ ((rx 8 0 [9]).buf .rxb).holds [9] ∧
    ((rx 8 0 [9, 8]).buf .rxb).holds [9, 8] := by decide

theorem witness_BufWrcsumResult : (s0.buf .rxb).wf ∧ ((rx 4 0 [1, 2, 3, 4]).buf .rxb).wf := by decide

/-- END = LEN, an empty range at LEN, START above END, END above LEN. -/
theorem witness_BufWrcsumRResult :
    (s0.buf .rxb).wf ∧ ((2#16).toNat ≤ (4#16).toNat ∧ (4#16).toNat ≤ (s0.buf .rxb).len) ∧
    ((4#16).toNat ≤ (4#16).toNat ∧ (4#16).toNat ≤ (s0.buf .rxb).len) ∧
    ¬ ((3#16).toNat ≤ (2#16).toNat ∧ (2#16).toNat ≤ (s0.buf .rxb).len) ∧
    ¬ ((0#16).toNat ≤ (5#16).toNat ∧ (5#16).toNat ≤ (s0.buf .rxb).len) := by decide

/-- The sum of 1, 2, 3, 4 is 10; the changed buffer has another payload byte. -/
theorem witness_ChecksumDetectsAnyOneByteChange :
    (s0.buf .rxb).wf ∧ (s0.buf .rxb).holds [1, 2, 3, 4] ∧ ([1, 2, 3, 4] : List Byte).length < (s0.buf .rxb).cap ∧
    (∃ m, exec (.bufWrcsum .rxb) s0 = .next m ∧ (m.buf .rxb).holds [1, 2, 3, 4, 10]) ∧
    2 < ([1, 2, 3, 4, 10] : List Byte).length ∧ ([1, 2, 3, 4, 10] : List Byte)[2]? ≠ some 7 ∧
    ((rx 8 6 [1, 2, 7, 4, 10]).buf .rxb).holds (([1, 2, 3, 4, 10] : List Byte).set 2 7) :=
  ⟨by decide, by decide, by decide, ⟨_, rfl, by decide⟩, by decide, by decide, by decide⟩

theorem witness_TypedWrite16Result : ((rx 4 0 [1, 2, 3]).buf .rxb).wf ∧ (s0.buf .txb).wf := by decide

theorem witness_TypedWrite32Result : ((rx 4 0 [1, 2]).buf .rxb).wf ∧ (s0.buf .txb).wf := by decide

theorem witness_TypedRead16Result : ((rx 8 0 [0xF1]).buf .rxb).wf ∧ (exposed.buf .rxb).wf := by decide

theorem witness_TypedRead32Result : ((rx 8 0 [1, 2, 3]).buf .rxb).wf ∧ (exposed.buf .rxb).wf := by decide

/-- The whole value fits exactly, into an empty and into a non-empty buffer. -/
theorem witness_TypedRoundTrip :
    (s0.buf .rxb).wf ∧ (s0.buf .rxb).holds [1, 2, 3, 4] ∧
    ([1, 2, 3, 4] : List Byte).length + 2 ≤ (s0.buf .rxb).cap ∧
    ([1, 2, 3, 4] : List Byte).length + 4 ≤ (s0.buf .rxb).cap ∧
    ((rx 4 3 []).buf .rxb).wf ∧ ((rx 4 3 []).buf .rxb).holds [] ∧
    ([] : List Byte).length + 4 ≤ ((rx 4 3 []).buf .rxb).cap := by decide

theorem witness_ParseComputesTheLoopOverTheBytes :
    (rx 8 3 frameX2.bytes).rxb.wf ∧ (rx 8 3 frameX2.bytes).rxb.holds frameX2.bytes := by decide

theorem witness_IngestAppendsThenParses :
    s0.rxb.wf ∧ s0.rxb.holds [1, 2, 3, 4] ∧ s0.nextBurst = .bytes [5] ∧
    ({ s0 with src := [.bytes (List.replicate 6 1)] } : State).nextBurst = .bytes (List.replicate 6 1) := by decide

theorem witness_IngestStoresOnlyAtTheTail : s0.rxb.wf ∧ s0.nextBurst = .bytes [5] := by decide

/-- One state that stops SHORT and one that stops WAIT. -/
theorem witness_ParseExitsAndIsIdempotent :
    s0.rxb.wf ∧ s0.rxb.liveWritten ∧ (rx 8 5 [5, 0x1C, 10, 3, 2, 0xF1]).rxb.wf ∧
    (rx 8 5 [5, 0x1C, 10, 3, 2, 0xF1]).rxb.liveWritten := by decide

theorem witness_FsmTableIsTheParseLoop : 5 * ((buf 8 3 frameX2.bytes).len + 1) ≤ 45 := by decide

theorem witness_NoPartialDispatch :
    (rx 16 9 (0xFF :: frameX2.bytes)).rxb.wf ∧ (rx 16 9 (0xFF :: frameX2.bytes)).rxb.holds (0xFF :: frameX2.bytes) := by
  decide

theorem witness_ConsecutiveFramesDispatchInOrder :
    (rx 16 3 (frameX2.bytes ++ frameX2.bytes)).rxb.wf ∧
    (∀ f ∈ [frameX2, frameX2], f.magic = (rx 16 3 (frameX2.bytes ++ frameX2.bytes)).respMagic ∧ f.fits = true) ∧
    (rx 16 3 (frameX2.bytes ++ frameX2.bytes)).rxb.holds ([frameX2, frameX2].flatMap Frame.bytes) := by decide

theorem witness_BadFrameIsDiscardedWhole :
    (rx 16 9 (frameX2.body ++ [0x21] ++ [7])).rxb.wf ∧
    frameX2.magic = (rx 16 9 (frameX2.body ++ [0x21] ++ [7])).respMagic ∧ frameX2.fits = true ∧
    (0x21 : Byte) ≠ sum8 frameX2.body ∧
    (rx 16 9 (frameX2.body ++ [0x21] ++ [7])).rxb.holds (frameX2.body ++ [0x21] ++ [7]) := by decide

/-- The frame fills RXB exactly. -/
theorem witness_IncrementalDelivery :
    let s : State := { rx 8 5 [] with src := frameX2.bytes.map (fun v => .bytes [v]) ++ [.endless] }
    s.rxb.wf ∧ s.rxb.len = 0 ∧ frameX2.magic = s.respMagic ∧ frameX2.fits = true ∧ frameX2.size ≤ s.rxb.cap ∧
    s.src = frameX2.bytes.map (fun v => .bytes [v]) ++ [.endless] := by decide

/-- 95_test_vectors.md X8's garbage: its last byte and the frame's first do not spell the header. -/
theorem witness_Resynchronization :
    let g : List Byte := [0x00, 0x11, 0x22, 0x33, 0x1C]
    (rx 16 9 (g ++ frameX2.bytes)).rxb.wf ∧ frameX2.magic = (rx 16 9 (g ++ frameX2.bytes)).respMagic ∧
    frameX2.fits = true ∧
    (∀ k, k < g.length → (g ++ frameX2.bytes).getD (k + 1) 0 ++ (g ++ frameX2.bytes).getD k 0 ≠
      (rx 16 9 (g ++ frameX2.bytes)).respMagic) ∧
    (rx 16 9 (g ++ frameX2.bytes)).rxb.holds (g ++ frameX2.bytes) := by decide

/-- The declared frame is one byte larger than CAP_RX. -/
theorem witness_OversizeStall :
    let s : State := { rx 8 5 [5, 0x1C, 10, 4, 0] with src := [.bytes [1, 2], .bytes []] }
    s.rxb.wf ∧ s.Stalled ∧ ∀ x ∈ s.src, x ≠ .endless :=
  ⟨by decide, ⟨by decide, by decide, by decide, 10, 4, by decide, by decide, by decide⟩, by decide⟩

/-- The least capacity a frame fits in. -/
theorem witness_RoomAfterParseUnlessStalled :
    (rx 5 3 [5, 0x1C, 10, 0, 0x2B]).rxb.wf ∧ 5 ≤ (rx 5 3 [5, 0x1C, 10, 0, 0x2B]).rxb.cap ∧
    (rx 5 3 [5, 0x1C, 10, 0, 0x2B]).rxb.liveWritten := by decide

/-- Cell 0 is `⊥` in the first state, cell 1 in the second; the third has a `⊥` cell in front and bytes from its source. -/
theorem witness_ParseRecordsAnUnwrittenHeader :
    5 ≤ ((buf 8 0 [1, 2, 3, 4]).rewind 1).len ∧ ((buf 8 0 [1, 2, 3, 4]).rewind 1).cellAt 0 = none ∧
    5 ≤ ((buf 8 0 [1, 2, 3]).rewind 2).len ∧ ((buf 8 0 [1, 2, 3]).rewind 2).cellAt 1 = none ∧
    exposed.rxb.wf ∧ ({ exposed with src := [.bytes [1, 2]] } : State).nextBurst = .bytes [1, 2] := by decide

/-- The longest payload; a capacity the frame fits in exactly and one it does not fit in. -/
theorem witness_BuildRequestResult :
    s0.txb.wf ∧ (List.replicate 255 (0 : Byte)).length ≤ 255 ∧ 5 + ([1, 2, 3] : List Byte).length ≤ s0.txb.cap ∧
    ¬ (5 + ([1, 2, 3, 4] : List Byte).length ≤ s0.txb.cap) := by
  refine ⟨by decide, Nat.le_of_eq List.length_replicate, by decide, by decide⟩

theorem witness_BuiltFramesAreValid :
    s0.txb.wf ∧ ([1, 2, 3] : List Byte).length ≤ 255 ∧ 5 + ([1, 2, 3] : List Byte).length ≤ s0.txb.cap := by decide

theorem witness_DrainResult : s0.txb.wf ∧ ((buf 8 0 [1]).rewind 1).wf := by decide

theorem witness_IssueResult : s0.txb.wf ∧ ([1, 2, 3, 4] : List Byte).length ≤ 255 := by decide

theorem witness_ResponseWordPacking : ∃ t, exec (.bufReadN .rxb 3) s0 = .next t := ⟨_, rfl⟩

end Sys2Proof.Tests
end

/-! Proofs of the statements about one step: what stays written and what a command taken delivers. -/

namespace Sys2Proof.Machine

/-! ## The instances, seen through `State.buf` -/

theorem State.buf_wf_of_inv {s : State} (h : s.Inv) (sel : BufSel) : (s.buf sel).wf := by
  obtain ⟨hrxb, htxb, -⟩ := h
  cases sel with
  | rxb => exact hrxb
  | txb => exact htxb

theorem State.liveWritten_iff_buf (s : State) : s.LiveWritten ↔ ∀ sel, (s.buf sel).liveWritten := by
  constructor
  · rintro ⟨hrxb, htxb⟩ sel
    cases sel with
    | rxb => exact hrxb
    | txb => exact htxb
  · exact fun h => ⟨h .rxb, h .txb⟩

/-- A command that leaves written live cells in its own instance leaves them in both. -/
theorem State.finish_liveWritten {s : State} {sel : BufSel} {b : Buffer} {touched : Bool} {r : Response}
    (h : s.LiveWritten) (hb : b.liveWritten) : (s.finish sel b touched r).LiveWritten := by
  rw [State.liveWritten_iff_buf] at h ⊢
  intro sel'
  by_cases he : sel' = sel
  · subst he
    rw [State.finish_buf_self]
    exact hb
  · rw [State.finish_buf_ne s b touched r he]
    exact h sel'

/-! ## A refused encoding (30_encoding.md R84) -/

theorem State.refuse_liveWritten {s : State} (h : s.LiveWritten) : s.refuse.LiveWritten := h

theorem State.sameRecord_refuse (s : State) : s.sameRecord s.refuse := ⟨rfl, rfl⟩

/-! ## What one response adds to the logs (30_encoding.md R80) -/

/-- `t` has delivered one response more than `s`, and the SNK and DSP logs have grown by its lists. -/
def State.DeliversOne (s t : State) : Prop :=
  ∃ r, t.responses = s.responses ++ [r] ∧ t.snk = s.snk ++ r.snk ∧ t.dsp = s.dsp ++ r.dsp

theorem State.refuse_deliversOne (s : State) :
    s.refuse.index = s.index ∧ s.refuse.cmd = s.cmd ∧ s.DeliversOne s.refuse :=
  ⟨rfl, rfl, { status := .refused }, rfl, rfl, rfl⟩

/-! ## Every command -/

/-- No command but BUF_BACK exposes a `⊥` cell or finds one (60_exceptions.md R203). -/
theorem exec_keeps_liveWritten {i : Instr} {s t : State} (hi : s.Inv) (hl : s.LiveWritten)
    (hb : ∀ sel k, i ≠ .bufBack sel k) (h : exec i s = .next t) : t.LiveWritten ∧ s.sameRecord t := by
  obtain ⟨b, touched, r, rfl, hk⟩ := exec_next h
  obtain ⟨hlive, rfl⟩ :=
    hk.live hb (State.buf_wf_of_inv hi _) ((State.liveWritten_iff_buf s).1 hl _)
  have hsrc : (s.sourced i).LiveWritten := by simpa [State.LiveWritten] using hl
  exact ⟨State.finish_liveWritten hsrc hlive, by simp [State.sameRecord]⟩

/-- A command moves neither the words on CMD nor the index (`step` does, on taking it), and delivers one response. -/
theorem exec_deliversOne {i : Instr} {s t : State} (h : exec i s = .next t) :
    t.index = s.index ∧ t.cmd = s.cmd ∧ s.DeliversOne t := by
  obtain ⟨b, touched, r, rfl, -⟩ := exec_next h
  exact ⟨by simp, by simp, r, by simp, by simp, by simp⟩

/-! ## What stands at the front of CMD (30_encoding.md R76) -/

/-- Whatever is taken from CMD, run or refused, has its command word at least. -/
theorem fetchCommand_cases (ws : List Word) :
    fetchCommand ws = .idle ∨ (∃ i n, 1 ≤ n ∧ fetchCommand ws = .command i n) ∨
      ∃ e n, 1 ≤ n ∧ fetchCommand ws = .rejected e n := by
  cases ws with
  | nil => exact .inl rfl
  | cons w rest =>
    by_cases hl : rest.length < extCount w
    · exact .inl (if_pos hl)
    · rw [fetchCommand, if_neg hl]
      cases decodeCommand w (rest.take (extCount w)) with
      | ok i => exact .inr (.inl ⟨i, _, Nat.le_add_right 1 _, rfl⟩)
      | error e => exact .inr (.inr ⟨e, _, Nat.le_add_right 1 _, rfl⟩)

theorem one_le_of_fetchCommand_command {ws : List Word} {i : Instr} {n : Nat}
    (h : fetchCommand ws = .command i n) : 1 ≤ n := by
  rcases fetchCommand_cases ws with h' | ⟨_, _, hn, h'⟩ | ⟨_, _, _, h'⟩ <;> rw [h] at h' <;> cases h'
  exact hn

theorem one_le_of_fetchCommand_rejected {ws : List Word} {e : DecodeError} {n : Nat}
    (h : fetchCommand ws = .rejected e n) : 1 ≤ n := by
  rcases fetchCommand_cases ws with h' | ⟨_, _, _, h'⟩ | ⟨_, _, hn, h'⟩ <;> rw [h] at h' <;> cases h'
  exact hn

/-! ## The statements -/

/-- Settles O16: of the three things a step can do, only running BUF_BACK exposes a cell (`Keeps.live`). -/
theorem onlyBackExposesUnwrittenCells : Obligations.OnlyBackExposesUnwrittenCells := by
  intro s t hi hl hnb h
  rcases step_cases h with ⟨-, rfl⟩ | ⟨i, n, hf, he⟩ | ⟨e, n, -, rfl⟩
  · exact ⟨hl, rfl, rfl⟩
  · have hb : ∀ sel k, i ≠ .bufBack sel k := fun sel k hik => hnb n sel k (hik ▸ hf)
    exact exec_keeps_liveWritten (s := s.accept n) hi hl hb he
  · exact ⟨State.refuse_liveWritten (s := s.accept n) hl, (s.accept n).sameRecord_refuse⟩

/-- Settles O10: taking the words advances the index, and running or refusing the command delivers one response. -/
theorem oneResponsePerCommand : Obligations.OneResponsePerCommand := by
  intro s t h
  rcases step_cases h with hidle | ⟨i, n, hf, he⟩ | ⟨e, n, hf, rfl⟩
  · exact .inl hidle
  · obtain ⟨hindex, hcmd, r, hresp, hsnk, hdsp⟩ := exec_deliversOne he
    exact .inr ⟨hindex, r, hresp, hsnk, hdsp, n, one_le_of_fetchCommand_command hf, hcmd⟩
  · obtain ⟨hindex, hcmd, r, hresp, hsnk, hdsp⟩ := (s.accept n).refuse_deliversOne
    exact .inr ⟨hindex, r, hresp, hsnk, hdsp, n, one_le_of_fetchCommand_rejected hf, hcmd⟩

end Sys2Proof.Machine

/-! Proofs of the statements about the whole state: the values at reset, what every step keeps, and programs issued on
CMD (10_state.md). -/

namespace Sys2Proof

/-! ## What each decoder form reads from an encoded command word (30_encoding.md R70 to R75) -/

theorem decodeBuf_cmdWord (opc : Byte) (b : BufSel) (mk : BufSel → Instr) :
    decodeBuf (cmdWord opc b.bit 0#16) mk = .ok (mk b) := by simp [decodeBuf_ok]

theorem decodeBufV8_cmdWord (opc : Byte) (b : BufSel) (v : Byte) (mk : BufSel → Byte → Instr) :
    decodeBufV8 (cmdWord opc b.bit (0#8 ++ v)) mk = .ok (mk b v) := by simp [decodeBufV8_ok]

theorem decodeBufImm_cmdWord (opc : Byte) (b : BufSel) (v : Half) (mk : BufSel → Half → Instr) :
    decodeBufImm (cmdWord opc b.bit v) mk = .ok (mk b v) := by simp [decodeBufImm_ok]

theorem decodeBufWord_cmdWord (opc : Byte) (b : BufSel) (x : Word) (mk : BufSel → Word → Instr) :
    decodeBufWord (cmdWord opc b.bit 0#16) [x] mk = .ok (mk b x) := by simp [decodeBufWord_ok]

theorem decodeEng_cmdWord (opc : Byte) (i : Instr) : decodeEng (cmdWord opc false 0#16) i = .ok i := by
  simp [decodeEng_ok]

theorem decodeBufData_cmdWord (opc : Byte) (b : BufSel) {d : List Byte} (mk : BufSel → List Byte → Instr)
    (h : d.length ≤ maxDataN16) :
    decodeBufData (cmdWord opc b.bit (BitVec.ofNat 16 d.length)) (packWords d) mk = .ok (mk b d) := by
  have hl : (BitVec.ofNat 16 d.length).toNat = d.length := Nat.mod_eq_of_lt (Nat.lt_succ_of_le h)
  rw [decodeBufData_ok]
  exact ⟨by simp, d, by rw [immField_cmdWord, hl, decodeData_packWords], by simp⟩

theorem decodeEngFrame_cmdWord (opc op : Byte) {d : List Byte} (mk : Byte → List Byte → Instr)
    (h : d.length ≤ maxDataN8) :
    decodeEngFrame (cmdWord opc false (BitVec.ofNat 8 d.length ++ op)) (packWords d) mk = .ok (mk op d) := by
  have hl : (BitVec.ofNat 8 d.length).toNat = d.length := Nat.mod_eq_of_lt (Nat.lt_succ_of_le h)
  rw [decodeEngFrame_ok]
  exact ⟨by simp, by simp, d, by rw [immHigh_cmdWord, hl, decodeData_packWords], by simp⟩

/-! ## A well-formed command at the front of CMD (30_encoding.md R76, R77) -/

/-- The opcode map read at an encoded command word: the arm of the word's OPC decodes it. -/
theorem decodeCommand_encode {i : Instr} (h : i.wf = true) {w : Word} {ext : List Word} (he : encode i = w :: ext) :
    decodeCommand w ext = .ok i := by
  cases i with
  | bufInit b | bufClear b | bufRead b | bufChecksum b | bufWrcsum b | bufStat b
  | bufReadU16 b | bufReadI16 b | bufReadU32 b | bufReadI32 b | bufReadF32 b =>
    cases he; simp [decodeCommand, decodeBuf_cmdWord]
  | bufWrite b v => cases he; simp [decodeCommand, decodeBufV8_cmdWord]
  | bufReadN b v | bufForward b v | bufBack b v | bufWriteU16 b v | bufWriteI16 b v =>
    cases he; simp [decodeCommand, decodeBufImm_cmdWord]
  | bufWrcsumR b start stop => cases he; simp [decodeCommand, decodeBufWord_cmdWord]
  | bufWriteU32 b v | bufWriteI32 b v | bufWriteF32 b v => cases he; simp [decodeCommand, decodeBufWord_cmdWord]
  | parse | ingest | drain => cases he; simp [decodeCommand, decodeEng_cmdWord]
  | bufWriteN b d => cases he; simp [decodeCommand, decodeBufData_cmdWord _ _ _ (of_decide_eq_true h)]
  | buildRequest op d | issue op d =>
    cases he; simp [decodeCommand, decodeEngFrame_cmdWord _ _ _ (of_decide_eq_true h)]

open Laws.EncodeWords in
/-- The one-command lemmas of `Laws.EncodeWords`, over all commands. -/
theorem encode_words (i : Instr) : Statement i := by
  cases i with
  | bufInit => exact bufInit _
  | bufClear => exact bufClear _
  | bufWrite => exact bufWrite _ _
  | bufWriteN => exact bufWriteN _ _
  | bufRead => exact bufRead _
  | bufReadN => exact bufReadN _ _
  | bufForward => exact bufForward _ _
  | bufBack => exact bufBack _ _
  | bufChecksum => exact bufChecksum _
  | bufWrcsum => exact bufWrcsum _
  | bufWrcsumR => exact bufWrcsumR _ _ _
  | bufStat => exact bufStat _
  | bufWriteU16 => exact bufWriteU16 _ _
  | bufWriteI16 => exact bufWriteI16 _ _
  | bufWriteU32 => exact bufWriteU32 _ _
  | bufWriteI32 => exact bufWriteI32 _ _
  | bufWriteF32 => exact bufWriteF32 _ _
  | bufReadU16 => exact bufReadU16 _
  | bufReadI16 => exact bufReadI16 _
  | bufReadU32 => exact bufReadU32 _
  | bufReadI32 => exact bufReadI32 _
  | bufReadF32 => exact bufReadF32 _
  | parse => exact Laws.EncodeWords.parse
  | ingest => exact Laws.EncodeWords.ingest
  | buildRequest => exact buildRequest _ _
  | drain => exact Laws.EncodeWords.drain
  | issue => exact issue _ _

/-- A well-formed command issued as words is fetched from the front of CMD, whatever waits behind it. -/
theorem fetchCommand_encode {i : Instr} (h : i.wf = true) (rest : List Word) :
    fetchCommand (encode i ++ rest) = .command i (encode i).length := by
  obtain ⟨w, ext, he, hlen, -, -⟩ := encode_words i h
  rw [he, List.cons_append, fetchCommand, if_neg (by simp [hlen]), List.take_left' hlen, decodeCommand_encode h he]
  simp [hlen, Nat.add_comm]

end Sys2Proof

namespace Sys2Proof.Machine

/-! ## Running a command does not read the words waiting on CMD (10_state.md R24) -/

@[simp] theorem State.issueWords_nil (s : State) : s.issueWords [] = s := by simp [State.issueWords]
@[simp] theorem State.issueWords_buf (s : State) (ws : List Word) (sel : BufSel) :
    (s.issueWords ws).buf sel = s.buf sel := by cases sel <;> rfl
@[simp] theorem State.issueWords_rxb (s : State) (ws : List Word) : (s.issueWords ws).rxb = s.rxb := rfl
@[simp] theorem State.issueWords_txb (s : State) (ws : List Word) : (s.issueWords ws).txb = s.txb := rfl
@[simp] theorem State.issueWords_params (s : State) (ws : List Word) : (s.issueWords ws).params = s.params := rfl
@[simp] theorem State.issueWords_unknown (s : State) (ws : List Word) : (s.issueWords ws).unknown = s.unknown := rfl
@[simp] theorem State.issueWords_respMagic (s : State) (ws : List Word) :
    (s.issueWords ws).respMagic = s.respMagic := rfl
@[simp] theorem State.issueWords_nextBurst (s : State) (ws : List Word) :
    (s.issueWords ws).nextBurst = s.nextBurst := rfl
@[simp] theorem State.issueWords_dropBurst (s : State) (ws : List Word) :
    (s.issueWords ws).dropBurst = s.dropBurst.issueWords ws := rfl
@[simp] theorem State.issueWords_finish (s : State) (ws : List Word) (sel : BufSel) (b : Buffer) (touched : Bool)
    (r : Response) : (s.issueWords ws).finish sel b touched r = (s.finish sel b touched r).issueWords ws := by
  cases sel <;> rfl

/-- The same outcome, with further words issued where the command completes. -/
def issueAfter (ws : List Word) : Host.Outcome State Fault Refusal → Host.Outcome State Fault Refusal
  | .next t => .next (t.issueWords ws)
  | .fault f => .fault f
  | .refused r => .refused r

@[simp] theorem issueAfter_next (ws : List Word) (t : State) : issueAfter ws (.next t) = .next (t.issueWords ws) := rfl
@[simp] theorem issueAfter_fault (ws : List Word) (f : Fault) : issueAfter ws (.fault f) = .fault f := rfl

/-- Issuing words and running a command commute: every command reads the buffers, the configuration, the source and the
draw counter only, and ends in `finish`. -/
theorem exec_issueWords (i : Instr) (s : State) (ws : List Word) :
    exec i (s.issueWords ws) = issueAfter ws (exec i s) := by
  cases i with
  | bufInit b => simp [exec, execBufInit]
  | bufClear b => simp [exec, execBufClear]
  | bufWrite b v => simp [exec, execBufWrite]
  | bufWriteN b d => simp [exec, execBufWriteN]
  | bufRead b => simp [exec, execBufRead]
  | bufReadN b n => simp [exec, execBufReadN]
  | bufForward b k => simp [exec, execBufForward]
  | bufBack b k => simp [exec, execBufBack]
  | bufChecksum b => simp [exec, execBufChecksum]
  | bufWrcsum b => simp [exec, execBufWrcsum]
  | bufWrcsumR b start stop =>
    by_cases h : start.toNat ≤ stop.toNat ∧ stop.toNat ≤ (s.buf b).len
    · simp [exec, execBufWrcsumR, h]
    · simp [exec, execBufWrcsumR, h]
  | bufStat b => simp [exec, execBufStat]
  | bufWriteU16 b v => simp [exec, execBufWriteU16, typedWrite]
  | bufWriteI16 b v => simp [exec, execBufWriteI16, typedWrite]
  | bufWriteU32 b v => simp [exec, execBufWriteU32, typedWrite]
  | bufWriteI32 b v => simp [exec, execBufWriteI32, typedWrite]
  | bufWriteF32 b v => simp [exec, execBufWriteF32, typedWrite]
  | bufReadU16 b => simp [exec, execBufReadU16, typedRead]
  | bufReadI16 b => simp [exec, execBufReadI16, typedRead]
  | bufReadU32 b => simp [exec, execBufReadU32, typedRead]
  | bufReadI32 b => simp [exec, execBufReadI32, typedRead]
  | bufReadF32 b => simp [exec, execBufReadF32, typedRead]
  | parse => simp [exec, execParse]
  | ingest =>
    cases h : s.nextBurst with
    | endless => simp [exec, execIngest, h]
    | bytes d => simp only [exec, execIngest, State.issueWords_nextBurst, h]; rfl
  | buildRequest op d => simp [exec, execBuildRequest]
  | drain => simp [exec, execDrain]
  | issue op d => simp [exec, execIssue]

/-! ## One step on a program issued as words (10_state.md R24, 20_memory.md R50) -/

/-- Taking the first command's words off an otherwise empty CMD leaves the words issued after them. -/
theorem State.issueWords_accept {s : State} (h : s.cmd = []) (ws rest : List Word) :
    (s.issueWords (ws ++ rest)).accept ws.length = s.tick.issueWords rest := by
  simp [State.issueWords, State.accept, State.tick, h]

/-- A step at a whole command runs it. -/
theorem step_of_fetchCommand {s : State} {i : Instr} {n : Nat} (h : fetchCommand s.cmd = .command i n) :
    step s = exec i (s.accept n) := by simp only [step, h]

theorem step_issueWords_encode {i : Instr} (hi : i.wf = true) {s : State} (h : s.cmd = []) (rest : List Word) :
    step (s.issueWords (encode i ++ rest)) = issueAfter rest (exec i s.tick) := by
  have hf : fetchCommand (s.issueWords (encode i ++ rest)).cmd = .command i (encode i).length := by
    rw [State.issueWords_cmd, h, List.nil_append, fetchCommand_encode hi]
  rw [step_of_fetchCommand hf, State.issueWords_accept h, exec_issueWords]

/-! ## Runs, one command at a time -/

theorem run_of_next {s t : State} (k : Nat) (h : step s = .next t) :
    (Host.Core.run core (k + 1) s : Host.Outcome State Fault Refusal) = Host.Core.run core k t := by
  simp [Host.Core.run, core, h]

theorem run_of_fault {s : State} {f : Fault} (k : Nat) (h : step s = .fault f) :
    (Host.Core.run core (k + 1) s : Host.Outcome State Fault Refusal) = .fault f := by
  simp [Host.Core.run, core, h]

theorem runCommands_of_next {i : Instr} {s t : State} (rest : List Instr) (h : exec i s.tick = .next t) :
    runCommands (i :: rest) s = runCommands rest t := by simp only [runCommands, h]

theorem runCommands_of_fault {i : Instr} {s : State} {f : Fault} (rest : List Instr) (h : exec i s.tick = .fault f) :
    runCommands (i :: rest) s = .fault f := by simp only [runCommands, h]

/-! ## What one command does to each instance and to the configuration -/

/-- A command leaves an instance as it was, or the instance is its own and keeps what `Keeps` says. -/
theorem exec_buf {i : Instr} {s t : State} (h : exec i s = .next t) (sel : BufSel) :
    t.buf sel = s.buf sel ∨
      sel = instanceOf i ∧ ∃ touched r, Keeps i (s.buf sel) (t.buf sel) touched r := by
  obtain ⟨b, touched, r, rfl, hk⟩ := exec_next h
  by_cases he : sel = instanceOf i
  · subst he
    exact .inr ⟨rfl, touched, r, by simpa using hk⟩
  · exact .inl (by rw [State.finish_buf_ne _ b touched r he, State.sourced_buf])

theorem exec_params {i : Instr} {s t : State} (h : exec i s = .next t) : t.params = s.params := by
  obtain ⟨b, touched, r, rfl, -⟩ := exec_next h
  simp

theorem exec_cap {i : Instr} {s t : State} (h : exec i s = .next t) (sel : BufSel) :
    (t.buf sel).cap = (s.buf sel).cap := by
  rcases exec_buf h sel with he | ⟨-, touched, r, hk⟩
  · rw [he]
  · exact hk.cap

theorem exec_wf {i : Instr} {s t : State} (h : exec i s = .next t) {sel : BufSel} (hw : (s.buf sel).wf) :
    (t.buf sel).wf := by
  rcases exec_buf h sel with he | ⟨-, touched, r, hk⟩
  · rwa [he]
  · exact hk.wf hw

theorem exec_sameConfig {i : Instr} {s t : State} (h : exec i s = .next t) : s.sameConfig t :=
  ⟨exec_params h, exec_cap h .rxb, exec_cap h .txb⟩

theorem exec_keeps_inv {i : Instr} {s t : State} (hi : s.Inv) (h : exec i s = .next t) : t.Inv := by
  obtain ⟨hrxb, htxb, hmagic⟩ := hi
  exact ⟨exec_wf h (sel := .rxb) hrxb, exec_wf h (sel := .txb) htxb, by rwa [exec_params h]⟩

/-! ## A buffer right after reset (10_state.md R31) -/

theorem Buffer.fresh_wf {cap : Nat} (h1 : 1 ≤ cap) (h2 : cap ≤ Config.maxCap) : (Buffer.fresh cap).wf :=
  ⟨h1, h2, h1, Nat.zero_le _, List.Pairwise.nil, by simp [Buffer.fresh]⟩

theorem Buffer.fresh_liveWritten (cap : Nat) : (Buffer.fresh cap).liveWritten :=
  fun k hk => absurd hk (Nat.not_lt_zero k)

/-- The free value of RESP_MAGIC is an admissible one (00_scope.md R7). -/
theorem respMagicAtBuild_ne_reqMagic : Config.respMagicAtBuild ≠ Config.reqMagic := by
  unfold Config.respMagicAtBuild
  split
  · decide
  · assumption

/-! ## The statements -/

/-- Settles O9, by induction on the program: each step takes the first command's words and runs it, and the words of the
rest, still waiting, change nothing of what it does. -/
theorem issuedProgramRunsInOrder : Obligations.IssuedProgramRunsInOrder := by
  intro prog
  induction prog with
  | nil =>
    intro s _ _
    rw [List.flatMap_nil, State.issueWords_nil]
    rfl
  | cons i rest ih =>
    intro s hwf hcmd
    obtain ⟨hi, hrest⟩ := List.forall_mem_cons.1 hwf
    have hstep := step_issueWords_encode hi hcmd (rest.flatMap encode)
    rw [List.flatMap_cons, List.length_cons]
    rcases exec_cases i s.tick with ⟨-, -, he⟩ | ⟨-, b, touched, r, he, -⟩ <;> rw [he] at hstep
    · exact (run_of_fault _ hstep).trans (runCommands_of_fault rest he).symm
    · rw [run_of_next _ hstep, runCommands_of_next rest he]
      exact ih _ hrest (by simpa using hcmd)

/-- Settles O15: a step is idle, runs a command, which keeps both instances well formed (`Keeps.wf`), or refuses an
encoding and touches neither. -/
theorem everyStepKeepsTheBounds : Obligations.EveryStepKeepsTheBounds := by
  intro s t hi h
  rcases step_cases h with ⟨-, rfl⟩ | ⟨i, n, -, he⟩ | ⟨e, n, -, rfl⟩
  · exact hi
  · exact exec_keeps_inv (s := s.accept n) hi he
  · exact hi

/-- Settles O18: of the things a step can do, only running a command writes the buffers, and it keeps their capacities
(`Keeps.cap`). -/
theorem configurationIsNeverWritten : Obligations.ConfigurationIsNeverWritten := by
  intro s t h
  rcases step_cases h with ⟨-, rfl⟩ | ⟨i, n, -, he⟩ | ⟨e, n, -, rfl⟩
  · exact ⟨rfl, rfl, rfl⟩
  · exact exec_sameConfig (s := s.accept n) he
  · exact ⟨rfl, rfl, rfl⟩

/-- Settles O19: the command's own instance is the only one that can change, and there `Keeps` says which cells stay. -/
theorem cellsChangeOnlyByAppendOrInit : Obligations.CellsChangeOnlyByAppendOrInit := by
  intro i s t h
  refine ⟨fun hw sel => ?_, fun sel a hs ht => ?_⟩
  · rcases exec_buf h sel with he | ⟨-, touched, r, hk⟩
    · rw [he]
    · exact hk.mem hw
  · rcases exec_buf h sel with he | ⟨rfl, touched, r, hk⟩
    · exact absurd (he ▸ ht) hs
    · by_contra hne
      have hinit : ∀ sel', i ≠ .bufInit sel' := by
        rintro sel' rfl
        exact hne rfl
      exact hk.cells hinit a hs ht

/-- Settles O7, by the case of `step` that finds a whole command. -/
theorem stepRunsTheDecodedCommand : Obligations.StepRunsTheDecodedCommand :=
  fun _ _ _ h => step_of_fetchCommand h

/-- Settles O12: the values of the reset state, the free RESP_MAGIC by `respMagicAtBuild_ne_reqMagic`. -/
theorem resetValues : Obligations.ResetValues :=
  ⟨rfl, rfl, rfl, rfl, Memory.read_nil, Memory.read_nil, rfl, rfl, rfl, respMagicAtBuild_ne_reqMagic⟩

/-- Settles O14: both buffers are fresh, and a fresh buffer has no live cell. -/
theorem invariantsHoldAtReset : Obligations.InvariantsHoldAtReset :=
  ⟨⟨Buffer.fresh_wf (by decide) (by decide), Buffer.fresh_wf (by decide) (by decide), nofun⟩,
    Buffer.fresh_liveWritten _, Buffer.fresh_liveWritten _⟩

end Sys2Proof.Machine

/-! Proofs of the statements about the instances, the ports and who may change them (20_memory.md). -/

namespace Sys2Proof.Machine

/-! ## What one command leaves of the other instance and of the ports -/

/-- The one instance a command reaches is its own (20_memory.md R40). -/
theorem exec_buf_of_ne {i : Instr} {s t : State} (h : exec i s = .next t) {sel : BufSel} (hsel : sel ≠ instanceOf i) :
    t.buf sel = s.buf sel :=
  (exec_buf h sel).resolve_right fun ⟨heq, _⟩ => hsel heq

/-- The source moves on by one burst in INGEST only (42_parser.md R165). -/
theorem exec_src {i : Instr} {s t : State} (h : exec i s = .next t) :
    t.src = if i = .ingest then s.src.tail else s.src := by
  obtain ⟨b, touched, r, rfl, -⟩ := exec_next h
  rw [State.finish_src, State.sourced]
  split <;> rfl

/-- Only the two commands that drain TXB write to SNK (43_codec.md R182, R183). -/
theorem exec_snk {i : Instr} {s t : State} (h : exec i s = .next t) (hdrain : i ≠ .drain)
    (hissue : ∀ op d, i ≠ .issue op d) : t.snk = s.snk := by
  obtain ⟨b, touched, r, rfl, hk⟩ := exec_next h
  rw [State.finish_snk, hk.snk hdrain hissue, List.append_nil, State.sourced_snk]

/-- Only the two commands that parse write to DSP (42_parser.md R160). -/
theorem exec_dsp {i : Instr} {s t : State} (h : exec i s = .next t) (hparse : i ≠ .parse) (hingest : i ≠ .ingest) :
    t.dsp = s.dsp := by
  obtain ⟨b, touched, r, rfl, hk⟩ := exec_next h
  rw [State.finish_dsp, hk.dsp hparse hingest, List.append_nil, State.sourced_dsp]

/-- What all commands on TXB share: RXB, the words on CMD, SRC and DSP stay (43_codec.md R185). -/
theorem exec_txb_frame {i : Instr} {s t : State} (h : exec i s = .next t) (hi : instanceOf i = .txb) :
    s.sameConfig t ∧ t.rxb = s.rxb ∧ t.cmd = s.cmd ∧ t.index = s.index ∧ t.src = s.src ∧ t.dsp = s.dsp := by
  obtain ⟨hindex, hcmd, -⟩ := exec_deliversOne h
  have hparse : i ≠ .parse := by rintro rfl; cases hi
  have hingest : i ≠ .ingest := by rintro rfl; cases hi
  have hrxb : t.rxb = s.rxb := exec_buf_of_ne h (sel := .rxb) (by rw [hi]; nofun)
  have hsrc : t.src = s.src := (exec_src h).trans (if_neg hingest)
  exact ⟨exec_sameConfig h, hrxb, hcmd, hindex, hsrc, exec_dsp h hparse hingest⟩

/-! ## The statements -/

/-- Settles O20: each engine command's instance is fixed (`instanceOf`), the other one stays (`exec_buf_of_ne`), and each
port is written by the commands named in `exec_src`, `exec_snk` and `exec_dsp` alone. -/
theorem engineCommandsTouchTheirInstance : Obligations.EngineCommandsTouchTheirInstance := by
  refine ⟨fun s t h => ?parse, fun s t h => ?ingest, fun i s t op d hi h => ?request⟩
  case parse =>
    obtain ⟨hindex, hcmd, -⟩ := exec_deliversOne h
    obtain ⟨hmem, -⟩ := cellsChangeOnlyByAppendOrInit .parse s t h
    exact ⟨exec_sameConfig h, exec_buf_of_ne h (sel := .txb) nofun, hmem rfl .rxb, hcmd, hindex, exec_src h,
      exec_snk h nofun nofun⟩
  case ingest =>
    obtain ⟨hindex, hcmd, -⟩ := exec_deliversOne h
    exact ⟨exec_sameConfig h, exec_buf_of_ne h (sel := .txb) nofun, hcmd, hindex, exec_src h, exec_snk h nofun nofun⟩
  case request => rcases hi with rfl | rfl | rfl <;> exact exec_txb_frame h rfl

end Sys2Proof.Machine

/-! Proofs of the statements about the command encoding: what each command's words are, what the decoder accepts and
what it refuses, the peek idiom, and a response on its ports (30_encoding.md). -/

namespace Sys2Proof.Machine

/-! ## The bytes that data words carry (30_encoding.md R73) -/

theorem dataByte_cons_add_four (w : Word) (ws : List Word) (j : Nat) : dataByte (w :: ws) (j + 4) = dataByte ws j := by
  simp [dataByte]

/-- Byte `j` of the data words is bits `[8 (j mod 4) + 7 : 8 (j mod 4)]` of word `j / 4`. -/
theorem unpackWords_getElem? (ws : List Word) (j : Nat) (h : j < 4 * ws.length) :
    (unpackWords ws)[j]? = some (dataByte ws j) := by
  induction ws generalizing j with
  | nil => exact absurd h (Nat.not_lt_zero j)
  | cons w ws ih =>
    match j with
    | 0 | 1 | 2 | 3 => rfl
    | j + 4 =>
      rw [dataByte_cons_add_four, ← ih j (by simpa [Nat.mul_add] using h)]
      simp [unpackWords, wordBytes]

/-- The padding check of `decodeData`, byte by byte. -/
theorem padding_nonzero_iff (ws : List Word) (n : Nat) :
    ((unpackWords ws).drop n).any (· ≠ 0) = true ↔ ∃ j, n ≤ j ∧ j < 4 * ws.length ∧ dataByte ws j ≠ 0 := by
  simp only [List.any_eq_true, decide_eq_true_eq]
  constructor
  · rintro ⟨v, hv, hne⟩
    obtain ⟨k, hk⟩ := List.mem_iff_getElem?.1 hv
    rw [List.getElem?_drop] at hk
    have hlt : n + k < 4 * ws.length := by
      rw [← unpackWords_length]
      exact (List.getElem?_eq_some_iff.1 hk).1
    obtain rfl : dataByte ws (n + k) = v := by simpa [unpackWords_getElem? ws _ hlt] using hk
    exact ⟨n + k, Nat.le_add_right n k, hlt, hne⟩
  · rintro ⟨j, hn, hj, hne⟩
    refine ⟨_, List.mem_iff_getElem?.2 ⟨j - n, ?_⟩, hne⟩
    rw [List.getElem?_drop, Nat.add_sub_cancel' hn, unpackWords_getElem? ws j hj]

/-- Data words of the number `n` bytes need are read as `n` bytes, and they are the packing of those. -/
theorem decodeData_of_length {n : Nat} {ext : List Word} {d : List Byte} (hl : ext.length = dataWords n)
    (h : decodeData n ext = .ok d) : d.length = n ∧ packWords d = ext := by
  obtain ⟨hpad, rfl⟩ := decodeData_ok.1 h
  have hlen : n ≤ (unpackWords ext).length := by rw [unpackWords_length, hl, dataWords]; omega
  exact ⟨List.length_take_of_le hlen, packWords_take ext n hl hpad⟩

/-- A data sequence is refused for its padding only. -/
theorem decodeData_accepts_iff (n : Nat) (ext : List Word) :
    (∃ d, decodeData n ext = .ok d) ↔ ¬ ∃ j, n ≤ j ∧ j < 4 * ext.length ∧ dataByte ext j ≠ 0 := by
  simp only [decodeData_ok, exists_and_left, exists_eq, and_true, ← padding_nonzero_iff, Bool.not_eq_true]

/-! ## The opcode map (30_encoding.md R77) -/

/-- Every encoding begins with a command word under the command's OPC. -/
theorem encode_head (i : Instr) : ∃ b imm ext, encode i = cmdWord (opcodeOf i) b imm :: ext := by
  cases i <;> exact ⟨_, _, _, rfl⟩

theorem opcField_of_encode {i : Instr} {w : Word} {ext : List Word} (h : encode i = w :: ext) :
    opcField w = opcodeOf i := by
  obtain ⟨b, imm, ext', he⟩ := encode_head i
  obtain ⟨rfl, -⟩ := List.cons.inj (he.symm.trans h)
  exact opcField_cmdWord _ b imm

theorem opcField_eq_of_toNat {w : Word} {n : Nat} (h : (opcField w).toNat = n) : opcField w = BitVec.ofNat 8 n := by
  rw [← h, BitVec.ofNat_toNat, BitVec.setWidth_eq]

/-- An assigned OPC, with the conditions of R85 that apply to it: B is checked, IMM16 must be 0, only V8 may be nonzero,
and the data sequence has N16 or N8 bytes (30_encoding.md R71, R72, R77). -/
abbrev assignedWith (o : Nat) (engine immZero v8 n16 n8 : Prop := False) : Prop :=
  ¬ unassignedOpc o ∧ (0x40 ≤ o ↔ engine) ∧ (immMustBeZero o ↔ immZero) ∧ (o = 0x03 ↔ v8) ∧ (o = 0x04 ↔ n16) ∧
    (o = 0x42 ∨ o = 0x44 ↔ n8)

/-- The rows of the opcode map, by the form of the command word and its extension words: the OPC values of the form,
what the decoder answers to it, and the words of the commands it reads (30_encoding.md R72, R77). -/
inductive DecodesAs (w : Word) (ext : List Word) : Except DecodeError Instr → Prop
  | unassigned (ho : unassignedOpc (opcField w).toNat) : DecodesAs w ext (.error .unassignedOpcode)
  | buf {o : Byte} {mk : BufSel → Instr} (ho : opcField w = o) (hrow : assignedWith o.toNat (immZero := True))
      (hext : extCount w = 0) (henc : ∀ b, (mk b).wf = true ∧ encode (mk b) = [cmdWord o b.bit 0]) :
      DecodesAs w ext (decodeBuf w mk)
  | bufV8 {o : Byte} {mk : BufSel → Byte → Instr} (ho : opcField w = o) (hrow : assignedWith o.toNat (v8 := True))
      (hext : extCount w = 0) (henc : ∀ b v, (mk b v).wf = true ∧ encode (mk b v) = [cmdWord o b.bit (0#8 ++ v)]) :
      DecodesAs w ext (decodeBufV8 w mk)
  | bufImm {o : Byte} {mk : BufSel → Half → Instr} (ho : opcField w = o) (hrow : assignedWith o.toNat)
      (hext : extCount w = 0) (henc : ∀ b v, (mk b v).wf = true ∧ encode (mk b v) = [cmdWord o b.bit v]) :
      DecodesAs w ext (decodeBufImm w mk)
  | bufWord {o : Byte} {mk : BufSel → Word → Instr} (ho : opcField w = o)
      (hrow : assignedWith o.toNat (immZero := True)) (hext : extCount w = 1)
      (henc : ∀ b x, (mk b x).wf = true ∧ encode (mk b x) = [cmdWord o b.bit 0, x]) :
      DecodesAs w ext (decodeBufWord w ext mk)
  | bufData {o : Byte} {mk : BufSel → List Byte → Instr} (ho : opcField w = o)
      (hrow : assignedWith o.toNat (n16 := True)) (hext : extCount w = dataWords (immField w).toNat)
      (henc : ∀ b d, (mk b d).wf = decide (d.length ≤ maxDataN16) ∧
        encode (mk b d) = cmdWord o b.bit (BitVec.ofNat 16 d.length) :: packWords d) :
      DecodesAs w ext (decodeBufData w ext mk)
  | eng {o : Byte} {i : Instr} (ho : opcField w = o)
      (hrow : assignedWith o.toNat (engine := True) (immZero := True)) (hext : extCount w = 0)
      (henc : i.wf = true ∧ encode i = [cmdWord o false 0]) :
      DecodesAs w ext (decodeEng w i)
  | engFrame {o : Byte} {mk : Byte → List Byte → Instr} (ho : opcField w = o)
      (hrow : assignedWith o.toNat (engine := True) (n8 := True))
      (hext : extCount w = dataWords (immHigh w).toNat)
      (henc : ∀ op d, (mk op d).wf = decide (d.length ≤ maxDataN8) ∧
        encode (mk op d) = cmdWord o false (BitVec.ofNat 8 d.length ++ op) :: packWords d) :
      DecodesAs w ext (decodeEngFrame w ext mk)

/-- The decoder follows the opcode map. -/
theorem decodeCommand_decodesAs (w : Word) (ext : List Word) : DecodesAs w ext (decodeCommand w ext) := by
  unfold decodeCommand
  split
  case h_1 h | h_2 h | h_5 h | h_9 h | h_10 h | h_12 h | h_18 h | h_19 h | h_20 h | h_21 h | h_22 h =>
    exact .buf (opcField_eq_of_toNat h) (by decide) (by simp [extCount, h]) (fun _ => ⟨rfl, rfl⟩)
  case h_3 h => exact .bufV8 (opcField_eq_of_toNat h) (by decide) (by simp [extCount, h]) (fun _ _ => ⟨rfl, rfl⟩)
  case h_4 h => exact .bufData (opcField_eq_of_toNat h) (by decide) (by simp [extCount, h]) (fun _ _ => ⟨rfl, rfl⟩)
  case h_6 h | h_7 h | h_8 h | h_13 h | h_14 h =>
    exact .bufImm (opcField_eq_of_toNat h) (by decide) (by simp [extCount, h]) (fun _ _ => ⟨rfl, rfl⟩)
  case h_11 h =>
    refine .bufWord (opcField_eq_of_toNat h) (by decide) (by simp [extCount, h]) (fun b x => ⟨rfl, ?_⟩)
    rw [encode, range_append]
    rfl
  case h_15 h | h_16 h | h_17 h =>
    exact .bufWord (opcField_eq_of_toNat h) (by decide) (by simp [extCount, h]) (fun _ _ => ⟨rfl, rfl⟩)
  case h_23 h | h_24 h | h_26 h => exact .eng (opcField_eq_of_toNat h) (by decide) (by simp [extCount, h]) ⟨rfl, rfl⟩
  case h_25 h | h_27 h =>
    exact .engFrame (opcField_eq_of_toNat h) (by decide) (by simp [extCount, h]) (fun _ _ => ⟨rfl, rfl⟩)
  case h_28 =>
    refine .unassigned ?_
    simp only [imp_false] at *
    omega

section DecodesAs

variable {w : Word} {ext : List Word} {x : Except DecodeError Instr} {i : Instr}

/-- Whatever row of the map accepts, its command has exactly the accepted words. -/
theorem DecodesAs.encode_eq (hf : DecodesAs w ext x) (hl : ext.length = extCount w) (h : x = .ok i) :
    i.wf = true ∧ encode i = w :: ext := by
  cases hf with
  | unassigned => cases h
  | buf ho _ hext henc =>
    obtain ⟨hrsv, himm, rfl⟩ := decodeBuf_ok.1 h
    obtain rfl : ext = [] := List.length_eq_zero_iff.1 (hl.trans hext)
    obtain ⟨hwf, he⟩ := henc (selOf (bField w))
    exact ⟨hwf, by rw [he, bit_selOf, ← ho, ← himm, cmdWord_fields w hrsv]⟩
  | bufV8 ho _ hext henc =>
    obtain ⟨hrsv, himm, rfl⟩ := decodeBufV8_ok.1 h
    obtain rfl : ext = [] := List.length_eq_zero_iff.1 (hl.trans hext)
    obtain ⟨hwf, he⟩ := henc (selOf (bField w)) (immLow w)
    exact ⟨hwf, by rw [he, bit_selOf, ← ho, ← BitVec.ofNat_eq_ofNat, ← himm, ← immField_eq, cmdWord_fields w hrsv]⟩
  | bufImm ho _ hext henc =>
    obtain ⟨hrsv, rfl⟩ := decodeBufImm_ok.1 h
    obtain rfl : ext = [] := List.length_eq_zero_iff.1 (hl.trans hext)
    obtain ⟨hwf, he⟩ := henc (selOf (bField w)) (immField w)
    exact ⟨hwf, by rw [he, bit_selOf, ← ho, cmdWord_fields w hrsv]⟩
  | bufWord ho _ hext henc =>
    obtain ⟨hrsv, himm, rfl⟩ := decodeBufWord_ok.1 h
    obtain ⟨v, rfl⟩ := List.length_eq_one_iff.1 (hl.trans hext)
    obtain ⟨hwf, he⟩ := henc (selOf (bField w)) v
    exact ⟨hwf, by rw [List.headD_cons, he, bit_selOf, ← ho, ← himm, cmdWord_fields w hrsv]⟩
  | bufData ho _ hext henc =>
    obtain ⟨hrsv, d, hd, rfl⟩ := decodeBufData_ok.1 h
    obtain ⟨hlen, hpack⟩ := decodeData_of_length (hl.trans hext) hd
    obtain ⟨hwf, he⟩ := henc (selOf (bField w)) d
    refine ⟨?_, ?_⟩
    · rw [hwf, hlen]
      exact decide_eq_true (Nat.le_of_lt_succ (immField w).isLt)
    · rw [he, hpack, hlen, bit_selOf, ← ho, BitVec.ofNat_toNat, BitVec.setWidth_eq, cmdWord_fields w hrsv]
  | eng ho _ hext henc =>
    obtain ⟨hrsv, hb, himm, rfl⟩ := decodeEng_ok.1 h
    obtain rfl : ext = [] := List.length_eq_zero_iff.1 (hl.trans hext)
    obtain ⟨hwf, he⟩ := henc
    exact ⟨hwf, by rw [he, ← ho, ← hb, ← himm, cmdWord_fields w hrsv]⟩
  | engFrame ho _ hext henc =>
    obtain ⟨hrsv, hb, d, hd, rfl⟩ := decodeEngFrame_ok.1 h
    obtain ⟨hlen, hpack⟩ := decodeData_of_length (hl.trans hext) hd
    obtain ⟨hwf, he⟩ := henc (immLow w) d
    refine ⟨?_, ?_⟩
    · rw [hwf, hlen]
      exact decide_eq_true (Nat.le_of_lt_succ (immHigh w).isLt)
    · rw [he, hpack, hlen, ← ho, ← hb, BitVec.ofNat_toNat, BitVec.setWidth_eq, ← immField_eq, cmdWord_fields w hrsv]

/-- A row of the map reads commands of its own OPC only. -/
theorem DecodesAs.opcField_eq (hf : DecodesAs w ext x) (h : x = .ok i) : opcField w = opcodeOf i := by
  have opc_of_words {o : Byte} {b : Bool} {imm : Half} {ws : List Word} (ho : opcField w = o)
      (he : encode i = cmdWord o b imm :: ws) : opcField w = opcodeOf i := by
    rw [ho, ← opcField_of_encode he, opcField_cmdWord]
  cases hf with
  | unassigned => cases h
  | buf ho _ _ henc =>
    obtain ⟨-, -, rfl⟩ := decodeBuf_ok.1 h
    exact opc_of_words ho (henc _).2
  | bufV8 ho _ _ henc =>
    obtain ⟨-, -, rfl⟩ := decodeBufV8_ok.1 h
    exact opc_of_words ho (henc _ _).2
  | bufImm ho _ _ henc =>
    obtain ⟨-, rfl⟩ := decodeBufImm_ok.1 h
    exact opc_of_words ho (henc _ _).2
  | bufWord ho _ _ henc =>
    obtain ⟨-, -, rfl⟩ := decodeBufWord_ok.1 h
    exact opc_of_words ho (henc _ _).2
  | bufData ho _ _ henc =>
    obtain ⟨-, d, -, rfl⟩ := decodeBufData_ok.1 h
    exact opc_of_words ho (henc _ d).2
  | eng ho _ _ henc =>
    obtain ⟨-, -, -, rfl⟩ := decodeEng_ok.1 h
    exact opc_of_words ho henc.2
  | engFrame ho _ _ henc =>
    obtain ⟨-, -, d, -, rfl⟩ := decodeEngFrame_ok.1 h
    exact opc_of_words ho (henc _ d).2

/-- Only an unassigned OPC is refused as one. -/
theorem DecodesAs.unassigned_iff (hf : DecodesAs w ext x) :
    x = .error .unassignedOpcode ↔ unassignedOpc (opcField w).toNat := by
  cases hf with
  | unassigned ho => exact iff_of_true rfl ho
  | buf ho hrow | bufV8 ho hrow | bufImm ho hrow | bufWord ho hrow | bufData ho hrow | eng ho hrow
  | engFrame ho hrow =>
    refine iff_of_false ?_ (ho ▸ hrow.1)
    simp only [decodeBuf, decodeBufV8, decodeBufImm, decodeBufWord, decodeBufData, decodeEng, decodeEngFrame,
      decodeData]
    split_ifs <;> simp

/-- R85's list for an assigned OPC, the padding check as the decoder makes it. -/
theorem refusedFields_iff {engine immZero v8 n16 n8 : Prop}
    (hrow : assignedWith (opcField w).toNat engine immZero v8 n16 n8) :
    refusedFields w ext ↔
      rsvField w ≠ 0 ∨ (engine ∧ bField w = true) ∨ (immZero ∧ immField w ≠ 0) ∨ (v8 ∧ immHigh w ≠ 0) ∨
      (n16 ∧ ¬ ∃ d, decodeData (immField w).toNat ext = .ok d) ∨
      (n8 ∧ ¬ ∃ d, decodeData (immHigh w).toNat ext = .ok d) := by
  obtain ⟨-, hengine, himm, hv8, hn16, hn8⟩ := hrow
  simp only [decodeData_accepts_iff, not_not, ← hengine, ← himm, ← hv8, ← hn16, ← hn8]
  rfl

/-- A row of the map accepts exactly where its OPC is assigned and R85 refuses no field. -/
theorem DecodesAs.accepts_iff (hf : DecodesAs w ext x) :
    (∃ i, x = .ok i) ↔ ¬ unassignedOpc (opcField w).toNat ∧ ¬ refusedFields w ext := by
  cases hf with
  | unassigned ho => exact iff_of_false (by simp) (fun h => h.1 ho)
  | buf ho hrow => subst ho; simp [decodeBuf_ok, refusedFields_iff hrow, hrow.1]
  | bufV8 ho hrow => subst ho; simp [decodeBufV8_ok, refusedFields_iff hrow, hrow.1]
  | bufImm ho hrow => subst ho; simp [decodeBufImm_ok, refusedFields_iff hrow, hrow.1]
  | bufWord ho hrow => subst ho; simp [decodeBufWord_ok, refusedFields_iff hrow, hrow.1]
  | bufData ho hrow => subst ho; simp [decodeBufData_ok, refusedFields_iff hrow, hrow.1]
  | eng ho hrow => subst ho; simp [decodeEng_ok, refusedFields_iff hrow, hrow.1]
  | engFrame ho hrow => subst ho; simp [decodeEngFrame_ok, refusedFields_iff hrow, hrow.1]

end DecodesAs

/-! ## A refused encoding is taken and answered (30_encoding.md R84, R85) -/

/-- The extension words of a refused encoding are taken, and nothing but CMD, the index and the responses changes. -/
theorem step_of_decodeCommand_error {s : State} {w : Word} {ext rest : List Word} {e : DecodeError}
    (hcmd : s.cmd = w :: (ext ++ rest)) (hl : ext.length = extCount w) (he : decodeCommand w ext = .error e) :
    step s = .next { s with
      cmd := rest, index := s.index + 1, responses := s.responses ++ [{ status := .refused }] } := by
  have hf : fetchCommand s.cmd = .rejected e (1 + extCount w) := by
    rw [hcmd, fetchCommand, if_neg (by simp [hl]), List.take_left' hl, he]
  have hdrop : s.cmd.drop (1 + extCount w) = rest := by
    rw [hcmd, Nat.add_comm, List.drop_succ_cons, List.drop_left' hl]
  simp only [step, hf, State.accept, State.refuse, State.deliver, hdrop, List.append_nil]

/-- An unassigned OPC has no extension words (30_encoding.md R76). -/
theorem extCount_of_unassigned {w : Word} (h : unassignedOpc (opcField w).toNat) : extCount w = 0 := by
  unfold extCount
  split
  case h_8 => rfl
  all_goals omega

/-! ## Reading and rolling back by the width read (30_encoding.md R88) -/

theorem leWord_take_one {bs : List Byte} (h : 1 ≤ bs.length) : leWord (bs.take 1) = (bs.getD 0 0).setWidth 32 := by
  match bs, h with
  | v :: _, _ => exact leWord_one v

theorem leWord_take_two {bs : List Byte} (h : 2 ≤ bs.length) :
    leWord (bs.take 2) = (bs.getD 1 0 ++ bs.getD 0 0).setWidth 32 := by
  match bs, h with
  | v :: v' :: _, _ => exact leWord_two v v'

/-- A typed read that finds enough bytes (41_buffer_typed.md R129). -/
theorem typedRead_of_holds {b : BufSel} {n : Nat} (val : Word → Word) {bs : List Byte} {s : State}
    (hpos : (s.buf b).pos < (s.buf b).cap) (hh : (s.buf b).holds bs) (hn : n ≤ bs.length) :
    typedRead b n val s =
      s.finish b ((s.buf b).skip n) false { status := .ok, data := val (leWord (bs.take n)) } := by
  have hpop : Buffer.popN s.unknown n (s.buf b) =
      { buf := (s.buf b).skip n, bytes := bs.take n, popped := n, unwritten := false } := by
    have hnl : n ≤ (s.buf b).len := hh.1 ▸ hn
    have hbytes : (s.buf b).peekRange s.unknown 0 n = bs.take n := Buffer.range_of_holds hh _ (by omega)
    have hwritten : (s.buf b).unwrittenIn 0 n = false :=
      Buffer.unwrittenIn_of_liveWritten (Buffer.holds_liveWritten hh) (by omega)
    simp [Buffer.popN_spec _ _ _ hpos, Nat.min_eq_left hnl, Nat.sub_eq_zero_of_le hnl, hbytes, hwritten]
  simp [typedRead, hpop, Conditions.status]

/-- BUF_BACK under the strict guard, with room for the bytes it takes back (40_buffer.md R108, R115). -/
theorem exec_bufBack_strict {b : BufSel} {k : Half} {s : State} (hguard : s.params.guardInclusive = false)
    (hroom : (s.buf b).len + k.toNat ≤ (s.buf b).cap) :
    exec (.bufBack b k) s = .next (s.finish b ((s.buf b).rewind k.toNat) false { status := .ok }) := by
  have hnoop : backNoop false k.toNat (s.buf b).len (s.buf b).cap = false := by simpa [backNoop] using hroom
  simp [exec, execBufBack, hguard, hnoop, Conditions.status]

/-- A read of `k` buffered bytes, then a BUF_BACK of `k` under the strict guard: two responses, and the buffer as it
was. -/
theorem runCommands_read_back {i : Instr} {b : BufSel} {k : Half} {val : Word → Word} {bs : List Byte} {s : State}
    (hread : ∀ s, exec i s = .next (typedRead b k.toNat val s)) (hw : (s.buf b).wf)
    (hguard : s.params.guardInclusive = false) (hh : (s.buf b).holds bs) (hk : k.toNat ≤ bs.length) :
    ∃ t, runCommands [i, .bufBack b k] s = .next t ∧ t.buf b = s.buf b ∧
      t.responses = s.responses ++ [{ status := .ok, data := val (leWord (bs.take k.toNat)) }, { status := .ok }] := by
  obtain ⟨-, -, hpos, hlen, -, -⟩ := hw
  have hkl : k.toNat ≤ (s.buf b).len := hh.1 ▸ hk
  have h1 := hread s.tick
  rw [typedRead_of_holds val (bs := bs) (by simpa using hpos) (by simpa using hh) hk, State.tick_buf] at h1
  rw [runCommands_of_next _ h1, runCommands_of_next _ (exec_bufBack_strict (by simpa using hguard) (by simp; omega))]
  refine ⟨_, rfl, ?_, by simp⟩
  simpa using Buffer.rewind_skip hpos hkl hlen

/-! ## The first response word (30_encoding.md R80) -/

theorem toNat_append_eq_add {m n : Nat} (x : BitVec m) (y : BitVec n) :
    (x ++ y).toNat = x.toNat * 2 ^ n + y.toNat := by
  rw [BitVec.toNat_append, ← Nat.shiftLeft_add_eq_or_of_lt y.isLt, Nat.shiftLeft_eq]

/-- Each field of the first response word at its place. -/
theorem Response.firstWord_toNat (r : Response) :
    r.firstWord.toNat = r.status.code.toNat + 8 * r.csumOk.toNat + 16 * r.stop.bit.toNat := by
  have h : r.firstWord.toNat =
      ((0 * 2 ^ 1 + (BitVec.ofBool r.stop.bit).toNat) * 2 ^ 1 + (BitVec.ofBool r.csumOk).toNat) * 2 ^ 3 +
        r.status.code.toNat := by
    rw [← BitVec.toNat_zero (w := 27), ← toNat_append_eq_add, ← toNat_append_eq_add, ← toNat_append_eq_add]
    rfl
  rw [h, BitVec.toNat_ofBool, BitVec.toNat_ofBool]
  omega

/-! ## The statements -/

/-- Settles O1, for the words at the front of CMD (`fetchCommand_encode`). -/
theorem decodeReadsBackEveryEncoding : Obligations.DecodeReadsBackEveryEncoding :=
  fun _ rest h => fetchCommand_encode h rest

/-- Settles O2, by the row of the opcode map that accepts the words (`DecodesAs.encode_eq`). -/
theorem acceptedWordsAreTheEncodersOwn : Obligations.AcceptedWordsAreTheEncodersOwn :=
  fun w ext _ hl h => (decodeCommand_decodesAs w ext).encode_eq hl h

/-- Settles O4: the encoder's first word, the rows of the decoder, and the row of the unassigned values. -/
theorem opcodeMap : Obligations.OpcodeMap :=
  ⟨fun _ _ _ => opcField_of_encode, fun w ext _ h => (decodeCommand_decodesAs w ext).opcField_eq h,
    fun w ext => (decodeCommand_decodesAs w ext).unassigned_iff⟩

/-- Settles O5: the decoder refuses the command word alone. -/
theorem unassignedOpcodeIsRefused : Obligations.UnassignedOpcodeIsRefused := by
  intro s w rest hcmd ho
  have he : decodeCommand w [] = .error .unassignedOpcode := (decodeCommand_decodesAs w []).unassigned_iff.2 ho
  exact step_of_decodeCommand_error (ext := []) hcmd (extCount_of_unassigned ho).symm he

/-- Settles O6: with an assigned OPC the decoder accepts exactly where R85 refuses no field
(`DecodesAs.accepts_iff`). -/
theorem reservedFieldsAreRefused : Obligations.ReservedFieldsAreRefused := by
  intro w ext hl ho
  have hacc := (decodeCommand_decodesAs w ext).accepts_iff
  refine ⟨fun href s rest hcmd => ?_, fun href => hacc.2 ⟨ho, href⟩⟩
  cases hd : decodeCommand w ext with
  | ok i => exact absurd href (hacc.1 ⟨i, hd⟩).2
  | error e => exact step_of_decodeCommand_error hcmd hl hd

/-- Settles O33: both pseudo-instructions read, then roll back by the width read (`runCommands_read_back`). -/
theorem peekLeavesTheBufferUnchanged : Obligations.PeekLeavesTheBufferUnchanged := by
  intro b bs s hw hguard hh
  refine ⟨fun hlen => ?_, fun hlen => ?_⟩
  · rw [← leWord_take_one hlen]
    exact runCommands_read_back (k := 1) (val := id) (fun _ => rfl) hw hguard hh hlen
  · rw [← leWord_take_two hlen]
    exact runCommands_read_back (k := 2) (val := id) (fun _ => rfl) hw hguard hh hlen

/-- Settles O3, each sample by running the decoder on it. -/
theorem sampleWordsDecode : Obligations.SampleWordsDecode :=
  ⟨rfl, rfl, rfl, rfl, rfl, rfl, rfl, rfl, rfl⟩

/-- Settles O60: every command delivers one response (`exec_deliversOne`), and its first word holds each field at its
place (`Response.firstWord_toNat`). -/
theorem responseWordPacking : Obligations.ResponseWordPacking := by
  refine ⟨fun i s t h => ?_, fun r => ⟨r.firstWord, rfl, ?_⟩⟩
  · obtain ⟨-, -, r, hresp, hsnk, hdsp⟩ := exec_deliversOne h
    exact ⟨r, hresp, State.cmdOut_responded hresp, hdsp, hsnk⟩
  · rw [Response.firstWord_toNat]
    refine congrArg₂ (· + ·) (congrArg₂ (· + ·) ?status ?csumOk) ?stop
    case status => cases r.status <;> rfl
    case csumOk => cases r.csumOk <;> rfl
    case stop => cases r.stop <;> rfl

end Sys2Proof.Machine

/-! Proofs of the statements about the circular_byte_buffer commands (40_buffer.md). -/

namespace Sys2Proof.Machine

/-! ## Lists of bytes that buffers hold -/

/-- A buffer holds one list of bytes only. -/
theorem Buffer.holds_unique {b : Buffer} {xs ys : List Byte} (hx : b.holds xs) (hy : b.holds ys) : xs = ys :=
  (Buffer.peekRange_of_holds hx fun _ => 0).symm.trans (Buffer.peekRange_of_holds hy fun _ => 0)

/-- The first bytes found in the live region. -/
theorem Buffer.take_peekRange (u : Nat → Byte) (b : Buffer) (n : Nat) :
    (b.peekRange u 0 b.len).take n = b.peekRange u 0 (min n b.len) := by
  rw [Buffer.range_of_shows (n := min n b.len) (Buffer.shows_peekRange u b) (by simp), List.drop_zero,
    List.take_eq_take_iff]
  simp

/-- The byte found in a written cell is the byte it holds. -/
theorem Buffer.cellAt_eq_none_or_peek (u : Nat → Byte) (b : Buffer) (k : Nat) :
    b.cellAt k = none ∨ b.cellAt k = some (b.peek u k) := by
  rw [Buffer.peek]
  cases b.cellAt k with
  | none => exact .inl rfl
  | some v => exact .inr rfl

/-- The head cell is cell POS. -/
theorem Buffer.cellAt_zero {b : Buffer} (h : b.pos < b.cap) : b.cellAt 0 = b.mem.read b.pos := by
  rw [Buffer.cellAt, Buffer.index, Nat.add_zero, Nat.mod_eq_of_lt h]

/-! ## Appending and skipping commute while both fit (40_buffer.md R109) -/

theorem Buffer.push_skip {b : Buffer} {k : Nat} (hk : k ≤ b.len) (v : Byte) :
    (b.skip k).push v = (b.push v).skip k := by
  have htail : (b.skip k).index (b.skip k).len = b.index b.len := by
    rw [Buffer.skip_index, Buffer.skip_len, Nat.add_sub_cancel' hk]
  have hlen : b.len - k + 1 = b.len + 1 - k := by omega
  rw [Buffer.push, htail]
  simp [Buffer.push, Buffer.skip, hlen]

/-- Where the appended bytes fit beside the `k` consumed ones, the order of appending and consuming does not matter. -/
theorem Buffer.appendList_skip : ∀ (d : List Byte) {b : Buffer} {k : Nat}, k ≤ b.len → b.len + d.length ≤ b.cap →
    (Buffer.appendList d (b.skip k)).buf = (Buffer.appendList d b).buf.skip k
  | [], _, _, _, _ => rfl
  | v :: vs, b, k, hk, hd => by
    rw [List.length_cons] at hd
    have hb : b.len ≠ b.cap := by omega
    have hs : b.len - k ≠ b.cap := by omega
    have ih := Buffer.appendList_skip vs (b := b.push v) (k := k) (by rw [Buffer.push_len]; omega)
      (by rw [Buffer.push_len, Buffer.push_cap]; omega)
    simpa [Buffer.appendList, hb, hs, Buffer.push_skip hk] using ih

/-! ## What a rewind exposes (40_buffer.md R108, R109) -/

/-- The new head, as the remainder of a difference of integers. -/
theorem Buffer.rewind_pos_eq_emod {b : Buffer} {k : Nat} (hk : k ≤ b.cap) :
    ((b.rewind k).pos : Int) = ((b.pos : Int) - k) % (b.cap : Int) := by
  rw [Buffer.rewind_pos, Int.natCast_emod, Int.natCast_add, Int.natCast_sub hk,
    show (b.pos : Int) + (b.cap - k) = b.pos - k + b.cap by omega, Int.add_emod_right]

/-- The cells before the old head are no live cells: their offsets from the new head are smaller. -/
theorem Buffer.rewind_index_ne {b : Buffer} {k i j : Nat} (hk : b.len + k ≤ b.cap) (hi : i < k) (hj : j < b.len) :
    (b.rewind k).index i ≠ b.index j := by
  rw [← Buffer.rewind_index (b := b) (k := k) (by omega) j]
  intro h
  have : i = k + j := Buffer.index_inj (by rw [Buffer.rewind_cap]; omega) (by rw [Buffer.rewind_cap]; omega) h
  omega

theorem Buffer.rewind_cellAt_exposed {b : Buffer} {k : Nat} (hk : k ≤ b.cap) (i : Nat) :
    (b.rewind k).cellAt i = b.mem.read ((b.pos + b.cap - k + i) % b.cap) := by
  rw [Buffer.cellAt, Buffer.index, Buffer.rewind_mem, Buffer.rewind_pos, Buffer.rewind_cap, Nat.mod_add_mod,
    Nat.add_sub_assoc hk]

/-! ## Checksums of the bytes a buffer shows (40_buffer.md R110) -/

/-- The sum of a list with one byte replaced is the old sum exactly where the byte is the old one. -/
theorem sum8_set_eq_iff {bs : List Byte} {k : Nat} (hk : k < bs.length) (v : Byte) :
    sum8 (bs.set k v) = sum8 bs ↔ v = bs[k] := by
  have hset : sum8 (bs.set k v) = sum8 (bs.take k) + (v + sum8 (bs.drop (k + 1))) := by
    rw [List.set_eq_take_append_cons_drop, if_pos hk, sum8_append, sum8_cons]
  have hbs : sum8 bs = sum8 (bs.take k) + (bs[k] + sum8 (bs.drop (k + 1))) := by
    conv_lhs => rw [← List.take_append_drop k bs, List.drop_eq_getElem_cons hk]
    rw [sum8_append, sum8_cons]
  rw [hset, hbs, BitVec.add_right_inj, BitVec.add_left_inj]

/-- The whole check compares the last byte with the sum of those before it. -/
theorem Buffer.wholeChecksum_of_shows_concat {u : Nat → Byte} {b : Buffer} {bs : List Byte} {c : Byte}
    (h : b.shows u (bs ++ [c])) : b.wholeChecksum u = decide (sumMod256 bs = c.toNat) := by
  have hlen : b.len = bs.length + 1 := by rw [h.1, List.length_append, List.length_singleton]
  rw [Buffer.wholeChecksum, if_neg (by omega), Buffer.checksumHolds_of_shows h (by omega) (Nat.le_of_eq h.1), hlen,
    Nat.add_sub_cancel, List.take_left, List.getD_eq_getElem?_getD, List.getElem?_concat_length, Option.getD_some]

theorem Buffer.wholeChecksum_of_shows {u : Nat → Byte} {b : Buffer} {bs : List Byte} (h : b.shows u bs) :
    b.wholeChecksum u = decide (bs ≠ [] ∧ sumMod256 bs.dropLast = (bs.getLastD 0).toNat) := by
  rcases List.eq_nil_or_concat bs with rfl | ⟨init, c, rfl⟩
  · have hempty : b.len = 0 := h.1
    simp [Buffer.wholeChecksum, hempty]
  · rw [List.concat_eq_append] at h ⊢
    rw [Buffer.wholeChecksum_of_shows_concat h]
    simp

/-- Replacing one byte of a checksummed list, the checksum byte included, breaks the check. -/
theorem Buffer.wholeChecksum_set {u : Nat → Byte} {b : Buffer} {bs : List Byte} {k : Nat} {v : Byte}
    (hk : k < (bs ++ [sum8 bs]).length) (hv : (bs ++ [sum8 bs])[k]? ≠ some v)
    (h : b.shows u ((bs ++ [sum8 bs]).set k v)) : b.wholeChecksum u = false := by
  rw [List.length_append, List.length_singleton] at hk
  by_cases hlt : k < bs.length
  · rw [List.getElem?_append_left hlt, List.getElem?_eq_getElem hlt] at hv
    rw [List.set_append_left _ _ hlt] at h
    rw [Buffer.wholeChecksum_of_shows_concat h, ← sum8_toNat, decide_eq_false_iff_not, BitVec.toNat_inj,
      sum8_set_eq_iff hlt]
    exact fun he => hv (congrArg some he.symm)
  · obtain rfl : k = bs.length := by omega
    rw [List.getElem?_concat_length] at hv
    rw [List.set_append_right _ _ (Nat.le_refl _), Nat.sub_self, List.set_cons_zero] at h
    rw [Buffer.wholeChecksum_of_shows_concat h, ← sum8_toNat, decide_eq_false_iff_not, BitVec.toNat_inj]
    exact fun he => hv (congrArg some he)

/-! ## The guards (40_buffer.md R115) -/

theorem forwardNoop_iff (inclusive : Bool) (step len : Nat) :
    forwardNoop inclusive step len = true ↔ if inclusive then step ≥ len else step > len := by
  cases inclusive <;> simp [forwardNoop]

theorem backNoop_iff (inclusive : Bool) (step len cap : Nat) :
    backNoop inclusive step len cap = true ↔ if inclusive then len + step ≥ cap else len + step > cap := by
  cases inclusive <;> simp [backNoop]

/-- A step back that the guard lets pass is at most CAP. -/
theorem le_cap_of_backNoop_eq_false {inclusive : Bool} {step len cap : Nat}
    (h : backNoop inclusive step len cap = false) : step ≤ cap := by
  cases inclusive <;> simp [backNoop] at h <;> omega

/-! ## One equation per case of a command -/

/-- A write into a buffer with room (40_buffer.md R103). -/
theorem exec_bufWrite_of_room {b : BufSel} {s : State} (v : Byte) (h : (s.buf b).len ≠ (s.buf b).cap) :
    exec (.bufWrite b v) s = .next (s.finish b ((s.buf b).push v) false { status := .ok }) := by
  simp [exec, execBufWrite, Buffer.appendList, h, Conditions.status]

theorem exec_bufWrite_of_full {b : BufSel} {s : State} (v : Byte) (h : (s.buf b).len = (s.buf b).cap) :
    exec (.bufWrite b v) s = .next (s.finish b (s.buf b) false { status := .dropped }) := by
  simp [exec, execBufWrite, Buffer.appendList_full h, Conditions.status]

/-- A multi-byte write, its response in terms of the room (40_buffer.md R104). -/
theorem exec_bufWriteN_eq {b : BufSel} {s : State} (d : List Byte) (hw : (s.buf b).wf) :
    exec (.bufWriteN b d) s = .next (s.finish b (Buffer.appendList d (s.buf b)).buf false
      { status := (s.buf b).appendStatus d.length
        data := BitVec.ofNat 32 (min d.length ((s.buf b).cap - (s.buf b).len)) }) := by
  obtain ⟨-, hcap, -, hlen, -, -⟩ := hw
  obtain ⟨-, -, hstored, -, -⟩ := Buffer.appendList_spec d (s.buf b) hlen
  have hsmall : min d.length ((s.buf b).cap - (s.buf b).len) < 65536 := by unfold Config.maxCap at hcap; omega
  simp only [exec, execBufWriteN, status_dropped hlen, hstored, lowHalf_eq hsmall]

/-- A typed read, whatever is buffered (41_buffer_typed.md R129). -/
theorem typedRead_eq {b : BufSel} {s : State} (n : Nat) (val : Word → Word) (hp : (s.buf b).pos < (s.buf b).cap) :
    typedRead b n val s =
      s.finish b ((s.buf b).skip (min n (s.buf b).len)) ((s.buf b).unwrittenIn 0 (min n (s.buf b).len))
        { status := (s.buf b).popStatus n
          data := val (leWord ((s.buf b).peekRange s.unknown 0 (min n (s.buf b).len) ++
            List.replicate (n - (s.buf b).len) 0)) } := by
  simp only [typedRead, Buffer.popN_spec _ _ _ hp, status_empty]

/-- A multi-byte read (40_buffer.md R106). -/
theorem exec_bufReadN_eq {b : BufSel} {s : State} (n : Half) (hw : (s.buf b).wf) :
    exec (.bufReadN b n) s = .next
      (s.finish b ((s.buf b).skip (min n.toNat (s.buf b).len))
        ((s.buf b).unwrittenIn 0 (min n.toNat (s.buf b).len))
        { status := (s.buf b).popStatus n.toNat
          data := BitVec.ofNat 32 (min n.toNat (s.buf b).len)
          bytes := (s.buf b).peekRange s.unknown 0 (min n.toNat (s.buf b).len) ++
            List.replicate (n.toNat - (s.buf b).len) 0 }) := by
  obtain ⟨-, -, hpos, -, -, -⟩ := hw
  have hsmall : min n.toNat (s.buf b).len < 65536 := Nat.lt_of_le_of_lt (Nat.min_le_left _ _) n.isLt
  simp only [exec, execBufReadN, Buffer.popN_spec _ _ _ hpos, status_empty, lowHalf_eq hsmall]

/-- BUF_FORWARD, by its guard (40_buffer.md R107). -/
theorem exec_bufForward_noop {b : BufSel} {k : Half} {s : State}
    (h : forwardNoop s.params.guardInclusive k.toNat (s.buf b).len = true) :
    exec (.bufForward b k) s = .next (s.finish b (s.buf b) false { status := .noop }) := by
  simp [exec, execBufForward, h, status_noop]

theorem exec_bufForward_skips {b : BufSel} {k : Half} {s : State}
    (h : forwardNoop s.params.guardInclusive k.toNat (s.buf b).len = false) :
    exec (.bufForward b k) s = .next (s.finish b ((s.buf b).skip k.toNat) false { status := .ok }) := by
  simp [exec, execBufForward, h, status_noop]

/-- BUF_BACK, by its guard (40_buffer.md R108). -/
theorem exec_bufBack_noop {b : BufSel} {k : Half} {s : State}
    (h : backNoop s.params.guardInclusive k.toNat (s.buf b).len (s.buf b).cap = true) :
    exec (.bufBack b k) s = .next (s.finish b (s.buf b) false { status := .noop }) := by
  simp [exec, execBufBack, h, status_noop]

theorem exec_bufBack_rewinds {b : BufSel} {k : Half} {s : State}
    (h : backNoop s.params.guardInclusive k.toNat (s.buf b).len (s.buf b).cap = false) :
    exec (.bufBack b k) s = .next (s.finish b ((s.buf b).rewind k.toNat) false { status := .ok }) := by
  simp [exec, execBufBack, h, status_noop]

/-- A stored checksum, its response in terms of the sum as a number (40_buffer.md R111, R112). -/
theorem State.finish_checksum {b : BufSel} {s : State} (bs : List Byte) (touched : Bool)
    (hl : (s.buf b).len ≤ (s.buf b).cap) :
    s.finish b (Buffer.appendList [sum8 bs] (s.buf b)).buf touched
      { status := Conditions.status
          { dropped := decide (0 < (Buffer.appendList [sum8 bs] (s.buf b)).dropped) }
        data := zextByte (sum8 bs) } =
    s.finish b (Buffer.appendList [BitVec.ofNat 8 (sumMod256 bs)] (s.buf b)).buf touched
      { status := (s.buf b).appendStatus 1, data := BitVec.ofNat 32 (sumMod256 bs) } := by
  rw [status_dropped hl, zextByte_sum8, sum8_eq, List.length_singleton]

theorem exec_bufWrcsum_eq {b : BufSel} {s : State} {bs : List Byte} (hl : (s.buf b).len ≤ (s.buf b).cap)
    (hbs : (s.buf b).shows s.unknown bs) :
    exec (.bufWrcsum b) s = .next
      (s.finish b (Buffer.appendList [BitVec.ofNat 8 (sumMod256 bs)] (s.buf b)).buf
        ((s.buf b).unwrittenIn 0 (s.buf b).len)
        { status := (s.buf b).appendStatus 1, data := BitVec.ofNat 32 (sumMod256 bs) }) := by
  have hrange : (s.buf b).peekRange s.unknown 0 (s.buf b).len = bs := by
    rw [Buffer.range_of_shows hbs (by have := hbs.1; omega), List.drop_zero, hbs.1, List.take_length]
  simp only [exec, execBufWrcsum, hrange, State.finish_checksum bs _ hl]

theorem exec_bufWrcsumR_eq {b : BufSel} {start stop : Half} {s : State} {bs : List Byte}
    (hl : (s.buf b).len ≤ (s.buf b).cap) (hbs : (s.buf b).shows s.unknown bs)
    (hr : start.toNat ≤ stop.toNat ∧ stop.toNat ≤ (s.buf b).len) :
    exec (.bufWrcsumR b start stop) s = .next
      (s.finish b
        (Buffer.appendList [BitVec.ofNat 8 (sumMod256 ((bs.take stop.toNat).drop start.toNat))] (s.buf b)).buf
        ((s.buf b).unwrittenIn start.toNat (stop.toNat - start.toNat))
        { status := (s.buf b).appendStatus 1
          data := BitVec.ofNat 32 (sumMod256 ((bs.take stop.toNat).drop start.toNat)) }) := by
  have hrange : (s.buf b).peekRange s.unknown start.toNat (stop.toNat - start.toNat) =
      (bs.take stop.toNat).drop start.toNat := by
    rw [Buffer.range_of_shows hbs (by have := hbs.1; omega), List.drop_take]
  simp only [exec, execBufWrcsumR, if_pos hr, hrange, State.finish_checksum _ _ hl]

theorem exec_bufWrcsumR_badRange {b : BufSel} {start stop : Half} {s : State}
    (hr : ¬ (start.toNat ≤ stop.toNat ∧ stop.toNat ≤ (s.buf b).len)) :
    exec (.bufWrcsumR b start stop) s = .next (s.finish b (s.buf b) false { status := .badRange }) := by
  simp only [exec, execBufWrcsumR, if_neg hr]
  rfl

/-! ## Runs of writes and of reads (40_buffer.md R114) -/

theorem runCommands_append {xs : List Instr} (ys : List Instr) {s t : State} (h : runCommands xs s = .next t) :
    runCommands (xs ++ ys) s = runCommands ys t := by
  induction xs generalizing s with
  | nil => cases h; rfl
  | cons i xs ih =>
    rw [List.cons_append]
    rcases exec_cases i s.tick with ⟨-, -, he⟩ | ⟨-, b, touched, r, he, -⟩
    · rw [runCommands_of_fault _ he] at h; cases h
    · rw [runCommands_of_next _ he] at h ⊢
      exact ih h

/-- Writes that fit append their bytes one after the other. -/
theorem runCommands_bufWrites {b : BufSel} : ∀ (vs old : List Byte) (s : State), (s.buf b).wf →
    (s.buf b).holds old → old.length + vs.length ≤ (s.buf b).cap →
    ∃ t, runCommands (vs.map (.bufWrite b ·)) s = .next t ∧ (t.buf b).wf ∧ (t.buf b).holds (old ++ vs) ∧
      t.responses = s.responses ++ vs.map (fun _ => { status := .ok })
  | [], old, s, hw, hh, _ => ⟨s, rfl, hw, by rwa [List.append_nil], by simp⟩
  | v :: vs, old, s, hw, hh, hfit => by
    rw [List.length_cons] at hfit
    have hlen : (s.buf b).len = old.length := hh.1
    have hlt : (s.buf b).len < (s.buf b).cap := by omega
    have hpush : ((s.buf b).push v).holds (old ++ [v]) := by
      have h := Buffer.holds_append_fits hh (Nat.le_of_lt hlt) (d := [v]) (by rw [List.length_singleton]; omega)
      simpa [Buffer.appendList, Nat.ne_of_lt hlt] using h
    have he := exec_bufWrite_of_room (b := b) (s := s.tick) v (by simpa using Nat.ne_of_lt hlt)
    rw [State.tick_buf] at he
    obtain ⟨t, hrun, htw, hth, htr⟩ := runCommands_bufWrites (b := b) vs (old ++ [v])
      (s.tick.finish b ((s.buf b).push v) false { status := .ok }) (by simpa using Buffer.push_wf hw hlt)
      (by simpa using hpush) (by simp; omega)
    refine ⟨t, ?_, htw, by simpa using hth, by simpa using htr⟩
    rw [List.map_cons, runCommands_of_next _ he, hrun]

/-- As many reads as bytes are buffered give them all, head first, and leave the buffer empty. -/
theorem runCommands_bufReads {b : BufSel} : ∀ (bs : List Byte) (s : State), (s.buf b).wf → (s.buf b).holds bs →
    ∃ t, runCommands (List.replicate bs.length (.bufRead b)) s = .next t ∧ (t.buf b).len = 0 ∧
      t.responses = s.responses ++ bs.map (fun v => { status := .ok, data := v.setWidth 32 })
  | [], s, _, hh => ⟨s, rfl, hh.1, by simp⟩
  | v :: vs, s, hw, hh => by
    have ⟨_, _, hpos, _, _, _⟩ := hw
    have he : exec (.bufRead b) s.tick =
        .next (s.tick.finish b ((s.buf b).skip 1) false { status := .ok, data := v.setWidth 32 }) := by
      have h := typedRead_of_holds (b := b) (n := 1) id (bs := v :: vs) (s := s.tick)
        (by simpa using hpos) (by simpa using hh) (by simp)
      rw [State.tick_buf, leWord_take_one (by simp)] at h
      exact congrArg Host.Outcome.next h
    obtain ⟨t, hrun, htl, htr⟩ := runCommands_bufReads (b := b) vs
      (s.tick.finish b ((s.buf b).skip 1) false { status := .ok, data := v.setWidth 32 })
      (by simpa using Buffer.skip_wf 1 hw) (by simpa using Buffer.holds_skip hh (k := 1) (by simp))
    refine ⟨t, ?_, htl, by simpa using htr⟩
    rw [List.length_cons, List.replicate_succ, runCommands_of_next _ he, hrun]

/-! ## A read and a write before rolling back (40_buffer.md R109) -/

theorem runCommands_singleton {i : Instr} {s t : State} (h : exec i s.tick = .next t) :
    runCommands [i] s = .next t := runCommands_of_next [] h

theorem runCommands_bufReadN_bufWriteN {b : BufSel} {k : Half} (d : List Byte) {s : State} (hw : (s.buf b).wf)
    (hk : k.toNat ≤ (s.buf b).len) :
    ∃ m, runCommands [.bufReadN b k, .bufWriteN b d] s = .next m ∧ m.params = s.params ∧
      m.buf b = (Buffer.appendList d ((s.buf b).skip k.toNat)).buf := by
  have hread := exec_bufReadN_eq (b := b) (s := s.tick) k (by simpa using hw)
  rw [State.tick_buf, Nat.min_eq_left hk] at hread
  have hskip := Buffer.skip_wf k.toNat hw
  rw [runCommands_of_next _ hread]
  refine ⟨_, runCommands_singleton (exec_bufWriteN_eq d (by simpa using hskip)), by simp, by simp⟩

/-! ## The statements -/

/-- Settles O28: the writes leave a buffer that holds the old bytes and then the written ones
(`runCommands_bufWrites`), and the reads empty it (`runCommands_bufReads`). -/
theorem fifoLaw : Obligations.FifoLaw := by
  intro b old vs s hw hh hfit
  obtain ⟨m, hwrites, hmw, hmh, hmr⟩ := runCommands_bufWrites vs old s hw hh hfit
  obtain ⟨t, hreads, htl, htr⟩ := runCommands_bufReads (old ++ vs) m hmw hmh
  rw [List.length_append] at hreads
  exact ⟨t, by rw [runCommands_append _ hwrites, hreads], by rw [htr, hmr], htl⟩

/-- Settles O23: the two counts are within 16 bits by the bounds of R21. -/
theorem bufStatResult : Obligations.BufStatResult := by
  intro b s hw
  obtain ⟨-, hcap, hpos, hlen, -, -⟩ := hw
  unfold Config.maxCap at hcap
  refine ⟨_, rfl, State.sameOutside_finish rfl rfl rfl, State.sameRecord_finish, State.finish_buf_self .., ?_⟩
  apply State.responded_finish
  rw [twoHalves_eq (by omega) (by omega), lowHalf_eq (by omega)]

/-- Settles O24: the two cases of the store (`exec_bufWrite_of_full`, `exec_bufWrite_of_room`). -/
theorem bufWriteResult : Obligations.BufWriteResult := by
  intro b v s
  by_cases h : (s.buf b).len = (s.buf b).cap
  · refine ⟨_, exec_bufWrite_of_full v h, State.sameOutside_finish rfl rfl rfl, State.sameRecord_finish, ?_⟩
    rw [if_pos h]
    exact ⟨State.finish_buf_self .., State.responded_finish rfl⟩
  · refine ⟨_, exec_bufWrite_of_room v h, State.sameOutside_finish rfl rfl rfl, State.sameRecord_finish, ?_⟩
    rw [if_neg h, State.finish_buf_self]
    exact ⟨State.responded_finish rfl, rfl, rfl, Memory.read_write_same ..,
      fun _ ha => Memory.read_write_other _ _ _ _ ha⟩

/-- Settles O25, by the effect of a sequence of appends (`State.appended_finish`). -/
theorem bufWriteNResult : Obligations.BufWriteNResult := fun _ d _ hw =>
  ⟨_, exec_bufWriteN_eq d hw, State.sameOutside_finish (Buffer.appendList_cap d _) rfl rfl, State.sameRecord_finish,
    State.appended_finish hw, State.responded_finish rfl⟩

/-- Settles O26: a typed read of one byte (`typedRead_eq`), of an empty buffer or of its head cell. -/
theorem bufReadResult : Obligations.BufReadResult := by
  intro b s hw
  obtain ⟨-, -, hpos, -, -, -⟩ := hw
  have he : exec (.bufRead b) s = .next (typedRead b 1 id s) := rfl
  rw [typedRead_eq 1 id hpos] at he
  refine ⟨_, he, State.sameOutside_finish rfl rfl rfl, ?_⟩
  split
  next hempty =>
    rw [hempty, Nat.min_zero, Buffer.skip_zero _ hpos]
    exact ⟨State.finish_buf_self .., State.sameRecord_finish,
      State.responded_finish (by simp [Buffer.popStatus, hempty, Buffer.peekRange, leWord])⟩
  next hne =>
    have hone : 1 ≤ (s.buf b).len := Nat.pos_of_ne_zero hne
    rw [Nat.min_eq_left hone, ← Buffer.cellAt_zero hpos]
    refine ⟨State.tookFirst_finish, State.records_finish (by simp [Buffer.unwrittenIn]), (s.buf b).peek s.unknown 0,
      Buffer.cellAt_eq_none_or_peek .., State.responded_finish ?_⟩
    simp [Buffer.popStatus, hone, Nat.sub_eq_zero_of_le hone, Buffer.peekRange, leWord_one]

/-- Settles O27: the bytes found are the first ones that the live region may hold. -/
theorem bufReadNResult : Obligations.BufReadNResult := by
  intro b n s hw
  refine ⟨_, (s.buf b).peekRange s.unknown 0 (s.buf b).len, exec_bufReadN_eq n hw,
    State.sameOutside_finish rfl rfl rfl, Buffer.mayHold_peekRange .., State.tookFirst_finish,
    State.records_finish (Buffer.unwrittenIn_iff ..), State.responded_finish ?_⟩
  rw [Buffer.take_peekRange]

/-- Settles O29, by the guard (`forwardNoop_iff`). -/
theorem bufForwardResult : Obligations.BufForwardResult := by
  intro b k s
  cases h : forwardNoop s.params.guardInclusive k.toNat (s.buf b).len with
  | true =>
    refine ⟨_, exec_bufForward_noop h, State.sameOutside_finish rfl rfl rfl, State.sameRecord_finish, ?_⟩
    rw [if_pos ((forwardNoop_iff ..).1 h)]
    exact ⟨State.finish_buf_self .., State.responded_finish rfl⟩
  | false =>
    refine ⟨_, exec_bufForward_skips h, State.sameOutside_finish rfl rfl rfl, State.sameRecord_finish, ?_⟩
    rw [if_neg (fun hg => by simp [(forwardNoop_iff ..).2 hg] at h)]
    exact ⟨State.tookFirst_finish, State.responded_finish rfl⟩

/-- Settles O30, by the guard (`backNoop_iff`); where it lets the step pass, the step is at most CAP. -/
theorem bufBackResult : Obligations.BufBackResult := by
  intro b k s
  cases h : backNoop s.params.guardInclusive k.toNat (s.buf b).len (s.buf b).cap with
  | true =>
    refine ⟨_, exec_bufBack_noop h, State.sameOutside_finish rfl rfl rfl, State.sameRecord_finish, ?_⟩
    rw [if_pos ((backNoop_iff ..).1 h)]
    exact ⟨State.finish_buf_self .., State.responded_finish rfl⟩
  | false =>
    refine ⟨_, exec_bufBack_rewinds h, State.sameOutside_finish rfl rfl rfl, State.sameRecord_finish, ?_⟩
    rw [if_neg (fun hg => by simp [(backNoop_iff ..).2 hg] at h), State.finish_buf_self]
    exact ⟨Buffer.rewind_pos_eq_emod (le_cap_of_backNoop_eq_false h), rfl, rfl, State.responded_finish rfl⟩

/-- Settles O32: writes that fit beside the consumed bytes commute with consuming them (`Buffer.appendList_skip`), so
going back finds the buffer as if nothing had been read; writes that do not fit leave less than `k` cells free, and the
guard refuses. -/
theorem rollbackRestoresReadBytes : Obligations.RollbackRestoresReadBytes := by
  intro b k bs d s hw hguard hh hk
  have ⟨_, _, hpos, hlen, _, _⟩ := hw
  have hbs : (s.buf b).len = bs.length := hh.1
  have hkl : k.toNat ≤ (s.buf b).len := hbs ▸ hk
  obtain ⟨m, hrun, hparams, hbuf⟩ := runCommands_bufReadN_bufWriteN d hw hkl
  have hmguard : m.tick.params.guardInclusive = false := by rw [State.tick_params, hparams, hguard]
  refine ⟨m, ?_⟩
  split
  next hfit =>
    obtain ⟨hcap, hpos', -, -, hlen'⟩ := Buffer.appendList_spec d (s.buf b) hlen
    rw [Buffer.appendList_skip d hkl (hbs ▸ hfit)] at hbuf
    have hroom : (m.buf b).len + k.toNat ≤ (m.buf b).cap := by rw [hbuf, Buffer.skip_len, Buffer.skip_cap]; omega
    have hback : (m.buf b).rewind k.toNat = (Buffer.appendList d (s.buf b)).buf := by
      rw [hbuf]
      exact Buffer.rewind_skip (by omega) (by omega) (by omega)
    refine ⟨_, hrun, runCommands_singleton (exec_bufBack_strict hmguard (by simpa using hroom)), ?_⟩
    rw [State.finish_buf_self, State.tick_buf, hback]
    exact ⟨hpos', Buffer.holds_append_fits hh hlen hfit, State.responded_finish (s := m.tick) rfl⟩
  next hfull =>
    obtain ⟨t, hback, -, -, hres⟩ := bufBackResult b k m.tick
    refine ⟨t, hrun, runCommands_singleton hback, fun hk1 => ?_⟩
    have ⟨_, _, _, hskip, _, _⟩ := Buffer.skip_wf k.toNat hw
    obtain ⟨hcap, -, -, -, hlen'⟩ := Buffer.appendList_spec d _ hskip
    rw [← hbuf, Buffer.skip_cap] at hcap
    rw [← hbuf, Buffer.skip_cap, Buffer.skip_len] at hlen'
    have hover : (m.buf b).len + k.toNat > (m.buf b).cap := by omega
    rw [if_pos (by simpa [hparams, hguard] using hover), State.tick_buf] at hres
    exact hres

/-- Settles O31: the rewound head is `k` cells before the old one (`Buffer.rewind_index`), so the exposed offsets and
the old live ones are different offsets below CAP. -/
theorem backExposesConsumedCellsOnly : Obligations.BackExposesConsumedCellsOnly := by
  intro b k s _ hguard hroom
  have hk : k.toNat ≤ (s.buf b).cap := by omega
  refine ⟨_, exec_bufBack_strict hguard hroom, ?_⟩
  rw [State.finish_buf_self]
  exact ⟨fun i hi j hj => Buffer.rewind_index_ne hroom hi hj, fun i _ => Buffer.rewind_cellAt_exposed hk i,
    fun j _ => Buffer.rewind_cellAt hk j⟩

/-- Settles O34, for the bytes the command finds (`Buffer.wholeChecksum_of_shows`). -/
theorem bufChecksumResult : Obligations.BufChecksumResult := by
  intro b s
  refine ⟨_, (s.buf b).peekRange s.unknown 0 (s.buf b).len, rfl, State.sameOutside_finish rfl rfl rfl,
    State.finish_buf_self .., Buffer.mayHold_peekRange .., State.records_finish (Buffer.unwrittenIn_iff ..),
    State.responded_finish ?_⟩
  rw [Buffer.wholeChecksum_of_shows (Buffer.shows_peekRange ..)]

/-- Settles O35, for the bytes the command finds (`exec_bufWrcsum_eq`). -/
theorem bufWrcsumResult : Obligations.BufWrcsumResult := fun b s hw =>
  have ⟨_, _, _, hlen, _, _⟩ := hw
  ⟨_, (s.buf b).peekRange s.unknown 0 (s.buf b).len, exec_bufWrcsum_eq hlen (Buffer.shows_peekRange ..),
    State.sameOutside_finish (Buffer.appendList_cap ..) rfl rfl, Buffer.mayHold_peekRange .., State.appended_finish hw,
    State.records_finish (Buffer.unwrittenIn_iff ..), State.responded_finish rfl⟩

/-- Settles O36, for the bytes the whole live region shows, in and out of range. -/
theorem bufWrcsumRResult : Obligations.BufWrcsumRResult := by
  intro b start stop s hw
  have ⟨_, _, _, hlen, _, _⟩ := hw
  by_cases hr : start.toNat ≤ stop.toNat ∧ stop.toNat ≤ (s.buf b).len
  · refine ⟨_, (s.buf b).peekRange s.unknown 0 (s.buf b).len,
      exec_bufWrcsumR_eq hlen (Buffer.shows_peekRange ..) hr,
      State.sameOutside_finish (Buffer.appendList_cap ..) rfl rfl, Buffer.mayHold_peekRange .., ?_⟩
    rw [if_pos hr]
    exact ⟨State.appended_finish hw, State.records_finish (Buffer.unwrittenIn_iff ..), State.responded_finish rfl⟩
  · refine ⟨_, (s.buf b).peekRange s.unknown 0 (s.buf b).len, exec_bufWrcsumR_badRange hr,
      State.sameOutside_finish rfl rfl rfl, Buffer.mayHold_peekRange .., ?_⟩
    rw [if_neg hr]
    exact ⟨State.finish_buf_self .., State.sameRecord_finish, State.responded_finish rfl⟩

/-- Settles O37: after the command the buffer holds the old bytes and their sum, so the check compares the sum with
itself; one replaced byte changes exactly one side (`Buffer.wholeChecksum_set`). -/
theorem checksumDetectsAnyOneByteChange : Obligations.ChecksumDetectsAnyOneByteChange := by
  intro b bs s hw hh hroom
  have ⟨_, _, _, hlen, _, _⟩ := hw
  have hm : (Buffer.appendList [sum8 bs] (s.buf b)).buf.holds (bs ++ [sum8 bs]) :=
    Buffer.holds_append_fits hh hlen (by rw [List.length_singleton]; omega)
  have he := exec_bufWrcsum_eq hlen (Buffer.shows_of_holds hh s.unknown)
  rw [← sum8_eq] at he
  refine ⟨_, _, _, he, rfl, State.responded_finish rfl, ?_, ?_⟩
  · rw [State.finish_buf_self, Buffer.wholeChecksum_of_shows_concat (Buffer.shows_of_holds hm _), sum8_toNat]
    exact decide_eq_true rfl
  · intro m' good k v hgood hk hv hset
    rw [State.finish_buf_self] at hgood
    obtain rfl := Buffer.holds_unique hgood hm
    exact ⟨_, _, rfl, State.responded_finish rfl, Buffer.wholeChecksum_set hk hv (Buffer.shows_of_holds hset _)⟩

/-- Settles O22: both commands set the buffer to a fixed form, which a second one leaves as it is. -/
theorem bufInitAndClearResults : Obligations.BufInitAndClearResults := by
  intro b s
  refine ⟨⟨_, rfl, State.sameOutside_finish rfl rfl rfl, State.sameRecord_finish, State.responded_finish rfl, ?init⟩,
    _, rfl, State.sameOutside_finish rfl rfl rfl, State.sameRecord_finish, State.responded_finish rfl, ?clear⟩
  case init =>
    rw [State.finish_buf_self]
    exact ⟨rfl, rfl, Memory.read_nil, _, rfl, by simp [Buffer.init]⟩
  case clear =>
    rw [State.finish_buf_self]
    exact ⟨rfl, rfl, rfl, _, rfl, by simp [Buffer.clear]⟩

end Sys2Proof.Machine

/-! Proofs of the statements about the typed helpers (41_buffer_typed.md). -/

namespace Sys2Proof.Machine

/-! ## The value of zero-filled bytes (41_buffer_typed.md R129, R135, R137) -/

/-- Zeros behind a list are not told apart from bytes it lacks. -/
theorem getD_append_zeros (bs : List Byte) (n k : Nat) : (bs ++ List.replicate n 0).getD k 0 = bs.getD k 0 := by
  by_cases hk : k < bs.length
  · exact List.getD_append _ _ _ _ hk
  · rw [List.getD_append_right _ _ _ _ (Nat.le_of_not_lt hk), List.getD_eq_getElem?_getD,
      List.getElem?_getD_replicate_default_eq, List.getD_eq_default _ _ (Nat.le_of_not_lt hk)]

theorem leWord_take_four {bs : List Byte} (h : 4 ≤ bs.length) :
    leWord (bs.take 4) = bs.getD 3 0 ++ bs.getD 2 0 ++ bs.getD 1 0 ++ bs.getD 0 0 := by
  match bs, h with
  | v0 :: v1 :: v2 :: v3 :: _, _ => exact leWord_four v0 v1 v2 v3

theorem leWord_zeroFill_two (bs : List Byte) :
    leWord ((bs ++ List.replicate 2 0).take 2) = (bs.getD 1 0 ++ bs.getD 0 0).setWidth 32 := by
  rw [leWord_take_two (by simp), getD_append_zeros, getD_append_zeros]

theorem leWord_zeroFill_four (bs : List Byte) :
    leWord ((bs ++ List.replicate 4 0).take 4) = bs.getD 3 0 ++ bs.getD 2 0 ++ bs.getD 1 0 ++ bs.getD 0 0 := by
  rw [leWord_take_four (by simp)]
  simp only [getD_append_zeros]

/-- The bytes found, then zeros: the first `n` of the live bytes with `n` zeros behind them. -/
theorem Buffer.peekRange_zeroFill (u : Nat → Byte) (b : Buffer) (n : Nat) :
    b.peekRange u 0 (min n b.len) ++ List.replicate (n - b.len) 0 =
      (b.peekRange u 0 b.len ++ List.replicate n 0).take n := by
  rw [List.take_append, Buffer.take_peekRange, Buffer.peekRange_length, List.take_replicate,
    Nat.min_eq_left (Nat.sub_le n b.len)]

/-! ## What a typed helper does, whatever its width (41_buffer_typed.md R129) -/

/-- A typed write, its response in terms of the room. -/
theorem typedWrite_eq {b : BufSel} {s : State} (d : List Byte) (hl : (s.buf b).len ≤ (s.buf b).cap) :
    typedWrite b d s =
      s.finish b (Buffer.appendList d (s.buf b)).buf false { status := (s.buf b).appendStatus d.length } := by
  simp only [typedWrite, status_dropped hl]

theorem typedWrite_effect {b : BufSel} {s : State} (d : List Byte) (hw : (s.buf b).wf) :
    s.sameOutside b (typedWrite b d s) ∧ s.sameRecord (typedWrite b d s) ∧ s.appended b d (typedWrite b d s) ∧
      s.responded { status := (s.buf b).appendStatus d.length } (typedWrite b d s) := by
  have ⟨_, _, _, hlen, _, _⟩ := hw
  rw [typedWrite_eq d hlen]
  exact ⟨State.sameOutside_finish (Buffer.appendList_cap ..) rfl rfl, State.sameRecord_finish,
    State.appended_finish hw, State.responded_finish rfl⟩

theorem typedRead_effect {b : BufSel} {s : State} (n : Nat) (val : Word → Word) (hw : (s.buf b).wf) :
    ∃ bs, s.sameOutside b (typedRead b n val s) ∧ (s.buf b).mayHold bs ∧
      s.tookFirst b (min n (s.buf b).len) (typedRead b n val s) ∧
      s.records ((s.buf b).someUnwritten 0 (min n (s.buf b).len)) (typedRead b n val s) ∧
      s.responded
        { status := (s.buf b).popStatus n, data := val (leWord ((bs ++ List.replicate n 0).take n)) }
        (typedRead b n val s) := by
  obtain ⟨-, -, hpos, -, -, -⟩ := hw
  rw [typedRead_eq n val hpos, Buffer.peekRange_zeroFill]
  exact ⟨_, State.sameOutside_finish rfl rfl rfl, Buffer.mayHold_peekRange .., State.tookFirst_finish,
    State.records_finish (Buffer.unwrittenIn_iff ..), State.responded_finish rfl⟩

/-- A typed write that fits, then a read of as many bytes: the write appends (`Buffer.holds_append_fits`), so the read
finds enough bytes (`typedRead_of_holds`), the oldest first. -/
theorem runCommands_typedWrite_typedRead {wr rd : Instr} {b : BufSel} {d bs : List Byte} {val : Word → Word}
    {w : Word} {s : State} (hwr : ∀ s, exec wr s = .next (typedWrite b d s))
    (hrd : ∀ s, exec rd s = .next (typedRead b d.length val s)) (hw : (s.buf b).wf) (hh : (s.buf b).holds bs)
    (hfit : bs.length + d.length ≤ (s.buf b).cap) (hval : val (leWord ((bs ++ d).take d.length)) = w) :
    ∃ t, runCommands [wr, rd] s = .next t ∧
      t.responses = s.responses ++ [{ status := .ok }, { status := .ok, data := w }] := by
  have ⟨_, _, _, hlen, _, _⟩ := hw
  have hok : (s.buf b).appendStatus d.length = .ok := if_pos (by rw [hh.1]; exact hfit)
  have h1 : exec wr s.tick =
      .next (s.tick.finish b (Buffer.appendList d (s.buf b)).buf false { status := .ok }) := by
    rw [hwr, typedWrite_eq d (by simpa using hlen), State.tick_buf, hok]
  have ⟨_, _, hpos, _, _, _⟩ := Buffer.appendList_wf d hw
  have hholds := Buffer.holds_append_fits hh hlen hfit
  rw [runCommands_of_next _ h1]
  refine ⟨_, runCommands_singleton (hrd _), ?_⟩
  rw [typedRead_of_holds val (by simpa using hpos) (by simpa using hholds) (by simp), hval]
  simp

/-! ## The statements -/

/-- Settles O38: both commands are the typed write of the two bytes (`typedWrite_effect`). -/
theorem typedWrite16Result : Obligations.TypedWrite16Result := by
  intro i b v s hi hw
  have he : exec i s = .next (typedWrite b (halfBytes v) s) := by rcases hi with rfl | rfl <;> rfl
  exact ⟨_, he, typedWrite_effect (halfBytes v) hw⟩

/-- Settles O39: the three commands are the typed write of the four bytes (`typedWrite_effect`). -/
theorem typedWrite32Result : Obligations.TypedWrite32Result := by
  intro i b v s hi hw
  have he : exec i s = .next (typedWrite b (wordBytes v) s) := by rcases hi with rfl | rfl | rfl <;> rfl
  exact ⟨_, he, typedWrite_effect (wordBytes v) hw⟩

/-- Settles O40: the typed read of two bytes, its value kept (`id`) or sign-extended (`sextHalf`). -/
theorem typedRead16Result : Obligations.TypedRead16Result := by
  intro b s hw
  constructor
  · obtain ⟨bs, hout, hmay, htook, hrec, hres⟩ := typedRead_effect 2 id hw
    rw [leWord_zeroFill_two] at hres
    exact ⟨_, bs, rfl, hout, hmay, htook, hrec, hres⟩
  · obtain ⟨bs, hout, hmay, htook, hrec, hres⟩ := typedRead_effect 2 sextHalf hw
    rw [leWord_zeroFill_two, sextHalf_setWidth] at hres
    exact ⟨_, bs, rfl, hout, hmay, htook, hrec, hres⟩

/-- Settles O41: the three commands are one typed read of four bytes, its value kept. -/
theorem typedRead32Result : Obligations.TypedRead32Result := by
  intro i b s hi hw
  have he : exec i s = .next (typedRead b 4 id s) := by rcases hi with rfl | rfl | rfl <;> rfl
  obtain ⟨bs, hout, hmay, htook, hrec, hres⟩ := typedRead_effect 4 id hw
  rw [leWord_zeroFill_four] at hres
  exact ⟨_, bs, he, hout, hmay, htook, hrec, hres⟩

/-- Settles O42: each pair is a typed write and the typed read of as many bytes (`runCommands_typedWrite_typedRead`);
in an empty buffer the bytes read are those of the value (`halfBytes_value`, `wordOfBytes_wordBytes`). -/
theorem typedRoundTrip : Obligations.TypedRoundTrip := by
  intro b bs s hw hh
  refine ⟨fun v hfit => ?half, fun v hfit => ?word⟩
  case half =>
    have hval : leWord ((bs ++ halfBytes v).take 2) =
        ((bs ++ halfBytes v).getD 1 0 ++ (bs ++ halfBytes v).getD 0 0).setWidth 32 :=
      leWord_take_two (by simp [halfBytes])
    refine ⟨?empty, ?u16, ?i16⟩
    case empty => rintro rfl; exact halfBytes_value v
    case u16 =>
      exact runCommands_typedWrite_typedRead (d := halfBytes v) (val := id) (fun _ => rfl) (fun _ => rfl) hw hh hfit
        hval
    case i16 =>
      exact runCommands_typedWrite_typedRead (d := halfBytes v) (val := sextHalf) (fun _ => rfl) (fun _ => rfl) hw hh
        hfit ((congrArg sextHalf hval).trans (sextHalf_setWidth _))
  case word =>
    refine ⟨?empty, fun wr rd hpair => ?pair⟩
    case empty => rintro rfl; exact wordOfBytes_wordBytes v
    case pair =>
      have hexec : (∀ s, exec wr s = .next (typedWrite b (wordBytes v) s)) ∧
          ∀ s, exec rd s = .next (typedRead b 4 id s) := by
        rcases hpair with h | h | h <;> cases h <;> exact ⟨fun _ => rfl, fun _ => rfl⟩
      obtain ⟨hwr, hrd⟩ := hexec
      exact runCommands_typedWrite_typedRead hwr hrd hw hh hfit (leWord_take_four (bs := bs ++ wordBytes v) (by simp))

end Sys2Proof.Machine

/-! The loop of 42_parser.md R158 over a list of bytes, with no fuel: a derivation per run, and what every run keeps. -/

namespace Sys2Proof.Machine

/-! ## The bytes of a candidate frame (30_encoding.md R60, 42_parser.md R151) -/

section CandidateFrame

variable (f : Frame) (c : Byte) (rest : List Byte)

theorem Frame.body_length : f.body.length = 4 + f.payload.length := by
  simp [Frame.body, halfBytes]; omega

theorem Frame.size_eq_body_length : f.size = f.body.length + 1 := by
  rw [Frame.body_length, Frame.size, show Config.minFrame = 5 from rfl]; omega

theorem Frame.five_add_length : 5 + f.payload.length = f.size := rfl

theorem Frame.five_le_size : 5 ≤ f.size := Nat.le_add_right _ _

theorem Frame.bytes_append : f.bytes ++ rest = f.body ++ sum8 f.body :: rest := by simp [Frame.bytes]

@[simp] theorem Frame.bytes_length : f.bytes.length = f.size := by simp [Frame.bytes, Frame.size_eq_body_length]

theorem Frame.candidate_length : (f.body ++ c :: rest).length = f.size + rest.length := by
  simp [Frame.size_eq_body_length]; omega

theorem Frame.candidate_header : (f.body ++ c :: rest).getD 1 0 ++ (f.body ++ c :: rest).getD 0 0 = f.magic :=
  halfBytes_value f.magic

theorem Frame.candidate_n : (f.body ++ c :: rest).getD 3 0 = BitVec.ofNat 8 f.payload.length := rfl

variable {f} in
theorem Frame.candidate_n_toNat (hf : f.fits = true) :
    ((f.body ++ c :: rest).getD 3 0).toNat = f.payload.length := by
  have : f.payload.length ≤ 255 := of_decide_eq_true hf
  rw [Frame.candidate_n, BitVec.toNat_ofNat, Nat.mod_eq_of_lt (by omega)]

variable {f} in
theorem Frame.candidate_size (hf : f.fits = true) : 5 + ((f.body ++ c :: rest).getD 3 0).toNat = f.size := by
  rw [Frame.candidate_n_toNat c rest hf]; rfl

theorem Frame.candidate_payload : ((f.body ++ c :: rest).drop 4).take f.payload.length = f.payload :=
  List.take_left (l₁ := f.payload) (l₂ := c :: rest)

theorem Frame.candidate_take : (f.body ++ c :: rest).take (f.size - 1) = f.body := by
  rw [Frame.size_eq_body_length, Nat.add_sub_cancel, List.take_left]

theorem Frame.candidate_checksum : (f.body ++ c :: rest).getD (f.size - 1) 0 = c := by
  rw [Frame.size_eq_body_length, Nat.add_sub_cancel, List.getD_eq_getElem?_getD,
    List.getElem?_append_right (Nat.le_refl _), Nat.sub_self]
  rfl

theorem Frame.candidate_drop : (f.body ++ c :: rest).drop f.size = rest := by
  rw [Frame.size_eq_body_length, List.drop_append, List.drop_of_length_le (by omega), Nat.add_sub_cancel_left]
  rfl

/-- The comparison of the checksum byte as numbers and as bytes (30_encoding.md R62). -/
theorem sumMod256_eq_toNat_iff (bs : List Byte) : sumMod256 bs = c.toNat ↔ c = sum8 bs := by
  rw [← sum8_toNat, BitVec.toNat_inj, eq_comm]

end CandidateFrame

/-- The two bytes of a header, low byte first (42_parser.md R153). -/
theorem halfBytes_append (hi lo : Byte) : halfBytes (hi ++ lo) = [lo, hi] := by
  rw [halfBytes, BitVec.extractLsb'_append_eq_left, BitVec.extractLsb'_append_eq_right]

/-- As many bytes as their length byte declares are a candidate frame and what follows it. -/
theorem exists_candidate {bs : List Byte} (h : 5 + (bs.getD 3 0).toNat ≤ bs.length) :
    ∃ (f : Frame) (c : Byte) (rest : List Byte),
      bs = f.body ++ c :: rest ∧ f.magic = bs.getD 1 0 ++ bs.getD 0 0 ∧ f.fits = true := by
  match bs, h with
  | lo :: hi :: op :: n :: tl, h =>
    have hn : 5 + n.toNat ≤ tl.length + 4 := h
    have hlen : (tl.take n.toNat).length = n.toNat := List.length_take_of_le (by omega)
    have hsplit : tl = tl.take n.toNat ++ tl[n.toNat] :: tl.drop (n.toNat + 1) := by
      rw [List.getElem_cons_drop, List.take_append_drop]
    refine ⟨{ magic := hi ++ lo, opcode := op, payload := tl.take n.toNat }, tl[n.toNat], tl.drop (n.toNat + 1), ?_,
      rfl, decide_eq_true (by rw [hlen]; exact Nat.le_of_lt_succ n.isLt)⟩
    simp only [Frame.body, halfBytes_append, hlen, BitVec.ofNat_toNat, BitVec.setWidth_eq, List.cons_append,
      List.nil_append]
    rw [← hsplit]

/-! ## A run of the loop as a derivation (42_parser.md R158) -/

/-- What a candidate frame with the checksum byte `c` adds in front of the result of parsing what follows it: its
record, or one more bad frame (42_parser.md R157, R159). -/
def ListParse.afterFrame (r : ListParse) (f : Frame) (c : Byte) : ListParse :=
  if c = sum8 f.body then { r with records := f.record :: r.records } else { r with nbad := r.nbad + 1 }

section AfterFrame

variable (r : ListParse) (f : Frame)

@[simp] theorem ListParse.afterFrame_sum8 :
    r.afterFrame f (sum8 f.body) = { r with records := f.record :: r.records } := if_pos rfl

theorem ListParse.afterFrame_of_ne {c : Byte} (h : c ≠ sum8 f.body) :
    r.afterFrame f c = { r with nbad := r.nbad + 1 } := if_neg h

@[simp] theorem ListParse.afterFrame_rest (c : Byte) : (r.afterFrame f c).rest = r.rest := by
  unfold ListParse.afterFrame; split <;> rfl

@[simp] theorem ListParse.afterFrame_stop (c : Byte) : (r.afterFrame f c).stop = r.stop := by
  unfold ListParse.afterFrame; split <;> rfl

end AfterFrame

/-- `Parses magic bs r peeks`: the loop over the bytes `bs` yields `r` and peeks the offsets `peeks`. It exits, or one
pass takes a byte or a whole candidate frame and the run goes on over what follows. -/
inductive Parses (magic : Half) : List Byte → ListParse → List Nat → Prop
  | short {bs : List Byte} (hshort : bs.length < 5) :
      Parses magic bs { records := [], nresync := 0, nbad := 0, rest := bs, stop := .short } []
  | wait {bs : List Byte} (hmin : 5 ≤ bs.length) (hmagic : bs.getD 1 0 ++ bs.getD 0 0 = magic)
      (hwait : bs.length < 5 + (bs.getD 3 0).toNat) :
      Parses magic bs { records := [], nresync := 0, nbad := 0, rest := bs, stop := .wait } (List.range 4)
  | resync {v : Byte} {bs : List Byte} {r : ListParse} {peeks : List Nat} (hmin : 5 ≤ (v :: bs).length)
      (hmagic : (v :: bs).getD 1 0 ++ (v :: bs).getD 0 0 ≠ magic) (hrest : Parses magic bs r peeks) :
      Parses magic (v :: bs) { r with nresync := r.nresync + 1 } (List.range 2 ++ peeks.map (1 + ·))
  | candidate {f : Frame} {c : Byte} {rest : List Byte} {r : ListParse} {peeks : List Nat} (hmagic : f.magic = magic)
      (hfits : f.fits = true) (hrest : Parses magic rest r peeks) :
      Parses magic (f.body ++ c :: rest) (r.afterFrame f c) (List.range f.size ++ peeks.map (f.size + ·))

/-- Every byte list has a run, by induction on the bytes not yet taken. -/
theorem exists_parses (magic : Half) (bs : List Byte) : ∃ r peeks, Parses magic bs r peeks := by
  by_cases hshort : bs.length < 5
  · exact ⟨_, _, .short hshort⟩
  have hmin := Nat.le_of_not_lt hshort
  by_cases hmagic : bs.getD 1 0 ++ bs.getD 0 0 = magic
  · by_cases hwait : bs.length < 5 + (bs.getD 3 0).toNat
    · exact ⟨_, _, .wait hmin hmagic hwait⟩
    · obtain ⟨f, c, rest, hbs, hf, hfits⟩ := exists_candidate (Nat.le_of_not_lt hwait)
      obtain ⟨r, peeks, hrest⟩ := exists_parses magic rest
      have := Parses.candidate (c := c) (hf.trans hmagic) hfits hrest
      exact ⟨_, _, hbs ▸ this⟩
  · match bs, hmin, hmagic with
    | v :: tl, hmin, hmagic =>
      obtain ⟨r, peeks, hrest⟩ := exists_parses magic tl
      exact ⟨_, _, .resync hmin hmagic hrest⟩
termination_by bs.length
decreasing_by
  · have := f.five_le_size
    rw [hbs, Frame.candidate_length]
    omega
  · simp

/-! ## The fuelled loop over a list follows the run -/

section ListLoop

variable {magic : Half} (fuel : Nat) {bs : List Byte}

theorem listParse_short (hshort : bs.length < 5) :
    listParse magic (fuel + 1) bs = { records := [], nresync := 0, nbad := 0, rest := bs, stop := .short } ∧
      listPeeks magic (fuel + 1) bs = [] :=
  ⟨if_pos hshort, if_pos hshort⟩

theorem listParse_wait (hmin : 5 ≤ bs.length) (hmagic : bs.getD 1 0 ++ bs.getD 0 0 = magic)
    (hwait : bs.length < 5 + (bs.getD 3 0).toNat) :
    listParse magic (fuel + 1) bs = { records := [], nresync := 0, nbad := 0, rest := bs, stop := .wait } ∧
      listPeeks magic (fuel + 1) bs = List.range 4 := by
  rw [listParse, listPeeks, if_neg (Nat.not_lt.2 hmin), if_neg (not_not.2 hmagic), if_neg (Nat.not_lt.2 hmin),
    if_neg (not_not.2 hmagic)]
  exact ⟨if_pos hwait, if_pos hwait⟩

theorem listParse_resync {v : Byte} (hmin : 5 ≤ (v :: bs).length)
    (hmagic : (v :: bs).getD 1 0 ++ (v :: bs).getD 0 0 ≠ magic) :
    listParse magic (fuel + 1) (v :: bs) =
        { listParse magic fuel bs with nresync := (listParse magic fuel bs).nresync + 1 } ∧
      listPeeks magic (fuel + 1) (v :: bs) = List.range 2 ++ (listPeeks magic fuel bs).map (1 + ·) := by
  rw [listParse, listPeeks, if_neg (Nat.not_lt.2 hmin), if_pos hmagic, if_neg (Nat.not_lt.2 hmin), if_pos hmagic]
  exact ⟨rfl, rfl⟩

theorem listParse_candidate {f : Frame} (c : Byte) (rest : List Byte) (hfits : f.fits = true) :
    listParse f.magic (fuel + 1) (f.body ++ c :: rest) = (listParse f.magic fuel rest).afterFrame f c ∧
      listPeeks f.magic (fuel + 1) (f.body ++ c :: rest) =
        List.range f.size ++ (listPeeks f.magic fuel rest).map (f.size + ·) := by
  have hlen := Frame.candidate_length f c rest
  have hsize := f.five_le_size
  have hmin : ¬ (f.body ++ c :: rest).length < 5 := by omega
  have hwhole : ¬ (f.body ++ c :: rest).length < f.size := by omega
  rw [listParse, listPeeks, if_neg hmin, if_neg hmin, Frame.candidate_header]
  simp only [ne_eq, not_true_eq_false, if_false, Frame.candidate_n_toNat c rest hfits, Frame.five_add_length, hwhole,
    Frame.candidate_drop, Frame.candidate_take, Frame.candidate_checksum, sumMod256_eq_toNat_iff,
    Frame.candidate_payload, and_true]
  rfl

end ListLoop

section Runs

variable {magic : Half} {bs : List Byte} {r : ListParse} {peeks : List Nat}

theorem Parses.listParse_eq (h : Parses magic bs r peeks) : ∀ fuel, bs.length < fuel →
    listParse magic fuel bs = r ∧ listPeeks magic fuel bs = peeks := by
  intro fuel hfuel
  induction h generalizing fuel <;> obtain ⟨fuel, rfl⟩ := Nat.exists_eq_add_one_of_ne_zero (Nat.ne_zero_of_lt hfuel)
  case short hshort => exact listParse_short fuel hshort
  case wait hmin hmagic hwait => exact listParse_wait fuel hmin hmagic hwait
  case resync hmin hmagic _ ih =>
    obtain ⟨rfl, rfl⟩ := ih fuel (by simpa using hfuel)
    exact listParse_resync fuel hmin hmagic
  case candidate f c rest _ _ hmagic hfits _ ih =>
    have := f.five_le_size
    obtain ⟨rfl, rfl⟩ := ih fuel (by rw [Frame.candidate_length] at hfuel; omega)
    subst hmagic
    exact listParse_candidate fuel c rest hfits

/-- The run over a byte list is what the statements call `parseBytes` and `parsePeeks`. -/
theorem Parses.parseBytes_eq (h : Parses magic bs r peeks) : parseBytes magic bs = r :=
  (h.listParse_eq _ (Nat.lt_succ_self _)).1

theorem parses_parseBytes (magic : Half) (bs : List Byte) :
    Parses magic bs (parseBytes magic bs) (parsePeeks magic bs) := by
  obtain ⟨r, peeks, h⟩ := exists_parses magic bs
  obtain ⟨rfl, rfl⟩ := h.listParse_eq _ (Nat.lt_succ_self _)
  exact h

/-! ## What every run keeps -/

/-- What is left is the end of the bytes. -/
theorem Parses.rest_suffix (h : Parses magic bs r peeks) : r.rest <:+ bs := by
  induction h with
  | short | wait => exact List.suffix_refl _
  | resync _ _ _ ih => exact ih.trans (List.suffix_cons _ _)
  | @candidate f c rest r _ _ _ _ ih =>
    rw [ListParse.afterFrame_rest]
    exact ih.trans ((List.suffix_cons c rest).trans (List.suffix_append _ _))

/-- Every count stands for bytes that the run took. -/
theorem Parses.counts_le (h : Parses magic bs r peeks) :
    r.nresync + r.nbad + r.records.length + r.rest.length ≤ bs.length := by
  induction h with
  | short | wait => simp
  | resync _ _ _ ih => simp only [List.length_cons]; omega
  | @candidate f c rest r _ _ _ _ ih =>
    have := f.five_le_size
    rw [Frame.candidate_length, ListParse.afterFrame]
    split <;> simp only [List.length_cons] <;> omega

/-- A run peeks buffered bytes only. -/
theorem Parses.lt_of_mem_peeks (h : Parses magic bs r peeks) : ∀ k ∈ peeks, k < bs.length := by
  induction h with
  | short => simp
  | wait hmin _ _ => intro k hk; rw [List.mem_range] at hk; omega
  | resync hmin _ _ ih =>
    intro k hk
    rw [List.mem_append, List.mem_range, List.mem_map] at hk
    rcases hk with hk | ⟨j, hj, rfl⟩
    · omega
    · have := ih j hj; rw [List.length_cons]; omega
  | @candidate f c rest _ _ _ _ _ ih =>
    intro k hk
    rw [List.mem_append, List.mem_range, List.mem_map] at hk
    rw [Frame.candidate_length]
    rcases hk with hk | ⟨j, hj, rfl⟩
    · omega
    · have := ih j hj; omega

/-- A run stops on fewer bytes than the least frame, or on the header of a frame that is not all there. -/
theorem Parses.exits (h : Parses magic bs r peeks) :
    (r.stop = .short ∧ r.rest.length < 5) ∨
      (r.stop = .wait ∧ 5 ≤ r.rest.length ∧ r.rest.getD 1 0 ++ r.rest.getD 0 0 = magic ∧
        r.rest.length < 5 + (r.rest.getD 3 0).toNat) := by
  induction h with
  | short hshort => exact .inl ⟨rfl, hshort⟩
  | wait hmin hmagic hwait => exact .inr ⟨rfl, hmin, hmagic, hwait⟩
  | resync _ _ _ ih => exact ih
  | candidate _ _ _ ih => rwa [ListParse.afterFrame_rest, ListParse.afterFrame_stop]

/-- What a run leaves, a second run leaves as it is (20_memory.md R47). -/
theorem Parses.rest_parses (h : Parses magic bs r peeks) : parseBytes magic r.rest =
    { records := [], nresync := 0, nbad := 0, rest := r.rest, stop := r.stop } := by
  rcases h.exits with ⟨hstop, hshort⟩ | ⟨hstop, hmin, hmagic, hwait⟩ <;> rw [hstop]
  · exact (Parses.short hshort).parseBytes_eq
  · exact (Parses.wait hmin hmagic hwait).parseBytes_eq

end Runs

end Sys2Proof.Machine

/-! The PARSE loop over the ring buffer follows the run over the bytes the buffer shows (42_parser.md R158), and so do
PARSE and INGEST (R161, R165). -/

namespace Sys2Proof.Machine

/-! ## Unwritten cells among the peeked ones -/

/-- Whether a `⊥` cell stands at one of the offsets. -/
def Buffer.unwrittenAmong (b : Buffer) (ks : List Nat) : Bool := ks.any fun k => (b.cellAt k).isNone

section Unwritten

variable (b : Buffer)

@[simp] theorem Buffer.unwrittenAmong_nil : b.unwrittenAmong [] = false := rfl

theorem Buffer.unwrittenAmong_iff {ks : List Nat} : b.unwrittenAmong ks = true ↔ ∃ k ∈ ks, b.cellAt k = none := by
  simp [Buffer.unwrittenAmong]

theorem Buffer.unwrittenIn_zero (n : Nat) : b.unwrittenIn 0 n = b.unwrittenAmong (List.range n) := by
  rw [Bool.eq_iff_iff, Buffer.unwrittenIn_iff, Buffer.unwrittenAmong_iff]
  simp [Buffer.someUnwritten]

theorem Buffer.unwrittenAmong_after (n k : Nat) (ks : List Nat) :
    b.unwrittenAmong (List.range n ++ ks.map (k + ·)) = (b.unwrittenIn 0 n || (b.skip k).unwrittenAmong ks) := by
  rw [Buffer.unwrittenIn_zero]
  simp [Buffer.unwrittenAmong, List.any_map, Function.comp_def]

variable {b} in
theorem Buffer.unwrittenAmong_of_liveWritten (h : b.liveWritten) {ks : List Nat} (hks : ∀ k ∈ ks, k < b.len) :
    b.unwrittenAmong ks = false := by
  rw [Bool.eq_false_iff]
  intro hu
  obtain ⟨k, hk, hnone⟩ := b.unwrittenAmong_iff.1 hu
  have hsome := h k (hks k hk)
  rw [hnone] at hsome
  cases hsome

end Unwritten

/-! ## One pass -/

section OnePass

variable {u : Nat → Byte} {magic : Half} {b : Buffer}

theorem Buffer.pass_short (h : b.len < 5) : b.pass u magic = .exit .short := if_pos h

theorem Buffer.pass_wait_of_shows {bs : List Byte} (h : b.shows u bs) (hmin : 5 ≤ bs.length)
    (hmagic : bs.getD 1 0 ++ bs.getD 0 0 = magic) (hwait : bs.length < 5 + (bs.getD 3 0).toNat) :
    b.pass u magic = .exit .wait := by
  have ⟨hlen, _⟩ := h
  have hnot : ¬ b.len < Config.minFrame := by rw [hlen]; exact Nat.not_lt.2 hmin
  rw [Buffer.pass, if_neg hnot, Buffer.header_of_shows h hmin, if_neg (not_not.2 hmagic),
    Buffer.frameSize_of_shows h hmin, hlen, if_pos hwait]

theorem Buffer.pass_resync_of_shows {bs : List Byte} (h : b.shows u bs) (hmin : 5 ≤ bs.length)
    (hmagic : bs.getD 1 0 ++ bs.getD 0 0 ≠ magic) : b.pass u magic = .resync := by
  have ⟨hlen, _⟩ := h
  have hnot : ¬ b.len < Config.minFrame := by rw [hlen]; exact Nat.not_lt.2 hmin
  rw [Buffer.pass, if_neg hnot, Buffer.header_of_shows h hmin, if_pos hmagic]

variable {f : Frame} {c : Byte} {rest : List Byte}

theorem Buffer.frameSize_candidate (h : b.shows u (f.body ++ c :: rest)) (hfits : f.fits = true) :
    b.frameSize u = f.size := by
  rw [Buffer.frameSize_of_shows h (by rw [Frame.candidate_length]; have := f.five_le_size; omega),
    Frame.candidate_size c rest hfits]

theorem Buffer.frameRecord_candidate (h : b.shows u (f.body ++ c :: rest)) (hfits : f.fits = true) :
    b.frameRecord u = f.record := by
  rw [Buffer.frameRecord_of_shows h (by rw [Frame.candidate_length, Frame.candidate_size c rest hfits]; omega),
    Frame.candidate_n_toNat c rest hfits, Frame.candidate_payload]
  rfl

theorem Buffer.pass_candidate (h : b.shows u (f.body ++ c :: rest)) (hfits : f.fits = true) :
    b.pass u f.magic = if c = sum8 f.body then .good else .bad := by
  have hlen : b.len = f.size + rest.length := h.1.trans (f.candidate_length c rest)
  have hsize := f.five_le_size
  have hnot : ¬ b.len < Config.minFrame := by rw [show Config.minFrame = 5 from rfl]; omega
  have hwhole : ¬ b.len < f.size := by omega
  rw [Buffer.pass, if_neg hnot, Buffer.header_of_shows h (by rw [Frame.candidate_length]; omega),
    Frame.candidate_header, if_neg (not_not.2 rfl), Buffer.frameSize_candidate h hfits, if_neg hwhole,
    Buffer.checksumHolds_of_shows h (by omega) (by rw [Frame.candidate_length]; omega), Frame.candidate_take,
    Frame.candidate_checksum]
  simp only [sumMod256_eq_toNat_iff, decide_eq_true_eq]

end OnePass

/-! ## All passes -/

/-- The parse state that a run with result `r` over `n` buffered bytes reaches from `p`. -/
def ParseState.advance (p : ParseState) (n : Nat) (r : ListParse) (peeks : List Nat) : ParseState where
  buf := p.buf.skip (n - r.rest.length)
  ndisp := p.ndisp + r.records.length
  nresync := p.nresync + r.nresync
  nbad := p.nbad + r.nbad
  records := p.records ++ r.records
  unwritten := p.unwritten || p.buf.unwrittenAmong peeks
  stop := r.stop

section AllPasses

variable {u : Nat → Byte} {magic : Half} {p : ParseState} {r : ListParse} {peeks : List Nat}

theorem parseLoop_of_exit (fuel : Nat) {why : Stop} (h : p.buf.pass u magic = .exit why) :
    parseLoop u magic (fuel + 1) p = p.apply u magic := by rw [parseLoop, h]

theorem parseLoop_of_pass (fuel : Nat) (h : ∀ why, p.buf.pass u magic ≠ .exit why) :
    parseLoop u magic (fuel + 1) p = parseLoop u magic fuel (p.apply u magic) := by
  rw [parseLoop]
  cases hp : p.buf.pass u magic with
  | exit why => exact absurd hp (h why)
  | resync | bad | good => rfl

theorem ParseState.apply_buf_of_frame (h : p.buf.pass u magic = .good ∨ p.buf.pass u magic = .bad) :
    (p.apply u magic).buf = p.buf.skip (p.buf.frameSize u) := by
  rcases h with h | h <;> simp only [ParseState.apply, h]

theorem ParseState.apply_advance_exit {bs : List Byte} {why : Stop} (hpos : p.buf.pos < p.buf.cap)
    (h : p.buf.pass u magic = .exit why) (hpeeks : p.buf.passUnwritten u magic = p.buf.unwrittenAmong peeks) :
    p.apply u magic =
      p.advance bs.length { records := [], nresync := 0, nbad := 0, rest := bs, stop := why } peeks := by
  rw [ParseState.apply_exit u magic p h, hpeeks]
  simp [ParseState.advance, Buffer.skip_zero _ hpos]

theorem ParseState.apply_advance_resync {n : Nat} (h : p.buf.pass u magic = .resync) (hrest : r.rest.length ≤ n) :
    (p.apply u magic).advance n r peeks =
      p.advance (n + 1) { r with nresync := r.nresync + 1 } (List.range 2 ++ peeks.map (1 + ·)) := by
  simp only [ParseState.advance, ParseState.apply, Buffer.passUnwritten, h, Buffer.skip_skip,
    Buffer.unwrittenAmong_after, Bool.or_assoc, show 1 + (n - r.rest.length) = n + 1 - r.rest.length by omega,
    Nat.add_assoc, Nat.add_comm 1 r.nresync]

theorem ParseState.apply_advance_candidate {f : Frame} {c : Byte} {rest : List Byte}
    (h : p.buf.shows u (f.body ++ c :: rest)) (hfits : f.fits = true) (hrest : r.rest.length ≤ rest.length) :
    (p.apply u f.magic).advance rest.length r peeks =
      p.advance (f.body ++ c :: rest).length (r.afterFrame f c) (List.range f.size ++ peeks.map (f.size + ·)) := by
  have hp := Buffer.pass_candidate h hfits
  have hskip : f.size + (rest.length - r.rest.length) = f.size + rest.length - r.rest.length := by omega
  rw [ListParse.afterFrame]
  by_cases hsum : c = sum8 f.body
  · rw [if_pos hsum] at hp ⊢
    simp only [ParseState.advance, ParseState.apply, Buffer.passUnwritten, hp, Buffer.frameSize_candidate h hfits,
      Buffer.frameRecord_candidate h hfits, Frame.candidate_length, Buffer.skip_skip, Buffer.unwrittenAmong_after,
      Bool.or_assoc, hskip, Nat.add_assoc, Nat.add_comm 1 r.records.length, List.length_cons, List.append_assoc,
      List.cons_append, List.nil_append]
  · rw [if_neg hsum] at hp ⊢
    simp only [ParseState.advance, ParseState.apply, Buffer.passUnwritten, hp, Buffer.frameSize_candidate h hfits,
      Frame.candidate_length, Buffer.skip_skip, Buffer.unwrittenAmong_after, Bool.or_assoc, hskip, Nat.add_assoc,
      Nat.add_comm 1 r.nbad]

/-- The loop over a ring buffer follows the run over the bytes the buffer shows. -/
theorem Parses.parseLoop_eq {bs : List Byte} (h : Parses magic bs r peeks) (fuel : Nat) (hfuel : bs.length < fuel)
    (hpos : p.buf.pos < p.buf.cap) (hshows : p.buf.shows u bs) :
    parseLoop u magic fuel p = p.advance bs.length r peeks := by
  induction h generalizing fuel p <;> obtain ⟨fuel, rfl⟩ := Nat.exists_eq_add_one_of_ne_zero (Nat.ne_zero_of_lt hfuel)
  case short hshort =>
    have hp : p.buf.pass u magic = .exit .short := Buffer.pass_short (hshows.1 ▸ hshort)
    rw [parseLoop_of_exit fuel hp]
    exact ParseState.apply_advance_exit hpos hp (by simp [Buffer.passUnwritten, hp])
  case wait hmin hmagic hwait =>
    have hp := Buffer.pass_wait_of_shows hshows hmin hmagic hwait
    rw [parseLoop_of_exit fuel hp]
    exact ParseState.apply_advance_exit hpos hp (by simp only [Buffer.passUnwritten, hp, Buffer.unwrittenIn_zero])
  case resync v bs r peeks hmin hmagic hrest ih =>
    have hp := Buffer.pass_resync_of_shows hshows hmin hmagic
    have happly : (p.apply u magic).buf = p.buf.skip 1 := by simp only [ParseState.apply, hp]
    rw [parseLoop_of_pass fuel (by simp [hp]), ih fuel (by simpa using hfuel)
      (by rw [happly]; exact Nat.mod_lt _ (Nat.zero_lt_of_lt hpos))
      (by rw [happly]; exact Buffer.shows_skip hshows (k := 1) (by simp))]
    exact ParseState.apply_advance_resync hp hrest.rest_suffix.length_le
  case candidate f c rest r peeks hmagic hfits hrest ih =>
    subst hmagic
    have hsize := f.five_le_size
    have hlen := f.candidate_length c rest
    have hframe : p.buf.pass u f.magic = .good ∨ p.buf.pass u f.magic = .bad := by
      rw [Buffer.pass_candidate hshows hfits]
      exact ite_eq_or_eq _ _ _
    have happly := ParseState.apply_buf_of_frame hframe
    rw [Buffer.frameSize_candidate hshows hfits] at happly
    have hskip := Buffer.shows_skip hshows (k := f.size) (by omega)
    rw [Frame.candidate_drop] at hskip
    rw [parseLoop_of_pass fuel (by rcases hframe with h | h <;> simp [h]), ih fuel (by omega)
      (by rw [happly]; exact Nat.mod_lt _ (Nat.zero_lt_of_lt hpos)) (by rw [happly]; exact hskip)]
    exact ParseState.apply_advance_candidate hshows hfits hrest.rest_suffix.length_le

/-- One whole PARSE of a buffer is the run over the bytes it shows (42_parser.md R158). -/
theorem runParse_of_shows {b : Buffer} {bs : List Byte} (hpos : b.pos < b.cap) (hshows : b.shows u bs) :
    runParse u magic b = (ParseState.start b).advance bs.length (parseBytes magic bs) (parsePeeks magic bs) :=
  (parses_parseBytes magic bs).parseLoop_eq _ (hshows.1 ▸ Nat.lt_succ_self _) hpos hshows

end AllPasses

/-! ## The state and the response after a PARSE or an INGEST (42_parser.md R161, R165) -/

/-- The response that reports the result of a run, with `ndrop` bytes dropped before it. -/
def ListParse.response (r : ListParse) (status : Status) (ndrop : Nat) : Response where
  status := status
  stop := r.stop
  data := BitVec.ofNat 32 (r.nresync * 65536 + r.records.length)
  data2 := BitVec.ofNat 32 (ndrop * 65536 + r.nbad)
  dsp := r.records

theorem ListParse.response_of_no_drop (r : ListParse) (status : Status) :
    r.response status 0 =
      { status := status, stop := r.stop, data := BitVec.ofNat 32 (r.nresync * 65536 + r.records.length)
        data2 := BitVec.ofNat 32 r.nbad, dsp := r.records } := by
  simp [ListParse.response]

/-- RXB was `b`, showing `bs`, and one PARSE has run. -/
def State.parsed (s : State) (b : Buffer) (bs : List Byte) (status : Status) (ndrop : Nat) : State :=
  s.finish .rxb (b.skip (bs.length - (parseBytes s.respMagic bs).rest.length))
    (b.unwrittenAmong (parsePeeks s.respMagic bs)) ((parseBytes s.respMagic bs).response status ndrop)

section Parsed

variable (s : State) (b : Buffer) (bs : List Byte) (status : Status) (ndrop : Nat)

theorem State.parsed_rxb :
    (s.parsed b bs status ndrop).rxb = b.skip (bs.length - (parseBytes s.respMagic bs).rest.length) := by
  simp [State.parsed]

theorem State.parsed_dsp : (s.parsed b bs status ndrop).dsp = s.dsp ++ (parseBytes s.respMagic bs).records := by
  simp [State.parsed, ListParse.response]

theorem State.parsed_src : (s.parsed b bs status ndrop).src = s.src := by simp [State.parsed]

theorem State.parsed_responded :
    s.responded ((parseBytes s.respMagic bs).response status ndrop) (s.parsed b bs status ndrop) :=
  State.responded_finish rfl

theorem State.parsed_records :
    s.records (∃ k ∈ parsePeeks s.respMagic bs, b.cellAt k = none) (s.parsed b bs status ndrop) :=
  State.records_finish b.unwrittenAmong_iff

variable {b bs}

theorem State.parsed_rxb_len (h : b.len = bs.length) :
    (s.parsed b bs status ndrop).rxb.len = (parseBytes s.respMagic bs).rest.length := by
  have := (parses_parseBytes s.respMagic bs).rest_suffix.length_le
  rw [State.parsed_rxb, Buffer.skip_len]
  omega

theorem State.parsed_rxb_holds (h : b.holds bs) :
    (s.parsed b bs status ndrop).rxb.holds (parseBytes s.respMagic bs).rest := by
  have hrest := List.suffix_iff_eq_drop.1 (parses_parseBytes s.respMagic bs).rest_suffix
  have hskip := Buffer.holds_skip h (Nat.sub_le bs.length (parseBytes s.respMagic bs).rest.length)
  rwa [← hrest, ← State.parsed_rxb] at hskip

theorem State.parsed_sameRecord (h : b.holds bs) : s.sameRecord (s.parsed b bs status ndrop) := by
  have ⟨hlen, _⟩ := h
  rw [State.parsed, Buffer.unwrittenAmong_of_liveWritten (Buffer.holds_liveWritten h)
    (hlen ▸ (parses_parseBytes s.respMagic bs).lt_of_mem_peeks)]
  exact State.sameRecord_finish

end Parsed

@[simp] theorem State.dropBurst_respMagic (s : State) : s.dropBurst.respMagic = s.respMagic := rfl

/-- The counts of one PARSE fit their fields of the response. -/
theorem response_advance {b : Buffer} {bs : List Byte} {magic : Half} {r : ListParse} {peeks : List Nat}
    (h : Parses magic bs r peeks) (hcap : bs.length < 65536) {status : Status} {ndrop : Nat} (hdrop : ndrop < 65536) :
    ((ParseState.start b).advance bs.length r peeks).response status ndrop = r.response status ndrop := by
  have hcounts := h.counts_le
  simp only [ParseState.response, ParseState.advance, ParseState.start, ListParse.response, Nat.zero_add,
    List.nil_append]
  rw [twoHalves_eq (by omega) (by omega), twoHalves_eq (by omega) hdrop]

section Commands

variable {s : State} {bs : List Byte}

/-- PARSE is the run over the bytes that RXB shows. -/
theorem exec_parse_of_shows (hw : s.rxb.wf) (h : s.rxb.shows s.unknown bs) :
    exec .parse s = .next (s.parsed s.rxb bs .ok 0) := by
  obtain ⟨-, hmax, hpos, hle, -, -⟩ := hw
  have hmax' : Config.maxCap = 65535 := rfl
  have hlen := h.1
  have hresp := response_advance (b := s.rxb) (parses_parseBytes s.respMagic bs) (by omega) (status := .ok)
    (ndrop := 0) (by omega)
  simp only [exec, execParse, runParse_of_shows hpos h, hresp]
  simp [State.parsed, ParseState.advance, ParseState.start]

theorem status_of_drops (n : Nat) :
    Conditions.status { dropped := decide (0 < n) } = if n > 0 then .dropped else .ok := by
  by_cases h : 0 < n
  · rw [decide_eq_true h, if_pos h]; rfl
  · rw [decide_eq_false h, if_neg h]; rfl

/-- INGEST is the run over the bytes that RXB shows with those of the source that fit behind them. -/
theorem exec_ingest_of_shows {d : List Byte} (hw : s.rxb.wf) (h : s.rxb.shows s.unknown bs)
    (hburst : s.nextBurst = .bytes d) :
    exec .ingest s =
      .next (s.dropBurst.parsed (Buffer.appendList d s.rxb).buf ((bs ++ d).take s.rxb.cap)
        (if d.length - (s.rxb.cap - bs.length) > 0 then .dropped else .ok)
        (min (d.length - (s.rxb.cap - bs.length)) 65535)) := by
  have ⟨_, hmax, _, hle, _, _⟩ := hw
  have hmax' : Config.maxCap = 65535 := rfl
  have hshows := Buffer.shows_append h hle d
  obtain ⟨-, -, hpos, -, -, -⟩ := Buffer.appendList_wf d hw
  obtain ⟨-, -, -, hdropped, -⟩ := Buffer.appendList_spec d s.rxb hle
  have hdrop : (Buffer.appendList d s.rxb).dropped = d.length - (s.rxb.cap - bs.length) := by rw [hdropped, h.1]
  have hresp := response_advance (b := (Buffer.appendList d s.rxb).buf)
    (parses_parseBytes s.respMagic ((bs ++ d).take s.rxb.cap)) (by rw [List.length_take]; omega)
    (status := if d.length - (s.rxb.cap - bs.length) > 0 then .dropped else .ok)
    (ndrop := min (d.length - (s.rxb.cap - bs.length)) 65535) (by omega)
  simp only [exec, execIngest, hburst, runParse_of_shows hpos hshows, hdrop, status_of_drops, hresp]
  simp [State.parsed, ParseState.advance, ParseState.start]

theorem exec_ingest_of_room {d : List Byte} (hw : s.rxb.wf) (h : s.rxb.shows s.unknown bs)
    (hburst : s.nextBurst = .bytes d) (hroom : bs.length + d.length ≤ s.rxb.cap) :
    exec .ingest s = .next (s.dropBurst.parsed (Buffer.appendList d s.rxb).buf (bs ++ d) .ok 0) := by
  rw [exec_ingest_of_shows hw h hburst, List.take_of_length_le (by simpa using hroom),
    show d.length - (s.rxb.cap - bs.length) = 0 by omega]
  rfl

end Commands

/-! ## The statements about one PARSE and one INGEST -/

/-- Settles O43: PARSE is the run over the bytes RXB holds (`exec_parse_of_shows`), whatever a `⊥` cell would show. -/
theorem parseComputesTheLoopOverTheBytes : Obligations.ParseComputesTheLoopOverTheBytes := by
  intro bs s hw hh
  refine ⟨_, exec_parse_of_shows hw (Buffer.shows_of_holds hh _), s.parsed_sameRecord _ _ hh, s.parsed_rxb_holds _ _ hh,
    ?pos, ?mem, s.parsed_dsp .., ?resp⟩
  case pos => rw [State.parsed_rxb, Buffer.skip_pos]
  case mem => rw [State.parsed_rxb, Buffer.skip_mem]
  case resp => rw [← ListParse.response_of_no_drop]; exact s.parsed_responded ..

/-- Settles O44: INGEST is the run over the bytes held and those appended (`exec_ingest_of_shows`). -/
theorem ingestAppendsThenParses : Obligations.IngestAppendsThenParses := by
  intro bs d s hw hh hburst
  have ⟨_, _, _, hle, _, _⟩ := hw
  obtain ⟨hcap, hpos, -, -, -⟩ := Buffer.appendList_spec d s.rxb hle
  have hall := Buffer.holds_append hh hle d
  refine ⟨_, exec_ingest_of_shows hw (Buffer.shows_of_holds hh _) hburst, s.dropBurst.parsed_sameRecord _ _ hall,
    s.dropBurst.parsed_src .., s.dropBurst.parsed_rxb_holds _ _ hall, ?pos, s.dropBurst.parsed_dsp ..,
    s.dropBurst.parsed_responded ..⟩
  rw [State.parsed_rxb, Buffer.skip_pos, hcap, hpos, List.length_take, List.length_append, Nat.min_comm]
  rfl

/-- Settles O45: the appends store at the tail (`State.appended_finish`), and the PARSE after them writes no cell
(`runParse_mem`). -/
theorem ingestStoresOnlyAtTheTail : Obligations.IngestStoresOnlyAtTheTail := by
  intro d s hw hburst
  have hstore := State.appended_finish (s := s) (b := .rxb) (d := d) (touched := false) (r := {}) hw
  obtain ⟨-, -, htail, hother⟩ := hstore
  simp only [State.buf_rxb, State.finish_rxb] at htail hother
  refine ⟨_, by rw [exec, execIngest, hburst], ?_⟩
  simp only [State.finish_rxb, (runParse_mem _ _ _).1]
  exact ⟨htail, hother⟩

end Sys2Proof.Machine

/-! The parser's laws about frames (42_parser.md R157 to R164): what the run does with frames, garbage and frames that
are not all there. -/

namespace Sys2Proof.Machine

/-! ## The run over lists of a known form -/

section KnownForms

variable {magic : Half}

theorem parseBytes_candidate {f : Frame} (c : Byte) (rest : List Byte) (hmagic : f.magic = magic)
    (hfits : f.fits = true) : parseBytes magic (f.body ++ c :: rest) = (parseBytes magic rest).afterFrame f c :=
  (Parses.candidate hmagic hfits (parses_parseBytes magic rest)).parseBytes_eq

theorem parseBytes_frame {f : Frame} (rest : List Byte) (hmagic : f.magic = magic) (hfits : f.fits = true) :
    parseBytes magic (f.bytes ++ rest) =
      { parseBytes magic rest with records := f.record :: (parseBytes magic rest).records } := by
  rw [Frame.bytes_append, parseBytes_candidate _ rest hmagic hfits, ListParse.afterFrame_sum8]

theorem parseBytes_nil : parseBytes magic [] = { records := [], nresync := 0, nbad := 0, rest := [], stop := .short } :=
  rfl

theorem parseBytes_frames : ∀ fs : List Frame, (∀ f ∈ fs, f.magic = magic ∧ f.fits = true) →
    parseBytes magic (fs.flatMap Frame.bytes) =
      { records := fs.map Frame.record, nresync := 0, nbad := 0, rest := [], stop := .short }
  | [], _ => rfl
  | f :: fs, h => by
    obtain ⟨⟨hmagic, hfits⟩, hfs⟩ := List.forall_mem_cons.1 h
    rw [List.flatMap_cons, parseBytes_frame _ hmagic hfits, parseBytes_frames fs hfs, List.map_cons]

/-- Bytes of which no two adjacent ones spell the header are discarded one by one (42_parser.md R154). -/
theorem parseBytes_garbage {tail : List Byte} (htail : 5 ≤ tail.length) : ∀ g : List Byte,
    (∀ k, k < g.length → (g ++ tail).getD (k + 1) 0 ++ (g ++ tail).getD k 0 ≠ magic) →
    parseBytes magic (g ++ tail) =
      { parseBytes magic tail with nresync := (parseBytes magic tail).nresync + g.length }
  | [], _ => rfl
  | v :: g, h => by
    have hg := parseBytes_garbage htail g fun k hk => h (k + 1) (Nat.succ_lt_succ hk)
    have hmin : 5 ≤ (v :: (g ++ tail)).length := by simp; omega
    rw [List.cons_append, (Parses.resync hmin (h 0 (by simp)) (parses_parseBytes magic _)).parseBytes_eq, hg]
    rfl

/-- The first bytes of a frame, not all of them, stay where they are (42_parser.md R151). -/
theorem parseBytes_part_of_frame {f : Frame} {k : Nat} (hmagic : f.magic = magic) (hfits : f.fits = true)
    (hk : k < f.size) :
    parseBytes magic (f.bytes.take k) =
      { records := [], nresync := 0, nbad := 0, rest := f.bytes.take k, stop := if k < 5 then .short else .wait } := by
  have hlen : (f.bytes.take k).length = k := by rw [List.length_take, Frame.bytes_length]; omega
  by_cases hmin : k < 5
  · rw [if_pos hmin]
    exact (Parses.short (by omega)).parseBytes_eq
  · have hget : ∀ j, j < 5 → (f.bytes.take k).getD j 0 = (f.body ++ [sum8 f.body]).getD j 0 := fun j hj => by
      rw [List.getD_eq_getElem?_getD, List.getElem?_take_of_lt (by omega), List.getD_eq_getElem?_getD, Frame.bytes]
    rw [if_neg hmin]
    refine (Parses.wait (by omega) ?_ ?_).parseBytes_eq
    · rw [hget 1 (by decide), hget 0 (by decide), Frame.candidate_header, hmagic]
    · rw [hget 3 (by decide), Frame.candidate_size _ _ hfits, hlen]
      exact hk

end KnownForms

/-! ## Records (42_parser.md R162) -/

/-- A complete, valid frame with the header `magic` lies whole in the bytes `bs`, and `x` is its record. -/
def DispatchRecord.standsIn (x : DispatchRecord) (magic : Half) (bs : List Byte) : Prop :=
  ∃ (k : Nat) (f : Frame), k + f.size ≤ bs.length ∧ (bs.drop k).take f.size = f.bytes ∧ f.magic = magic ∧
    f.fits = true ∧ frameValid f.bytes = true ∧ x = f.record

theorem DispatchRecord.standsIn_append {x : DispatchRecord} {magic : Half} {bs : List Byte} (front : List Byte)
    (h : x.standsIn magic bs) : x.standsIn magic (front ++ bs) := by
  obtain ⟨k, f, hlen, hbytes, hf⟩ := h
  refine ⟨front.length + k, f, by rw [List.length_append]; omega, ?_, hf⟩
  rw [List.drop_append, List.drop_of_length_le (by omega), Nat.add_sub_cancel_left, List.nil_append, hbytes]

theorem Frame.bytes_valid {f : Frame} (hfits : f.fits = true) : frameValid f.bytes = true := by
  have hn : (f.bytes.getD 3 0).toNat = f.payload.length := Frame.candidate_n_toNat (sum8 f.body) [] hfits
  have hlast : f.bytes.getLastD 0 = sum8 f.body := by simp [Frame.bytes]
  have hfront : f.bytes.dropLast = f.body := by simp [Frame.bytes]
  rw [frameValid, hn, hlast, hfront, Frame.bytes_length]
  simp [Frame.size]

theorem Parses.records_standIn {magic : Half} {bs : List Byte} {r : ListParse} {peeks : List Nat}
    (h : Parses magic bs r peeks) : ∀ x ∈ r.records, x.standsIn magic bs := by
  induction h with
  | short | wait => simp
  | @resync v _ _ _ _ _ _ ih => exact fun x hx => DispatchRecord.standsIn_append [v] (ih x hx)
  | @candidate f c rest r _ hmagic hfits _ ih =>
    have hrest : ∀ x ∈ r.records, x.standsIn magic (f.body ++ c :: rest) := fun x hx => by
      have := DispatchRecord.standsIn_append (f.body ++ [c]) (ih x hx)
      rwa [List.append_assoc] at this
    by_cases hsum : c = sum8 f.body
    · subst hsum
      rw [ListParse.afterFrame_sum8]
      refine List.forall_mem_cons.2 ⟨⟨0, f, ?_, ?_, hmagic, hfits, Frame.bytes_valid hfits, rfl⟩, hrest⟩
      · rw [Frame.candidate_length]; omega
      · rw [← Frame.bytes_append, List.drop_zero, ← f.bytes_length, List.take_left]
    · rw [ListParse.afterFrame_of_ne _ _ hsum]
      exact hrest

/-! ## A frame delivered one byte per INGEST (42_parser.md R163) -/

/-- RXB holds the first `k` bytes of the frame `f`, which fits it, and the source yields the others one per INGEST and
then `more`. -/
structure Delivering (f : Frame) (more : List Burst) (k : Nat) (s : State) : Prop where
  wf : s.rxb.wf
  holds : s.rxb.holds (f.bytes.take k)
  magic : f.magic = s.respMagic
  room : f.size ≤ s.rxb.cap
  src : s.src = (f.bytes.drop k).map (fun v => .bytes [v]) ++ more

section Delivery

variable {f : Frame} {more : List Burst} {k : Nat} {s : State}

/-- The next INGEST runs over one byte more. -/
theorem Delivering.exec_ingest (h : Delivering f more k s) (hk : k < f.size) :
    ∃ b, b.holds (f.bytes.take (k + 1)) ∧ s.src.tail = (f.bytes.drop (k + 1)).map (fun v => .bytes [v]) ++ more ∧
      exec .ingest s = .next (s.dropBurst.parsed b (f.bytes.take (k + 1)) .ok 0) := by
  have hlt : k < f.bytes.length := by rwa [Frame.bytes_length]
  have hlen : (f.bytes.take k).length = k := List.length_take_of_le (Nat.le_of_lt hlt)
  have hroom := h.room
  have hsrc := h.src
  have hnext : f.bytes.take k ++ [f.bytes[k]] = f.bytes.take (k + 1) := List.take_concat_get' f.bytes k hlt
  rw [List.drop_eq_getElem_cons hlt, List.map_cons, List.cons_append] at hsrc
  have hburst : s.nextBurst = .bytes [f.bytes[k]] := by rw [State.nextBurst, hsrc]
  have hfit : (f.bytes.take k).length + [f.bytes[k]].length ≤ s.rxb.cap := by rw [hlen, List.length_singleton]; omega
  obtain ⟨-, -, -, hle, -, -⟩ := h.wf
  have hholds := Buffer.holds_append_fits h.holds hle hfit
  have hexec := exec_ingest_of_room h.wf (Buffer.shows_of_holds h.holds _) hburst hfit
  rw [hnext] at hholds hexec
  exact ⟨_, hholds, by rw [hsrc, List.tail_cons], hexec⟩

/-- Before the last byte: no record, SHORT or WAIT, and one byte more is held. -/
theorem Delivering.exec_ingest_next (h : Delivering f more k s) (hfits : f.fits = true) (hk : k + 1 < f.size) :
    ∃ t, exec .ingest s = .next t ∧ Delivering f more (k + 1) t ∧ t.dsp = s.dsp ∧
      s.responded { status := .ok, stop := if k < 4 then .short else .wait } t := by
  obtain ⟨b, hholds, hsrc, hexec⟩ := h.exec_ingest (by omega)
  have hpart := parseBytes_part_of_frame h.magic hfits hk
  rw [← s.dropBurst_respMagic] at hpart
  have hrxb := s.dropBurst.parsed_rxb_holds .ok 0 hholds
  have hresp : s.responded _ _ := s.dropBurst.parsed_responded b (f.bytes.take (k + 1)) .ok 0
  have hdsp := s.dropBurst.parsed_dsp b (f.bytes.take (k + 1)) .ok 0
  rw [hpart] at hrxb hdsp hresp
  refine ⟨_, hexec, ⟨exec_wf hexec (sel := .rxb) h.wf, hrxb, ?_, ?_, ?_⟩, ?_, ?_⟩
  · rw [State.respMagic_congr (exec_params hexec), h.magic]
  · exact (exec_cap hexec .rxb).symm ▸ h.room
  · rw [State.parsed_src, State.dropBurst_src, hsrc]
  · simpa using hdsp
  · simpa [ListParse.response, Nat.succ_lt_succ_iff] using hresp

theorem Delivering.tick (h : Delivering f more k s) : Delivering f more k s.tick :=
  ⟨h.wf, h.holds, h.magic, h.room, h.src⟩

/-- All bytes but the last, one INGEST each. -/
theorem Delivering.run_ingests (h : Delivering f more 0 s) (hfits : f.fits = true) : ∀ k, k < f.size →
    ∃ m, runCommands (List.replicate k .ingest) s = .next m ∧ Delivering f more k m ∧ m.dsp = s.dsp ∧
      m.responses = s.responses ++
        (List.range k).map (fun j => { status := .ok, stop := if j < 4 then .short else .wait })
  | 0, _ => ⟨s, rfl, h, rfl, by simp⟩
  | k + 1, hk => by
    obtain ⟨m, hrun, hm, hdsp, hresp⟩ := h.run_ingests hfits k (by omega)
    obtain ⟨t, hexec, ht, htdsp, htresp⟩ := hm.tick.exec_ingest_next hfits hk
    refine ⟨t, ?_, ht, htdsp.trans hdsp, ?_⟩
    · rw [List.replicate_succ', runCommands_append _ hrun, runCommands_singleton hexec]
    · rw [htresp, State.tick_responses, hresp, List.range_succ, List.map_append, List.append_assoc]
      rfl

/-- The last byte: one record, and nothing is left. -/
theorem Delivering.exec_ingest_last (h : Delivering f more (f.size - 1) s) (hfits : f.fits = true) :
    ∃ t, exec .ingest s = .next t ∧ t.dsp = s.dsp ++ [f.record] ∧ t.rxb.len = 0 ∧
      s.responded { status := .ok, data := 1, dsp := [f.record] } t := by
  have hsize := f.five_le_size
  obtain ⟨b, hholds, -, hexec⟩ := h.exec_ingest (by omega)
  have hall : f.bytes.take (f.size - 1 + 1) = f.bytes :=
    List.take_of_length_le (by rw [Frame.bytes_length]; omega)
  have hframe := parseBytes_frame [] h.magic hfits
  rw [List.append_nil, parseBytes_nil, ← s.dropBurst_respMagic] at hframe
  rw [hall] at hholds hexec
  have hrxb := s.dropBurst.parsed_rxb_len .ok 0 hholds.1
  have hresp : s.responded _ _ := s.dropBurst.parsed_responded b f.bytes .ok 0
  have hdsp := s.dropBurst.parsed_dsp b f.bytes .ok 0
  rw [hframe] at hrxb hdsp hresp
  exact ⟨_, hexec, hdsp, hrxb, by simpa [ListParse.response] using hresp⟩

end Delivery

/-! ## The statements about frames -/

/-- What PARSE does to a buffer whose bytes are known, the run over them given as `r`. -/
theorem exec_parse_of_holds {s : State} {bs : List Byte} {r : ListParse} (hw : s.rxb.wf) (hh : s.rxb.holds bs)
    (hr : parseBytes s.respMagic bs = r) :
    ∃ t, exec .parse s = .next t ∧ t.rxb.holds r.rest ∧ t.dsp = s.dsp ++ r.records ∧
      s.responded (r.response .ok 0) t := by
  subst hr
  exact ⟨_, exec_parse_of_shows hw (Buffer.shows_of_holds hh _), s.parsed_rxb_holds _ _ hh, s.parsed_dsp ..,
    s.parsed_responded ..⟩

/-- Settles O48: every record of the run stands for a frame in the bytes (`Parses.records_standIn`). -/
theorem noPartialDispatch : Obligations.NoPartialDispatch := by
  intro bs s hw hh
  obtain ⟨t, hexec, -, -, hresp⟩ := exec_parse_of_holds hw hh rfl
  exact ⟨t, _, hexec, hresp, (parses_parseBytes s.respMagic bs).records_standIn⟩

/-- Settles O49: the run over consecutive frames, by induction on the frames (`parseBytes_frames`). -/
theorem consecutiveFramesDispatchInOrder : Obligations.ConsecutiveFramesDispatchInOrder := by
  intro fs s hw hfs hh
  obtain ⟨t, hexec, hrest, hdsp, hresp⟩ := exec_parse_of_holds hw hh (parseBytes_frames fs hfs)
  exact ⟨t, hexec, hrest.1, hdsp, by simpa [ListParse.response] using hresp⟩

/-- Settles O50: a candidate with another checksum byte adds one bad frame to the run over what follows
(`parseBytes_candidate`). -/
theorem badFrameIsDiscardedWhole : Obligations.BadFrameIsDiscardedWhole := by
  intro f c rest s hw hmagic hfits hsum hh
  have hrun := parseBytes_candidate c rest hmagic hfits
  rw [ListParse.afterFrame_of_ne _ _ hsum] at hrun
  rw [List.append_assoc] at hh
  obtain ⟨t, hexec, hrest, hdsp, hresp⟩ := exec_parse_of_holds hw hh hrun
  rw [ListParse.response_of_no_drop] at hresp
  exact ⟨t, hexec, hdsp, hrest, hresp⟩

/-- Settles O51: the INGESTs before the last by induction on their number (`Delivering.run_ingests`), then the last. -/
theorem incrementalDelivery : Obligations.IncrementalDelivery := by
  intro f more s hw hempty hmagic hfits hroom hsrc
  have h0 : Delivering f more 0 s := ⟨hw, Buffer.holds_nil hempty, hmagic, hroom, hsrc⟩
  have hsize := f.five_le_size
  obtain ⟨m, hrun, hm, hdsp, hresp⟩ := h0.run_ingests hfits (f.size - 1) (by omega)
  obtain ⟨t, hexec, htdsp, htlen, htresp⟩ := hm.tick.exec_ingest_last hfits
  exact ⟨m, t, hrun, hdsp, hresp, runCommands_singleton hexec, by rw [htdsp, State.tick_dsp, hdsp], htlen, htresp⟩

/-- Settles O52: the run over garbage, by induction on its bytes (`parseBytes_garbage`), and then one frame. -/
theorem resynchronization : Obligations.Resynchronization := by
  intro g f s hw hmagic hfits hgarbage hh
  have hrun := parseBytes_garbage (by rw [Frame.bytes_length]; exact f.five_le_size) g hgarbage
  have hframe := parseBytes_frame [] hmagic hfits
  rw [List.append_nil, parseBytes_nil] at hframe
  rw [hframe] at hrun
  obtain ⟨t, hexec, hrest, hdsp, hresp⟩ := exec_parse_of_holds hw hh hrun
  exact ⟨t, hexec, hrest.1, hdsp, by simpa [ListParse.response] using hresp⟩

end Sys2Proof.Machine

/-! PARSE's exits (42_parser.md R158, 20_memory.md R47), its record of `⊥` cells (R161), and the state table of R151. -/

namespace Sys2Proof.Machine

/-! ## Exits -/

theorem Buffer.holds_of_liveWritten (u : Nat → Byte) {b : Buffer} (h : b.liveWritten) :
    b.holds (b.peekRange u 0 b.len) := by
  obtain ⟨hlen, hcells⟩ := b.mayHold_peekRange u
  refine ⟨hlen, fun k hk => (hcells k hk).resolve_left fun hnone => ?_⟩
  have hsome := h k (hlen ▸ hk)
  rw [hnone] at hsome
  cases hsome

theorem Buffer.cellAt_of_holds {b : Buffer} {bs : List Byte} (h : b.holds bs) {k : Nat} (hk : k < bs.length) :
    b.cellAt k = some (bs.getD k 0) := by
  rw [h.2 k hk, List.getElem?_eq_getElem hk, List.getD_eq_getElem _ _ hk]

/-- The header's two bytes, as they stand at the head (42_parser.md R153). -/
theorem Buffer.cellAt_of_header {b : Buffer} {bs : List Byte} {magic : Half} (h : b.holds bs) (hmin : 5 ≤ bs.length)
    (hmagic : bs.getD 1 0 ++ bs.getD 0 0 = magic) :
    b.cellAt 0 = some (magic.extractLsb' 0 8) ∧ b.cellAt 1 = some (magic.extractLsb' 8 8) := by
  rw [← hmagic, BitVec.extractLsb'_append_eq_left, BitVec.extractLsb'_append_eq_right]
  exact ⟨Buffer.cellAt_of_holds h (by omega), Buffer.cellAt_of_holds h (by omega)⟩

/-- A PARSE that takes nothing: RXB, DSP and the counts stay. -/
theorem exec_parse_of_nothing_to_take {s : State} {bs : List Byte} {stop : Stop} (hw : s.rxb.wf) (hh : s.rxb.holds bs)
    (hrun : parseBytes s.respMagic bs = { records := [], nresync := 0, nbad := 0, rest := bs, stop := stop }) :
    ∃ t, exec .parse s = .next t ∧ t.rxb = s.rxb ∧ t.dsp = s.dsp ∧ s.responded { status := .ok, stop := stop } t := by
  have ⟨_, _, hpos, _, _, _⟩ := hw
  have hrxb := s.parsed_rxb s.rxb bs .ok 0
  have hdsp := s.parsed_dsp s.rxb bs .ok 0
  have hresp := s.parsed_responded s.rxb bs .ok 0
  rw [hrun] at hrxb hdsp hresp
  refine ⟨_, exec_parse_of_shows hw (Buffer.shows_of_holds hh _), ?_, by simpa using hdsp, ?_⟩
  · rw [hrxb, Nat.sub_self, Buffer.skip_zero _ hpos]
  · simpa [ListParse.response] using hresp

/-- Settles O46: how the run stops (`Parses.exits`), and that a run over what it leaves takes nothing
(`Parses.rest_parses`). -/
theorem parseExitsAndIsIdempotent : Obligations.ParseExitsAndIsIdempotent := by
  intro s hw hlive
  have hh := Buffer.holds_of_liveWritten s.unknown hlive
  have hrun := parses_parseBytes s.respMagic (s.rxb.peekRange s.unknown 0 s.rxb.len)
  obtain ⟨t, hexec, hrest, -, hresp⟩ := exec_parse_of_holds hw hh rfl
  have hmagic := State.respMagic_congr (exec_params hexec)
  refine ⟨t, _, hexec, hresp, ?exit,
    exec_parse_of_nothing_to_take (exec_wf hexec (sel := .rxb) hw) hrest (hmagic ▸ hrun.rest_parses)⟩
  rcases hrun.exits with ⟨hstop, hshort⟩ | ⟨hstop, hmin, hheader, hwait⟩
  · exact .inl ⟨hstop, hrest.1 ▸ hshort⟩
  · obtain ⟨hcell0, hcell1⟩ := Buffer.cellAt_of_header hrest hmin hheader
    exact .inr ⟨hstop, hcell0, hcell1, _, Buffer.cellAt_of_holds hrest (by omega), hrest.1 ▸ hmin, hrest.1 ▸ hwait⟩

/-! ## Unwritten cells (42_parser.md R161, 60_exceptions.md R203) -/

theorem Buffer.unwrittenIn_mono {b : Buffer} {j k : Nat} (hjk : j ≤ k) (h : b.unwrittenIn 0 j = true) :
    b.unwrittenIn 0 k = true := by
  rw [Buffer.unwrittenIn_iff] at h ⊢
  obtain ⟨i, hi, hnone⟩ := h
  exact ⟨i, by omega, hnone⟩

/-- Every pass over 5 bytes or more peeks the two header cells. -/
theorem Buffer.passUnwritten_of_header (u : Nat → Byte) (magic : Half) {b : Buffer} (hmin : 5 ≤ b.len)
    (h : b.unwrittenIn 0 2 = true) : b.passUnwritten u magic = true := by
  have hm : Config.minFrame = 5 := rfl
  have hframe := b.frameSize_ge u
  rw [Buffer.passUnwritten]
  rcases Buffer.pass_cases u magic b with ⟨hp, hshort⟩ | ⟨hp, -⟩ | ⟨hp, -⟩ | ⟨hp, -⟩ | ⟨hp, -⟩ <;> rw [hp]
  · omega
  · exact h
  · exact Buffer.unwrittenIn_mono (by decide) h
  · exact Buffer.unwrittenIn_mono (by omega) h
  · exact Buffer.unwrittenIn_mono (by omega) h

theorem ParseState.apply_unwritten (u : Nat → Byte) (magic : Half) (p : ParseState) :
    (p.apply u magic).unwritten = (p.unwritten || p.buf.passUnwritten u magic) := by
  rw [ParseState.apply]
  cases p.buf.pass u magic <;> rfl

/-- What the first pass notes stays noted. -/
theorem parseLoop_unwritten {u : Nat → Byte} {magic : Half} {p : ParseState} (fuel : Nat)
    (h : p.buf.passUnwritten u magic = true) : (parseLoop u magic (fuel + 1) p).unwritten = true := by
  have hfirst : (p.apply u magic).unwritten = true := by rw [ParseState.apply_unwritten, h, Bool.or_true]
  by_cases hp : ∃ why, p.buf.pass u magic = .exit why
  · obtain ⟨why, hp⟩ := hp
    rw [parseLoop_of_exit fuel hp, hfirst]
  · rw [parseLoop_of_pass fuel (not_exists.1 hp)]
    exact parseLoop_keeps (fun q => q.unwritten = true)
      (fun q hq => by rw [ParseState.apply_unwritten, hq, Bool.true_or]) fuel _ hfirst

/-- An append leaves a live cell `⊥` only where it was live and `⊥` before. -/
theorem Buffer.appendList_cellAt_eq_none {b : Buffer} {d : List Byte} {k : Nat} (hl : b.len ≤ b.cap)
    (hk : k < (Buffer.appendList d b).buf.len) :
    (Buffer.appendList d b).buf.cellAt k = none ↔ k < b.len ∧ b.cellAt k = none := by
  obtain ⟨-, -, -, -, hlen⟩ := Buffer.appendList_spec d b hl
  rw [hlen] at hk
  rw [Buffer.appendList_cellAt d b k hl (by omega)]
  by_cases hold : k < b.len
  · rw [if_neg (by omega)]
    exact (and_iff_right hold).symm
  · rw [if_pos (by omega), List.getElem?_eq_none_iff]
    exact ⟨fun h => by omega, fun h => absurd h.1 hold⟩

/-- Settles O55: the first pass notes a `⊥` header cell (`Buffer.passUnwritten_of_header`); PARSE and INGEST are the run
over the bytes peeked, which agree with every written cell, and note the `⊥` cells among the offsets it peeks. -/
theorem parseRecordsAnUnwrittenHeader : Obligations.ParseRecordsAnUnwrittenHeader := by
  refine ⟨fun s hmin hnone => ?header, fun s hw => ?parse, fun s d hw hburst => ?ingest⟩
  case header =>
    have htwo : s.rxb.unwrittenIn 0 2 = true := by
      rw [Buffer.unwrittenIn_iff]
      exact hnone.elim (fun h => ⟨0, by decide, h⟩) (fun h => ⟨1, by decide, h⟩)
    have hnoted : (runParse s.unknown s.respMagic s.rxb).unwritten = true :=
      parseLoop_unwritten _ (Buffer.passUnwritten_of_header _ _ hmin htwo)
    exact ⟨_, rfl, by rw [State.finish_unwrittenRead, hnoted, Bool.or_true]⟩
  case parse =>
    have hshows := s.rxb.shows_peekRange s.unknown
    refine ⟨_, _, exec_parse_of_shows hw hshows, s.rxb.mayHold_peekRange s.unknown, s.parsed_rxb_len _ _ hshows.1, ?pos,
      s.parsed_records .., ?resp⟩
    case pos => rw [State.parsed_rxb, Buffer.skip_pos]
    case resp => rw [← ListParse.response_of_no_drop]; exact s.parsed_responded ..
  case ingest =>
    have ⟨_, _, _, hle, _, _⟩ := hw
    have hshows := s.rxb.shows_peekRange s.unknown
    have hall := Buffer.shows_append hshows hle d
    obtain ⟨hcap, hpos, -, -, -⟩ := Buffer.appendList_spec d s.rxb hle
    refine ⟨_, _, exec_ingest_of_shows hw hshows hburst, s.rxb.mayHold_peekRange s.unknown,
      s.dropBurst.parsed_rxb_len _ _ hall.1, ?pos, State.records_finish ?records, s.dropBurst.parsed_responded ..⟩
    case pos =>
      rw [State.parsed_rxb, Buffer.skip_pos, hcap, hpos]
      rfl
    case records =>
      rw [Buffer.unwrittenAmong_iff]
      refine exists_congr fun k => and_congr_right fun hk => ?_
      have hlt := (parses_parseBytes _ _).lt_of_mem_peeks k hk
      rw [Buffer.appendList_cellAt_eq_none hle (hall.1 ▸ hlt), Buffer.peekRange_length]

/-! ## The state table (42_parser.md R151) -/

section Fsm

variable (u : Nat → Byte) (magic : Half)

theorem Fsm.run_add : ∀ (j k : Nat) (m : Fsm), Fsm.run u magic (j + k) m = Fsm.run u magic k (Fsm.run u magic j m)
  | 0, k, m => by rw [Nat.zero_add]; rfl
  | j + 1, k, m => by rw [Nat.succ_add, Fsm.run, Fsm.run_add j k]; rfl

/-- STOP has no row: the FSM stays there. -/
theorem Fsm.run_of_stop {m : Fsm} (h : m.state = .stop) : ∀ k, Fsm.run u magic k m = m
  | 0 => rfl
  | k + 1 => by
    have hstep : m.step u magic = m := by simp only [Fsm.step, h]
    rw [Fsm.run, hstep, Fsm.run_of_stop h k]

/-- The state in which the FSM stands after the transitions of one pass of the loop. -/
def FsmState.afterPass : Pass → FsmState
  | .exit _ => .stop
  | .resync | .bad | .good => .checkLen

/-- The opcode and length cells that HUNT peeks are among the cells that VALIDATE peeks. -/
theorem Buffer.unwrittenIn_or (b : Buffer) {j k : Nat} (hjk : j ≤ k) :
    (b.unwrittenIn 0 j || b.unwrittenIn 0 k) = b.unwrittenIn 0 k := by
  rw [Bool.or_eq_right_iff_imp]
  exact Buffer.unwrittenIn_mono hjk

/-- At most five rows of the table, from CHECK_LEN on, are one pass of the loop. -/
theorem Fsm.run_pass {m : Fsm} (h : m.state = .checkLen) : ∃ j ≤ 5,
    (Fsm.run u magic j m).state = FsmState.afterPass (m.vars.buf.pass u magic) ∧
      (Fsm.run u magic j m).vars = m.vars.apply u magic := by
  obtain ⟨state, p, op, n, fs⟩ := m
  subst h
  have hfs : Config.minFrame + (p.buf.peek u 3).toNat = p.buf.frameSize u := rfl
  have hge := p.buf.frameSize_ge u
  have hnotes := p.buf.unwrittenIn_or (Nat.le_of_succ_le hge)
  rcases Buffer.pass_cases u magic p.buf with ⟨hp, hshort⟩ | ⟨hp, hmin, hheader⟩ | ⟨hp, hmin, hheader, hwait⟩ |
    ⟨hp, hheader, hwhole, hsum⟩ | ⟨hp, hheader, hwhole, hsum⟩
  · -- CHECK_LEN
    refine ⟨1, by decide, ?_⟩
    simp [Fsm.run, Fsm.step, hshort, hp, FsmState.afterPass, ParseState.apply, Buffer.passUnwritten]
  · -- CHECK_LEN, HUNT
    refine ⟨2, by decide, ?_⟩
    simp [Fsm.run, Fsm.step, Nat.not_lt.2 hmin, hheader, hp, FsmState.afterPass, ParseState.apply, Buffer.passUnwritten,
      ParseState.note]
  · -- CHECK_LEN, HUNT, SIZE
    refine ⟨3, by decide, ?_⟩
    simp [Fsm.run, Fsm.step, Nat.not_lt.2 hmin, hheader, hfs, hwait, hp, FsmState.afterPass, ParseState.apply,
      Buffer.passUnwritten, ParseState.note]
  · -- CHECK_LEN, HUNT, SIZE, VALIDATE, DISPATCH
    refine ⟨5, by decide, ?_⟩
    simp [Fsm.run, Fsm.step, Nat.not_lt.2 (hge.trans hwhole), hheader, hfs, Nat.not_lt.2 hwhole, hsum, hp,
      FsmState.afterPass, ParseState.apply, Buffer.passUnwritten, ParseState.note, Bool.or_assoc, hnotes,
      Buffer.frameRecord]
  · -- CHECK_LEN, HUNT, SIZE, VALIDATE
    refine ⟨4, by decide, ?_⟩
    simp [Fsm.run, Fsm.step, Nat.not_lt.2 (hge.trans hwhole), hheader, hfs, Nat.not_lt.2 hwhole, hsum, hp,
      FsmState.afterPass, ParseState.apply, Buffer.passUnwritten, ParseState.note, Bool.or_assoc, hnotes]

/-- The table and the loop pass for pass, by induction on the passes the loop may make. -/
theorem Fsm.run_eq_parseLoop : ∀ (fuel : Nat) (m : Fsm), m.state = .checkLen → m.vars.buf.len < fuel →
    ∀ k, 5 * fuel ≤ k → (Fsm.run u magic k m).state = .stop ∧
      (Fsm.run u magic k m).vars = parseLoop u magic fuel m.vars
  | 0, _, _, hfuel, _, _ => absurd hfuel (Nat.not_lt_zero _)
  | fuel + 1, m, hm, hfuel, k, hk => by
    obtain ⟨j, hj, hstate, hvars⟩ := Fsm.run_pass u magic hm
    obtain ⟨i, rfl⟩ := Nat.exists_eq_add_of_le (show j ≤ k by omega)
    rw [Fsm.run_add]
    by_cases hp : ∃ why, m.vars.buf.pass u magic = .exit why
    · obtain ⟨why, hp⟩ := hp
      rw [hp] at hstate
      rw [Fsm.run_of_stop u magic hstate, parseLoop_of_exit fuel hp]
      exact ⟨hstate, hvars⟩
    · have hnext := not_exists.1 hp
      have hcheck : (Fsm.run u magic j m).state = .checkLen := by
        rw [hstate]
        cases hpass : m.vars.buf.pass u magic with
        | exit why => exact absurd hpass (hnext why)
        | resync | bad | good => rfl
      have hless := ParseState.apply_len_lt u magic m.vars hnext
      rw [parseLoop_of_pass fuel hnext, ← hvars]
      exact Fsm.run_eq_parseLoop fuel _ hcheck (by rw [hvars]; omega) i (by omega)

end Fsm

/-- Settles O47: at most five rows of the table are one pass of the loop (`Fsm.run_pass`), pass for pass
(`Fsm.run_eq_parseLoop`). -/
theorem fsmTableIsTheParseLoop : Obligations.FsmTableIsTheParseLoop :=
  fun u magic b k hk => Fsm.run_eq_parseLoop u magic (b.len + 1) (Fsm.start b) rfl (Nat.lt_succ_self _) k hk

end Sys2Proof.Machine

/-! Proofs of the statements about the request builder, DRAIN and ISSUE, and about what PARSE and INGEST read
(43_codec.md). -/

namespace Sys2Proof.Machine

/-! ## The parser reads RXB, the configuration and the source (43_codec.md R185) -/

/-- INGEST from a source that reports 0 available after the bytes `d` (42_parser.md R165). -/
theorem exec_ingest_of_bytes {s : State} {d : List Byte} (h : s.nextBurst = .bytes d) :
    exec .ingest s = .next (s.dropBurst.finish .rxb
      (runParse s.unknown s.respMagic (Buffer.appendList d s.rxb).buf).buf
      (runParse s.unknown s.respMagic (Buffer.appendList d s.rxb).buf).unwritten
      ((runParse s.unknown s.respMagic (Buffer.appendList d s.rxb).buf).response
        (Conditions.status { dropped := decide (0 < (Buffer.appendList d s.rxb).dropped) })
        (min (Buffer.appendList d s.rxb).dropped 65535))) := by
  rw [exec, execIngest, h]

/-- Only an endless source keeps INGEST from completing (70_reset_and_hazards.md R237). -/
theorem nextBurst_of_exec_ingest {s t : State} (h : exec .ingest s = .next t) : ∃ d, s.nextBurst = .bytes d := by
  cases hburst : s.nextBurst with
  | bytes d => exact ⟨d, rfl⟩
  | endless => rw [exec, execIngest, hburst] at h; cases h

/-- Settles O21: both states run the same loop over the same buffer, and finish with the same contents and response. -/
theorem parserIgnoresEverythingButRxb : Obligations.ParserIgnoresEverythingButRxb := by
  intro i s s' t hi hrxb hparams hfree hburst h
  have hunknown : s'.unknown = s.unknown := State.unknown_congr hfree
  have hmagic : s'.respMagic = s.respMagic := State.respMagic_congr hparams
  rcases hi with rfl | rfl
  case inl =>
    cases h
    refine ⟨_, _, rfl, ?_, State.finish_responses .., ?_⟩
    · simp only [State.finish_rxb, hrxb, hunknown, hmagic]
    · simp only [State.finish_responses, hrxb, hunknown, hmagic]
  case inr =>
    obtain ⟨d, hd⟩ := nextBurst_of_exec_ingest h
    rw [exec_ingest_of_bytes hd] at h
    cases h
    refine ⟨_, _, exec_ingest_of_bytes (hburst.trans hd), ?_, State.finish_responses .., ?_⟩
    · simp only [State.finish_rxb, hrxb, hunknown, hmagic]
    · simp only [State.finish_responses, State.dropBurst_responses, hrxb, hunknown, hmagic]

/-! ## Draining (43_codec.md R182) -/

/-- Popping all that is buffered: no pop is zero-filled. -/
theorem Buffer.popN_len (u : Nat → Byte) {b : Buffer} (h : b.pos < b.cap) :
    Buffer.popN u b.len b =
      { buf := b.skip b.len, bytes := b.peekRange u 0 b.len, popped := b.len, unwritten := b.unwrittenIn 0 b.len } := by
  simp only [Buffer.popN_spec u _ b h, Nat.min_self, Nat.sub_self, List.replicate_zero, List.append_nil]

/-- Popping all of a buffer that holds `bs` gives `bs`, whatever the unknown bytes are. -/
theorem Buffer.popN_len_of_holds (u : Nat → Byte) {b : Buffer} {bs : List Byte} (hpos : b.pos < b.cap)
    (h : b.holds bs) :
    Buffer.popN u b.len b = { buf := b.skip b.len, bytes := bs, popped := b.len, unwritten := false } := by
  rw [Buffer.popN_len u hpos, Buffer.peekRange_of_holds h,
    Buffer.unwrittenIn_of_liveWritten (Buffer.holds_liveWritten h) (by omega)]

theorem exec_drain_eq {s : State} (hpos : s.txb.pos < s.txb.cap) :
    exec .drain s = .next (s.finish .txb (s.txb.skip s.txb.len) (s.txb.unwrittenIn 0 s.txb.len)
      { status := .ok, data := BitVec.ofNat 32 s.txb.len, snk := s.txb.peekRange s.unknown 0 s.txb.len }) := by
  simp only [exec, execDrain, Buffer.popN_len _ hpos, zextCount_eq]

/-- Settles O58: the bytes sent are those the command finds in the live region (`exec_drain_eq`). -/
theorem drainResult : Obligations.DrainResult := by
  intro s hw
  obtain ⟨-, -, hpos, -, -, -⟩ := hw
  exact ⟨_, s.txb.peekRange s.unknown 0 s.txb.len, exec_drain_eq hpos, Buffer.mayHold_peekRange ..,
    State.tookFirst_finish, State.finish_snk .., State.records_finish (Buffer.unwrittenIn_iff ..),
    State.responded_finish rfl⟩

/-! ## Building a request (43_codec.md R180) -/

/-- What BUILD_REQUEST leaves in a buffer of `cap` cells: the frame with the sum of the bytes stored before it, cut at
the capacity (`Buffer.buildRequest_holds`). -/
def requestBytes (cap : Nat) (op : Byte) (d : List Byte) : List Byte :=
  ((requestFrame op d).body ++ [sum8 ((requestFrame op d).body.take cap)]).take cap

/-- The response of BUILD_REQUEST with a buffer of `cap` cells (`exec_buildRequest_eq`). -/
def requestResponse (cap : Nat) (op : Byte) (d : List Byte) : Response where
  status := if 5 + d.length ≤ cap then .ok else .dropped
  data := BitVec.ofNat 32 (sumMod256 ((requestFrame op d).body.take cap))
  data2 := BitVec.ofNat 32 (min (5 + d.length) cap)

theorem requestFrame_body_length (op : Byte) (d : List Byte) : (requestFrame op d).body.length = 4 + d.length :=
  Frame.body_length _

theorem requestBytes_length (cap : Nat) (op : Byte) (d : List Byte) :
    (requestBytes cap op d).length = min (5 + d.length) cap := by
  rw [requestBytes, List.length_take, List.length_append, requestFrame_body_length, List.length_singleton]
  omega

/-- Where nothing is cut the bytes are the frame on the wire (30_encoding.md R60). -/
theorem requestBytes_of_fits {cap : Nat} {op : Byte} {d : List Byte} (h : 5 + d.length ≤ cap) :
    requestBytes cap op d = (requestFrame op d).bytes := by
  have hlen := requestFrame_body_length op d
  rw [requestBytes, List.take_of_length_le (i := cap) (l := (requestFrame op d).body) (by omega),
    List.take_of_length_le (by rw [List.length_append, List.length_singleton]; omega), Frame.bytes]

/-- Appends to a buffer whose head is cell 0 write no cell beyond their last one. -/
theorem Buffer.appendList_read_beyond {b : Buffer} {d : List Byte} {a : Nat} (hpos : b.pos = 0) (hle : b.len ≤ b.cap)
    (ha : b.len + d.length ≤ a) : (Buffer.appendList d b).buf.mem.read a = b.mem.read a := by
  refine Buffer.appendList_read_other d b a (fun k _ hk hcap => ?_) hle
  rw [Buffer.index, hpos, Nat.zero_add, Nat.mod_eq_of_lt hcap]
  omega

section Build

variable (u : Nat → Byte) (op : Byte) (d : List Byte) {b : Buffer}

theorem Buffer.buildRequest_holds (hw : b.wf) : (b.buildRequest u op d).buf.holds (requestBytes b.cap op d) :=
  (Buffer.buildRequest_spec u op d hw).1

theorem Buffer.buildRequest_pos (hw : b.wf) : (b.buildRequest u op d).buf.pos = 0 := by
  obtain ⟨-, -, -, -, hpos⟩ := Buffer.buildRequest_spec u op d hw
  exact hpos

theorem Buffer.buildRequest_unwritten (hw : b.wf) : (b.buildRequest u op d).unwritten = false := by
  obtain ⟨-, -, -, hunwritten, -⟩ := Buffer.buildRequest_spec u op d hw
  exact hunwritten

/-- The sum, the drops and the count that building reports, as numbers. -/
theorem Buffer.buildRequest_response (hw : b.wf) (snk : List Byte) :
    (b.buildRequest u op d).response snk = { requestResponse b.cap op d with snk := snk } := by
  obtain ⟨⟨hlen, -⟩, hcsum, hdropped, -, -⟩ := Buffer.buildRequest_spec u op d hw
  have hcount : (b.buildRequest u op d).buf.len = min (5 + d.length) b.cap := by
    rw [hlen]; exact requestBytes_length b.cap op d
  have hstatus : Conditions.status { dropped := decide (b.cap < 5 + d.length) } =
      if 5 + d.length ≤ b.cap then .ok else .dropped := by
    by_cases hfits : 5 + d.length ≤ b.cap
    · rw [if_pos hfits, decide_eq_false (by omega)]; rfl
    · rw [if_neg hfits, decide_eq_true (by omega)]; rfl
  rw [BuildResult.response, hcsum, hdropped, hcount, hstatus, zextByte_sum8, zextCount_eq]
  rfl

/-- The frame is built from cell 0 on, so no cell beyond it is written, cut or not (43_codec.md R181). -/
theorem Buffer.buildRequest_read_beyond (hw : b.wf) {a : Nat} (ha : 5 + d.length ≤ a) :
    (b.buildRequest u op d).buf.mem.read a = b.mem.read a := by
  have hbody := requestFrame_body_length op d
  obtain ⟨-, -, -, hle, -, -⟩ := Buffer.clear_wf hw
  obtain ⟨hcap, hpos, -, -, hlen⟩ := Buffer.appendList_spec (requestFrame op d).body b.clear hle
  rw [Buffer.clear_len, Nat.zero_add] at hlen
  rw [Buffer.buildRequest,
    Buffer.appendList_read_beyond hpos (by omega) (by rw [hlen, List.length_singleton]; omega),
    Buffer.appendList_read_beyond b.clear_pos hle (by rw [Buffer.clear_len]; omega), Buffer.clear_mem]

end Build

theorem exec_buildRequest_eq {s : State} (op : Byte) (d : List Byte) (hw : s.txb.wf) :
    exec (.buildRequest op d) s =
      .next (s.finish .txb (s.txb.buildRequest s.unknown op d).buf false (requestResponse s.txb.cap op d)) := by
  simp only [exec, execBuildRequest, Buffer.buildRequest_unwritten _ op d hw, Buffer.buildRequest_response _ op d hw]
  rfl

/-- Settles O56, by what building leaves in TXB (`Buffer.buildRequest_holds`, `Buffer.buildRequest_read_beyond`) and
reports (`requestResponse`). -/
theorem buildRequestResult : Obligations.BuildRequestResult := by
  intro op d s hw _
  rw [← requestFrame_body]
  refine ⟨_, exec_buildRequest_eq op d hw, State.sameRecord_finish, ?snk, ?pos, ?holds, fun a ha => ?beyond,
    State.responded_finish rfl⟩
  case snk => rw [State.finish_snk]; exact List.append_nil _
  case pos => rw [State.finish_txb, Buffer.buildRequest_pos _ op d hw]
  case holds => rw [State.finish_txb, ← sum8_eq]; exact Buffer.buildRequest_holds _ op d hw
  case beyond => rw [State.finish_txb, Buffer.buildRequest_read_beyond _ op d hw ha]

/-- The check of a whole buffered frame compares its last byte with the sum it was made from (40_buffer.md R110). -/
theorem exec_bufChecksum_of_holds_frame {sel : BufSel} {s : State} {f : Frame} (h : (s.buf sel).holds f.bytes) :
    exec (.bufChecksum sel) s = .next (s.finish sel (s.buf sel) false { status := .ok, csumOk := true }) := by
  have hcheck : (s.buf sel).wholeChecksum s.unknown = true := by
    rw [Buffer.wholeChecksum_of_shows_concat (Buffer.shows_of_holds h _), sum8_toNat, decide_eq_true rfl]
  simp only [exec, execBufChecksum, hcheck,
    Buffer.unwrittenIn_of_liveWritten (Buffer.holds_liveWritten h) (Nat.le_of_eq (Nat.zero_add _))]

/-- Settles O57: a frame that is not cut is the frame on the wire (`requestBytes_of_fits`), which is valid and passes
the check. -/
theorem builtFramesAreValid : Obligations.BuiltFramesAreValid := by
  intro op d s hw hlen hfits
  have hholds := Buffer.buildRequest_holds s.unknown op d hw
  rw [requestBytes_of_fits hfits] at hholds
  have hpayload : (requestFrame op d).fits = true := decide_eq_true hlen
  exact ⟨_, _, (requestFrame op d).bytes, exec_buildRequest_eq op d hw, hholds, Frame.bytes_valid hpayload,
    exec_bufChecksum_of_holds_frame hholds, State.responded_finish rfl⟩

/-! ## Building and draining in one command (43_codec.md R183) -/

theorem exec_issue_eq {s : State} (op : Byte) (d : List Byte) (hw : s.txb.wf) :
    exec (.issue op d) s =
      .next (s.finish .txb
        ((s.txb.buildRequest s.unknown op d).buf.skip (s.txb.buildRequest s.unknown op d).buf.len) false
        { requestResponse s.txb.cap op d with snk := requestBytes s.txb.cap op d }) := by
  obtain ⟨-, -, hpos, -, -, -⟩ := Buffer.buildRequest_wf s.unknown op d hw
  simp only [exec, execIssue, Buffer.popN_len_of_holds _ hpos (Buffer.buildRequest_holds s.unknown op d hw),
    Buffer.buildRequest_unwritten _ op d hw, Buffer.buildRequest_response _ op d hw, Bool.or_false]

/-- Settles O59: ISSUE pops all that BUILD_REQUEST leaves in TXB (`exec_issue_eq`, `exec_buildRequest_eq`). -/
theorem issueResult : Obligations.IssueResult := by
  intro op d s hw _
  have hholds := Buffer.buildRequest_holds s.unknown op d hw
  refine ⟨_, requestResponse s.txb.cap op d, requestBytes s.txb.cap op d, _, exec_buildRequest_eq op d hw,
    State.responded_finish rfl, hholds, exec_issue_eq op d hw, ?mem, ?len, ?pos, State.finish_snk ..,
    State.sameRecord_finish, State.responded_finish rfl⟩
  case mem => rw [State.finish_txb, State.finish_txb, Buffer.skip_mem]
  case len => rw [State.finish_txb, Buffer.skip_len, Nat.sub_self]
  case pos =>
    obtain ⟨hlen, -⟩ := hholds
    rw [State.finish_txb, Buffer.skip_pos, Buffer.buildRequest_pos _ op d hw, Nat.zero_add, hlen,
      Buffer.buildRequest_cap]

end Sys2Proof.Machine

/-! Proofs of the statements about completion, waiting and the record of UNWRITTEN_READ (60_exceptions.md). -/

namespace Sys2Proof.Machine

/-! ## Nothing to take from CMD (60_exceptions.md R214) -/

theorem fetchCommand_of_half {w : Word} {rest : List Word} (h : rest.length < extCount w) :
    fetchCommand (w :: rest) = .idle := if_pos h

theorem step_of_fetchCommand_idle {s : State} (h : fetchCommand s.cmd = .idle) : step s = .next s := by
  simp only [step, h, State.idle_eq]

/-! ## The record of UNWRITTEN_READ (60_exceptions.md R203) -/

theorem State.finish_keeps_unwrittenRead {s : State} (h : s.unwrittenRead = true) (sel : BufSel) (b : Buffer)
    (touched : Bool) (r : Response) : (s.finish sel b touched r).unwrittenRead = true := by
  rw [State.finish_unwrittenRead, h, Bool.true_or]

theorem exec_keeps_unwrittenRead {i : Instr} {s t : State} (h : exec i s = .next t) (hs : s.unwrittenRead = true) :
    t.unwrittenRead = true := by
  obtain ⟨b, touched, r, rfl, -⟩ := exec_next h
  exact State.finish_keeps_unwrittenRead ((s.sourced_unwrittenRead i).trans hs) _ b touched r

/-! ## The statements -/

/-- Settles O8: an empty CMD and a half-issued command are the two ways to fetch nothing. -/
theorem idleWithoutAWholeCommand : Obligations.IdleWithoutAWholeCommand := by
  rintro s (hcmd | ⟨w, rest, hcmd, hhalf⟩)
  · exact step_of_fetchCommand_idle (hcmd ▸ rfl)
  · exact step_of_fetchCommand_idle (hcmd ▸ fetchCommand_of_half hhalf)

/-- Settles O11: `exec` hangs or finishes (`exec_cases`), and where it finishes it delivers one response
(`exec_deliversOne`). -/
theorem everyCommandCompletes : Obligations.EveryCommandCompletes := by
  intro i s
  rcases exec_cases i s with ⟨hi, hburst, he⟩ | ⟨hne, b, touched, r, he, -⟩
  · exact ⟨fun hnot => absurd ⟨hi, hburst⟩ hnot, fun _ => he⟩
  · obtain ⟨-, -, r', hresp, -⟩ := exec_deliversOne he
    exact ⟨fun _ => ⟨_, r', he, hresp⟩, fun hhang => absurd hhang hne⟩

/-- Settles O17: of the things a step can do, only running a command touches the record, and it only adds to it
(`exec_keeps_unwrittenRead`). -/
theorem unwrittenReadIsSticky : Obligations.UnwrittenReadIsSticky := by
  intro s t h hs
  rcases step_cases h with ⟨-, rfl⟩ | ⟨i, n, -, he⟩ | ⟨e, n, -, rfl⟩
  · exact hs
  · exact exec_keeps_unwrittenRead (s := s.accept n) he hs
  · exact hs

end Sys2Proof.Machine

/-! Proofs of the statements about the block's reset and the stall by an oversize frame (70_reset_and_hazards.md). -/

namespace Sys2Proof.Machine

/-! ## A frame larger than the buffer stands at the head (70_reset_and_hazards.md R232) -/

/-- What `State.Stalled` says of RXB, for any buffer and header. -/
def Buffer.stalled (magic : Half) (b : Buffer) : Prop :=
  5 ≤ b.len ∧ b.cellAt 0 = some (magic.extractLsb' 0 8) ∧ b.cellAt 1 = some (magic.extractLsb' 8 8) ∧
    ∃ op n, b.cellAt 2 = some op ∧ b.cellAt 3 = some n ∧ b.cap < 5 + n.toNat

theorem State.stalled_iff (s : State) : s.Stalled ↔ s.rxb.stalled s.respMagic := Iff.rfl

theorem Buffer.peek_of_cellAt (u : Nat → Byte) {b : Buffer} {k : Nat} {v : Byte} (h : b.cellAt k = some v) :
    b.peek u k = v := by rw [Buffer.peek, h, Option.getD_some]

theorem Buffer.appendList_cellAt_of_lt {b : Buffer} (d : List Byte) {k : Nat} (hle : b.len ≤ b.cap) (hk : k < b.len) :
    (Buffer.appendList d b).buf.cellAt k = b.cellAt k := by
  rw [Buffer.appendList_cellAt d b k hle (by omega), if_neg (by omega)]

section Stalled

variable {magic : Half} {b : Buffer}

/-- The declared frame never fits, so the first pass waits for it, whatever the cells behind the header hold. -/
theorem Buffer.pass_of_stalled (u : Nat → Byte) (h : b.stalled magic) (hle : b.len ≤ b.cap) :
    b.pass u magic = .exit .wait := by
  obtain ⟨hmin, hlo, hhi, op, n, -, hn, hbig⟩ := h
  have hheader : b.header u = magic := by
    rw [Buffer.header, Buffer.peek_of_cellAt u hlo, Buffer.peek_of_cellAt u hhi, halfBytes_value]
  have hsize : b.frameSize u = 5 + n.toNat := by rw [Buffer.frameSize, Buffer.peek_of_cellAt u hn]; rfl
  have hlong : ¬ b.len < Config.minFrame := Nat.not_lt.2 hmin
  rw [Buffer.pass, if_neg hlong, if_neg (not_not.2 hheader), hsize, if_pos (by omega)]

/-- Appends go behind the header at the head. -/
theorem Buffer.stalled_append (h : b.stalled magic) (hle : b.len ≤ b.cap) (d : List Byte) :
    (Buffer.appendList d b).buf.stalled magic := by
  obtain ⟨hmin, hlo, hhi, op, n, hop, hn, hbig⟩ := h
  obtain ⟨hcap, -, -, -, hlen⟩ := Buffer.appendList_spec d b hle
  have hcell : ∀ k, k < 5 → (Buffer.appendList d b).buf.cellAt k = b.cellAt k := fun k hk =>
    Buffer.appendList_cellAt_of_lt d hle (Nat.lt_of_lt_of_le hk hmin)
  exact ⟨by omega, (hcell 0 (by decide)).trans hlo, (hcell 1 (by decide)).trans hhi, op, n,
    (hcell 2 (by decide)).trans hop, (hcell 3 (by decide)).trans hn, hcap ▸ hbig⟩

/-- A PARSE whose first pass exits takes nothing and emits nothing. -/
theorem runParse_of_exit {u : Nat → Byte} {why : Stop} (h : b.pass u magic = .exit why) :
    runParse u magic b = { ParseState.start b with unwritten := b.passUnwritten u magic, stop := why } :=
  (parseLoop_of_exit (p := ParseState.start b) b.len h).trans (ParseState.apply_exit u magic _ h)

end Stalled

/-! ## INGESTs into a stalled RXB (70_reset_and_hazards.md R232) -/

/-- RXB is stalled, and every burst the source still lists is finite. -/
structure Stalling (s : State) : Prop where
  wf : s.rxb.wf
  stalled : s.Stalled
  finite : ∀ x ∈ s.src, x ≠ .endless

section Stalling

variable {s : State}

theorem nextBurst_of_finite (h : ∀ x ∈ s.src, x ≠ .endless) : ∃ d, s.nextBurst = .bytes d := by
  rw [State.nextBurst]
  cases hsrc : s.src with
  | nil => exact ⟨[], rfl⟩
  | cons x rest =>
    cases x with
    | bytes d => exact ⟨d, rfl⟩
    | endless => exact absurd rfl (h .endless (hsrc ▸ List.mem_cons_self))

theorem Stalling.tick (h : Stalling s) : Stalling s.tick := ⟨h.wf, h.stalled, h.finite⟩

/-- One INGEST stores what fits behind the header and waits. -/
theorem Stalling.exec_ingest (h : Stalling s) :
    ∃ t r, exec .ingest s = .next t ∧ Stalling t ∧ t.rxb.pos = s.rxb.pos ∧ t.dsp = s.dsp ∧ s.responded r t ∧
      r.stop = .wait ∧ r.dsp = [] := by
  obtain ⟨d, hburst⟩ := nextBurst_of_finite h.finite
  obtain ⟨-, -, -, hle, -, -⟩ := h.wf
  obtain ⟨-, -, -, hle', -, -⟩ := Buffer.appendList_wf d h.wf
  obtain ⟨-, hpos, -, -, -⟩ := Buffer.appendList_spec d s.rxb hle
  have hstalled := Buffer.stalled_append (s.stalled_iff.1 h.stalled) hle d
  have hexec := exec_ingest_of_bytes hburst
  rw [runParse_of_exit (Buffer.pass_of_stalled s.unknown hstalled hle')] at hexec
  refine ⟨_, _, hexec, ⟨exec_wf hexec (sel := .rxb) h.wf, ?stalled, ?finite⟩, hpos, ?dsp, State.responded_finish rfl,
    rfl, rfl⟩
  case stalled =>
    rw [State.stalled_iff, State.respMagic_congr (exec_params hexec)]
    exact hstalled
  case finite =>
    rw [exec_src hexec, if_pos rfl]
    exact fun x hx => h.finite x (List.mem_of_mem_tail hx)
  case dsp => rw [State.finish_dsp]; exact List.append_nil _

/-- Any number of INGESTs. -/
theorem Stalling.run_ingests (h : Stalling s) : ∀ k : Nat,
    ∃ t rs, runCommands (List.replicate k .ingest) s = .next t ∧ Stalling t ∧ t.rxb.pos = s.rxb.pos ∧
      t.dsp = s.dsp ∧ t.responses = s.responses ++ rs ∧ ∀ r ∈ rs, r.stop = .wait ∧ r.dsp = []
  | 0 => ⟨s, [], rfl, h, rfl, rfl, (List.append_nil _).symm, nofun⟩
  | k + 1 => by
    obtain ⟨m, rs, hrun, hm, hpos, hdsp, hresp, hwait⟩ := h.run_ingests k
    obtain ⟨t, r, hexec, ht, htpos, htdsp, htresp, hr⟩ := hm.tick.exec_ingest
    refine ⟨t, rs ++ [r], ?run, ht, htpos.trans hpos, htdsp.trans hdsp, ?resp, ?wait⟩
    case run => rw [List.replicate_succ', runCommands_append _ hrun, runCommands_singleton hexec]
    case resp => rw [htresp, State.tick_responses, hresp, List.append_assoc]
    case wait => exact List.forall_mem_append.2 ⟨hwait, List.forall_mem_singleton.2 hr⟩

end Stalling

/-! ## The statements -/

/-- Settles O53: each INGEST finds the stall and leaves it (`Stalling.exec_ingest`), by induction on their number. -/
theorem oversizeStall : Obligations.OversizeStall := by
  intro k s hw hstalled hfinite
  obtain ⟨t, rs, hrun, ht, hrest⟩ := Stalling.run_ingests ⟨hw, hstalled, hfinite⟩ k
  exact ⟨t, rs, hrun, ht.stalled, hrest⟩

/-- Settles O13: reset is BUF_INIT on each instance; on CMD `wholeCommands` drops a command that is not all there and
keeps a whole one in front. -/
theorem blockResetIsBufInitOnBoth : Obligations.BlockResetIsBufInitOnBoth := by
  refine fun s => ⟨fun b => ?buffers, wholeCommands_of_idle, fun w ext rest hcmd hext => ?whole, rfl⟩
  case buffers =>
    rw [State.blockReset_buf]
    exact ⟨⟨_, rfl, (State.finish_buf_self ..).symm⟩, rfl, rfl, rfl, Memory.read_nil⟩
  case whole => rw [State.blockReset_cmd, State.blockReset_cmd, hcmd, wholeCommands_append hext]

/-- Settles O54: PARSE exits SHORT, with fewer bytes than the least frame, or WAIT (`parseExitsAndIsIdempotent`), and
the frame it waits for fits RXB or stalls it. -/
theorem roomAfterParseUnlessStalled : Obligations.RoomAfterParseUnlessStalled := by
  intro s hw hcap hlive
  obtain ⟨t, r, hexec, -, hexit, -⟩ := parseExitsAndIsIdempotent s hw hlive
  have htcap : t.rxb.cap = s.rxb.cap := exec_cap hexec .rxb
  refine ⟨t, hexec, ?_⟩
  rcases hexit with ⟨-, hshort⟩ | ⟨-, hlo, hhi, n, hn, hmin, hwait⟩
  · exact .inl (by omega)
  by_cases hbig : t.rxb.cap < 5 + n.toNat
  · have htlive : t.rxb.liveWritten := by
      cases hexec
      exact (runParse_liveWritten _ _ hlive).1
    obtain ⟨op, hop⟩ := Option.isSome_iff_exists.1 (htlive 2 (by omega))
    have hmagic := State.respMagic_congr (exec_params hexec)
    exact .inr ⟨hmin, hmagic ▸ hlo, hmagic ▸ hhi, op, n, hop, hn, hbig⟩
  · exact .inl (by omega)

end Sys2Proof.Machine
